-- ==== Sys2Proof/Word.lean ====
section
/-!
DEFINITION. The words of the WOB block (spec/00_scope.md R11, R13): 32-bit command and readback words,
binary32 and binary64 values as their bit patterns, and bytes.
-/
namespace Sys2Proof

/-- A 32-bit word: a command word (R90) or a readback word (R63). -/
abbrev Word := BitVec 32

/-- A binary32 value as its IEEE 754 bit pattern: sign 31, exponent 30:23, fraction 22:0 (R63). -/
abbrev F32 := BitVec 32

/-- A binary64 value as its bit pattern: only the mix and the harmonic mean use it (R131, R173). -/
abbrev F64 := BitVec 64

/-- A byte of a serialised word (R67). -/
abbrev Byte := BitVec 8

/-- A readback byte address (R60): 20 bits. -/
abbrev Addr := BitVec 20

end Sys2Proof
end

