-- ==== Sys2Proof/Syntax.lean ====
section
/-!
DEFINITION. The commands of spec/30_encoding.md R93 (one constructor per row of spec/opcode_table.json), the two ports
(R92), and the names of wave types and shapes (spec/00_scope.md R17).
-/
namespace Sys2Proof

/-- The two command ports (R92). -/
inductive Port where
  | control
  | engine
  deriving DecidableEq, Repr, Inhabited

/-- WaveType (R17): the closed variant of three. -/
inductive WaveType where
  | sine | sawtooth | square
  deriving DecidableEq, Repr

/-- WaveShape (R17). -/
inductive WaveShape where
  | pureSine | harmonicSine
  deriving DecidableEq, Repr

/-- The sixteen commands (R93). A wave operand is the raw 2-bit code w of R96, of which 3 spells no wave type
(WellFormed.lean); a shape operand is the 1-bit code s of R97; RENDER's operand is the 24-bit count n of R95. -/
inductive Instr where
  | nop
  | lfoFreqInc
  | lfoFreqDec
  | lfoDepthInc
  | lfoDepthDec
  | baseFreqInc
  | baseFreqDec
  | voicesInc
  | voicesDec
  | oscWaveNext
  | lfoWaveNext
  | setOscWave (w : BitVec 2)
  | setLfoWave (w : BitVec 2)
  | setSineShape (s : BitVec 1)
  | clrErr
  | render (n : BitVec 24)
  deriving DecidableEq, Repr, Inhabited

end Sys2Proof
end

