-- ==== Sys2Proof/WellFormed.lean ====
section
/-!
DEFINITION. Which terms of Instr are commands (spec/30_encoding.md R96: the wave code 3 spells no wave type), and which
port a command belongs to (R93).
-/
namespace Sys2Proof

/-- A term is a command unless its wave operand is 3 (R96). Shape and count operands are legal at every value (R97, R95). -/
def Instr.wellFormed : Instr → Bool
  | .setOscWave w => w != 3#2
  | .setLfoWave w => w != 3#2
  | .nop | .lfoFreqInc | .lfoFreqDec | .lfoDepthInc | .lfoDepthDec | .baseFreqInc | .baseFreqDec | .voicesInc
  | .voicesDec | .oscWaveNext | .lfoWaveNext | .setSineShape _ | .clrErr | .render _ => true

/-- The port column of R93: NOP on both ports, RENDER on the engine port, every other command on the control port. -/
def Instr.onPort : Instr → Port → Bool
  | .nop, _ => true
  | .render _, p => p == .engine
  | .lfoFreqInc, p | .lfoFreqDec, p | .lfoDepthInc, p | .lfoDepthDec, p | .baseFreqInc, p | .baseFreqDec, p
  | .voicesInc, p | .voicesDec, p | .oscWaveNext, p | .lfoWaveNext, p | .setOscWave _, p | .setLfoWave _, p
  | .setSineShape _, p | .clrErr, p => p == .control

end Sys2Proof
end

