-- ==== Sys2Proof/Decode.lean ====
section
/-!
DEFINITION. The decoder of spec/30_encoding.md R102, total on all words and both ports, and the encoder from the same
opcode map (R93) and operand forms (R94).
-/
namespace Sys2Proof

/-- Why a word is rejected (R102; codes in spec/60_exceptions.md R261). -/
inductive Cause where
  | illegalOpcode
  | wrongPort
  | reservedArg
  | badWave
  deriving DecidableEq, Repr

/-- The 4-bit code held in STATUS.ERR_CAUSE (R261). -/
def Cause.code : Cause → BitVec 4
  | .illegalOpcode => 1#4
  | .wrongPort => 2#4
  | .reservedArg => 3#4
  | .badWave => 4#4

/-- The operand forms of R94, each with the command it spells from its operand. -/
inductive Form where
  | z (i : Instr)
  | w (mk : BitVec 2 → Instr)
  | s (mk : BitVec 1 → Instr)
  | n (mk : BitVec 24 → Instr)

/-- The port column of R93. -/
inductive PortClass where
  | both | only (p : Port)
  deriving DecidableEq, Repr

def PortClass.admits : PortClass → Port → Bool
  | .both, _ => true
  | .only q, p => p == q

/-- OPC, bits 31:24 (R90). -/
def opcField (w : Word) : BitVec 8 := w.extractLsb' 24 8

/-- ARG, bits 23:0 (R90). -/
def argField (w : Word) : BitVec 24 := w.extractLsb' 0 24

/-- The opcode map (R93): a defined opcode's port and form; none for the 240 reserved opcodes (R98). -/
def opcodeMap (opc : BitVec 8) : Option (PortClass × Form) :=
  match opc with
  | 0x00#8 => some (.both, .z .nop)
  | 0x01#8 => some (.only .control, .z .lfoFreqInc)
  | 0x02#8 => some (.only .control, .z .lfoFreqDec)
  | 0x03#8 => some (.only .control, .z .lfoDepthInc)
  | 0x04#8 => some (.only .control, .z .lfoDepthDec)
  | 0x05#8 => some (.only .control, .z .baseFreqInc)
  | 0x06#8 => some (.only .control, .z .baseFreqDec)
  | 0x07#8 => some (.only .control, .z .voicesInc)
  | 0x08#8 => some (.only .control, .z .voicesDec)
  | 0x09#8 => some (.only .control, .z .oscWaveNext)
  | 0x0A#8 => some (.only .control, .z .lfoWaveNext)
  | 0x0B#8 => some (.only .control, .w .setOscWave)
  | 0x0C#8 => some (.only .control, .w .setLfoWave)
  | 0x0D#8 => some (.only .control, .s .setSineShape)
  | 0x0E#8 => some (.only .control, .z .clrErr)
  | 0x80#8 => some (.only .engine, .n .render)
  | _ => none

/-- The argument checks of R102 for one form, in the order written: reserved bits first, then the wave code. -/
def decodeForm (f : Form) (arg : BitVec 24) : Except Cause Instr :=
  match f with
  | .z i => if arg = 0#24 then .ok i else .error .reservedArg
  | .w mk =>
    if arg.extractLsb' 2 22 ≠ 0#22 then .error .reservedArg
    else if arg.extractLsb' 0 2 = 3#2 then .error .badWave
    else .ok (mk (arg.extractLsb' 0 2))
  | .s mk => if arg.extractLsb' 1 23 ≠ 0#23 then .error .reservedArg else .ok (mk (arg.extractLsb' 0 1))
  | .n mk => .ok (mk arg)

/-- Decode(port, w) (R102): the earliest failing check decides the cause (R263). -/
def decode (p : Port) (w : Word) : Except Cause Instr :=
  match opcodeMap (opcField w) with
  | none => .error .illegalOpcode
  | some (c, f) => if c.admits p then decodeForm f (argField w) else .error .wrongPort

/-- A command's opcode (R93). -/
def Instr.opcode : Instr → BitVec 8
  | .nop => 0x00#8
  | .lfoFreqInc => 0x01#8
  | .lfoFreqDec => 0x02#8
  | .lfoDepthInc => 0x03#8
  | .lfoDepthDec => 0x04#8
  | .baseFreqInc => 0x05#8
  | .baseFreqDec => 0x06#8
  | .voicesInc => 0x07#8
  | .voicesDec => 0x08#8
  | .oscWaveNext => 0x09#8
  | .lfoWaveNext => 0x0A#8
  | .setOscWave _ => 0x0B#8
  | .setLfoWave _ => 0x0C#8
  | .setSineShape _ => 0x0D#8
  | .clrErr => 0x0E#8
  | .render _ => 0x80#8

/-- A command's ARG (R94): the operand in its low bits, the must-be-0 bits 0. -/
def Instr.arg : Instr → BitVec 24
  | .setOscWave w => w.setWidth 24
  | .setLfoWave w => w.setWidth 24
  | .setSineShape s => s.setWidth 24
  | .render n => n
  | .nop | .lfoFreqInc | .lfoFreqDec | .lfoDepthInc | .lfoDepthDec | .baseFreqInc | .baseFreqDec | .voicesInc
  | .voicesDec | .oscWaveNext | .lfoWaveNext | .clrErr => 0#24

/-- The word of a command (R90): OPC above ARG. -/
def encode (i : Instr) : Word := i.opcode ++ i.arg

/-- The port a raw word is offered on when a word is given without a port: the engine port for RENDER's opcode, else
the control port (NOP belongs to both, R93). Log 24. -/
def portOfWord (w : Word) : Port := if opcField w = 0x80#8 then .engine else .control

/-- The command the decoder reads from a word given as the opcode table numbers it: bit 0 the least significant bit of
the one 32-bit word; bits at and above `nbits` are 0. -/
def decodeTableWord (nbits w : Nat) : Option Instr :=
  let word : Word := BitVec.ofNat 32 (w % 2 ^ nbits)
  match decode (portOfWord word) word with
  | .ok i => some i
  | .error _ => none

end Sys2Proof
end

