-- ==== Sys2Proof/Config.lean ====
section
/-!
DEFINITION. What an instance of the block fixes (spec/00_scope.md R9) and the free values: constants with no body,
so that nothing can be proved of what they are. What makes a configuration well formed (R10) is in
Machine/Configuration.lean.
-/
namespace Sys2Proof

/-- The configuration values of R9 that an instance chooses. DEPTH_MIN, DEPTH_MAX and LFO_FREQ_MIN are fixed values
(90_conflicts.md C10, 92_eei_decisions.md D9) and stand in Machine/Configuration.lean. TABLE_VALUE, a function on
[0, N), is the list of its N values. Plain data: a state carries its instance's configuration (log 4). -/
structure Config where
  /-- TABLE_LOG2; N = 2^TABLE_LOG2 (D5). -/
  tableLog2 : Nat
  /-- TABLE_VALUE(0), ..., TABLE_VALUE(N-1) (R121). -/
  tableValue : List F32
  /-- SAMPLE_RATE (R44). -/
  sampleRate : F32
  /-- MAX_VOICES (D8). -/
  maxVoices : Nat
  baseFreqMin : F32
  baseFreqMax : F32
  lfoFreqMax : F32
  baseFreqStep : F32
  lfoFreqStep : F32
  depthStep : F32
  detuneMax : F32
  deriving DecidableEq, Repr, Inhabited

/-- The operation that a free NaN pattern belongs to (log 8). -/
inductive FloatOp where
  | add | mul | div | widen | narrow
  deriving DecidableEq, Repr

namespace Config

/-! The OPEN parameters of R9 (92_eei_decisions.md section 2), uninterpreted. Log 4. -/

opaque openTableLog2 : Nat
opaque openTableValue : Nat → F32
opaque openLfoFreqMax : F32
opaque openBaseFreqStep : F32
opaque openLfoFreqStep : F32
opaque openDepthStep : F32
opaque openDetuneMax : F32

/-! Free values, uninterpreted. -/

/-- The detune draw of the power-on reset, one value a slot, before it is held to its interval (R291, R57). Log 7. -/
opaque freeDraw : Nat → F32

/-- Which agent moves at a step that the script leaves open, when the engine and the control agent both can
(R70); true: the engine. Applied to the counter `choices` of the state. Log 2. -/
opaque freeAgent : Nat → Bool

/-- Which pair of PENDING the control agent performs where the script leaves it open (R72). Applied to `choices`. Log 2. -/
opaque freePick : Nat → Nat

/-- Sign and payload of the NaN an operation on these operands gives; operands by sign and magnitude bits. Log 8. -/
opaque freeNaN : FloatOp → Bool × Nat → Bool × Nat → Bool × Nat

/-- The table index a lookup uses when its phase product is not finite, by the product's bits (R123 gives none). Log 9. -/
opaque freeIndex : F32 → Nat

end Config
end Sys2Proof
end

