-- ==== Sys2Proof/Machine/Float.lean ====
section
/-!
DEFINITION. The numeric primitives of spec/00_scope.md R13: binary32 and binary64 with one rounding per operation, to
nearest, ties to even, subnormals kept. A value is computed exactly in natural numbers or integers and narrowed once, in
`roundMag`.
A magnitude pattern is the bit pattern less its sign. Its `magUnits` counts units of the format's least subnormal
(2^-149, 2^-1074), so every finite value is a whole number of units.
Infinities and NaN as operands are IEEE 754's (log 10); R13 speaks of finite operands only. NaN patterns are free (log 8).
-/
namespace Sys2Proof.Machine

/-- A binary format: fraction bits and the all-ones exponent field. -/
structure Format where
  frac : Nat
  expTop : Nat
  deriving DecidableEq, Repr

def binary32 : Format := ⟨23, 255⟩
def binary64 : Format := ⟨52, 2047⟩

/-- The magnitude pattern of infinity: greater ones are NaN, smaller ones finite. -/
def Format.inf (f : Format) : Nat := f.expTop * 2 ^ f.frac

/-- The exponent of the unit: one is 2^scale units (149 and 1074). -/
def Format.scale (f : Format) : Nat := f.expTop / 2 - 1 + f.frac

/-- Sign and magnitude pattern. -/
abbrev Fp := Bool × Nat

/-- The value of a finite magnitude pattern, in units. -/
def magUnits (f : Format) (m : Nat) : Nat :=
  if m / 2 ^ f.frac = 0 then m else (2 ^ f.frac + m % 2 ^ f.frac) * 2 ^ (m / 2 ^ f.frac - 1)

/-- The signed value of a finite pattern, in units. -/
def units (f : Format) (x : Fp) : Int := if x.1 then -(magUnits f x.2 : Int) else (magUnits f x.2 : Int)

/-- n / d to the nearest integer, ties to even. -/
def roundHalfEven (n d : Nat) : Nat :=
  if 2 * (n % d) < d then n / d
  else if d < 2 * (n % d) then n / d + 1
  else n / d + n / d % 2

/-- The magnitude pattern nearest to n / d units, ties to even (rnd32, rnd64 of R13 on a magnitude); beyond the range it
is infinity. The significand is rounded at the quotient's own exponent (never below the subnormal one); adding it to
the shifted exponent carries into the exponent field when it rounds up to a power of two. -/
def roundMag (f : Format) (n d : Nat) : Nat :=
  let k := Nat.log2 (n / d) - f.frac
  min (k * 2 ^ f.frac + roundHalfEven n (d * 2 ^ k)) f.inf

def isNaNF (f : Format) (x : Fp) : Bool := decide (f.inf < x.2)
def isInfF (f : Format) (x : Fp) : Bool := x.2 == f.inf
def isZeroF (x : Fp) : Bool := x.2 == 0
def isFiniteF (f : Format) (x : Fp) : Bool := decide (x.2 < f.inf)

/-- A NaN with free sign and payload: any NaN pattern of the format. Log 8. -/
def nanF (f : Format) (op : FloatOp) (a b : Fp) : Fp :=
  let r := Config.freeNaN op a b
  (r.1, f.inf + 1 + r.2 % (2 ^ f.frac - 1))

/-- a + b, rounded once. An exact zero sum is +0.0 unless both operands are -0.0 (R13). -/
def addF (f : Format) (a b : Fp) : Fp :=
  if isNaNF f a || isNaNF f b then nanF f .add a b
  else if isInfF f a then (if isInfF f b && a.1 != b.1 then nanF f .add a b else a)
  else if isInfF f b then b
  else
    let v := units f a + units f b
    (if v = 0 then a.1 && b.1 else decide (v < 0), roundMag f v.natAbs 1)

/-- -a. -/
def negF (a : Fp) : Fp := (!a.1, a.2)

/-- a × b, rounded once. -/
def mulF (f : Format) (a b : Fp) : Fp :=
  if isNaNF f a || isNaNF f b then nanF f .mul a b
  else if isInfF f a || isInfF f b then
    (if isZeroF a || isZeroF b then nanF f .mul a b else (a.1 != b.1, f.inf))
  else (a.1 != b.1, roundMag f (magUnits f a.2 * magUnits f b.2) (2 ^ f.scale))

/-- a / b, rounded once. -/
def divF (f : Format) (a b : Fp) : Fp :=
  if isNaNF f a || isNaNF f b then nanF f .div a b
  else if isInfF f a then (if isInfF f b then nanF f .div a b else (a.1 != b.1, f.inf))
  else if isInfF f b then (a.1 != b.1, 0)
  else if isZeroF b then (if isZeroF a then nanF f .div a b else (a.1 != b.1, f.inf))
  else (a.1 != b.1, roundMag f (magUnits f a.2 * 2 ^ f.scale) (magUnits f b.2))

/-- The order of patterns that are not NaN: magnitude patterns are ordered as their values, and both zeros are 0. -/
def ordF (x : Fp) : Int := if x.1 then -(x.2 : Int) else (x.2 : Int)

/-! Bit patterns. -/

def unpack32 (x : F32) : Fp := (x.msb, x.toNat % 2 ^ 31)
def pack32 (x : Fp) : F32 := BitVec.ofNat 32 ((if x.1 then 2 ^ 31 else 0) + x.2)
def unpack64 (x : F64) : Fp := (x.msb, x.toNat % 2 ^ 63)
def pack64 (x : Fp) : F64 := BitVec.ofNat 64 ((if x.1 then 2 ^ 63 else 0) + x.2)

/-! The primitives of R13. -/

def add32 (a b : F32) : F32 := pack32 (addF binary32 (unpack32 a) (unpack32 b))
def sub32 (a b : F32) : F32 := pack32 (addF binary32 (unpack32 a) (negF (unpack32 b)))
def mul32 (a b : F32) : F32 := pack32 (mulF binary32 (unpack32 a) (unpack32 b))
def div32 (a b : F32) : F32 := pack32 (divF binary32 (unpack32 a) (unpack32 b))
def add64 (a b : F64) : F64 := pack64 (addF binary64 (unpack64 a) (unpack64 b))
def div64 (a b : F64) : F64 := pack64 (divF binary64 (unpack64 a) (unpack64 b))

/-- Exact widening of a magnitude; NaN stays a NaN, infinity infinity. -/
def widenF (a : Fp) : Fp :=
  if isNaNF binary32 a then nanF binary64 .widen a a
  else if isInfF binary32 a then (a.1, binary64.inf)
  else (a.1, roundMag binary64 (magUnits binary32 a.2 * 2 ^ (binary64.scale - binary32.scale)) 1)

/-- to64 (R13): widens a binary32 exactly. -/
def to64 (a : F32) : F64 := pack64 (widenF (unpack32 a))

/-- A binary64 rounded once to binary32. -/
def narrowF (a : Fp) : Fp :=
  if isNaNF binary64 a then nanF binary32 .narrow a a
  else if isInfF binary64 a then (a.1, binary32.inf)
  else (a.1, roundMag binary32 (magUnits binary64 a.2) (2 ^ (binary64.scale - binary32.scale)))

/-- rnd32 of a binary64 (R131, R173). -/
def rnd32 (a : F64) : F32 := pack32 (narrowF (unpack64 a))

/-- A natural number as a binary64, exact below 2^53 (the divisors of R131 and R173). -/
def nat64 (n : Nat) : F64 := pack64 (false, roundMag binary64 (n * 2 ^ binary64.scale) 1)

/-- A natural number as a binary32, exact below 2^24 (the harmonic number of R123). -/
def nat32 (n : Nat) : F32 := pack32 (false, roundMag binary32 (n * 2 ^ binary32.scale) 1)

/-! Comparisons and classes of binary32 (R13). A comparison with a NaN is false. -/

def isNaN32 (x : F32) : Bool := isNaNF binary32 (unpack32 x)
def isFinite32 (x : F32) : Bool := isFiniteF binary32 (unpack32 x)

/-- The exact value of a finite binary32, as a whole number of units of 2^-149. -/
def units32 (x : F32) : Int := units binary32 (unpack32 x)

/-- 1.0 in units. -/
def oneUnits32 : Int := 2 ^ binary32.scale

def lt32 (a b : F32) : Bool :=
  !isNaN32 a && !isNaN32 b && decide (ordF (unpack32 a) < ordF (unpack32 b))

def le32 (a b : F32) : Bool :=
  !isNaN32 a && !isNaN32 b && decide (ordF (unpack32 a) ≤ ordF (unpack32 b))

def eq32 (a b : F32) : Bool :=
  !isNaN32 a && !isNaN32 b && decide (ordF (unpack32 a) = ordF (unpack32 b))

/-! Constants. -/

def zero32 : F32 := 0x00000000#32
def one32 : F32 := 0x3F800000#32
def negOne32 : F32 := 0xBF800000#32
def half32 : F32 := 0x3F000000#32
def two32 : F32 := 0x40000000#32

/-- clamp (R221). -/
def clamp32 (x lo hi : F32) : F32 := if lt32 x lo then lo else if lt32 hi x then hi else x

end Sys2Proof.Machine
end

