-- ==== Sys2Proof/Machine/Sine.lean ====
section
/-!
DEFINITION. The closeness of a table to the sine, spec/40_phase_and_wavetable.md R121(a), decided exactly: a rational is
compared with the cosine of a dyadic part of a turn by doubling the angle, cos 2θ = 2 cos²θ - 1. No approximation of the
sine enters. Laws/Sine.lean proves that the check is R121(a) on real numbers.
-/
namespace Sys2Proof.Machine

/-- The cosine of j / 2^m turns is at least 0: the angle is in the first or the last quarter. -/
def cosNonneg (m j : Nat) : Bool := decide (4 * (j % 2 ^ m) ≤ 2 ^ m) || decide (3 * 2 ^ m ≤ 4 * (j % 2 ^ m))

/-- How n / d (d > 0) compares with the cosine of j / 2^m turns: by sign where the signs differ, else by squares, which
are compared at the doubled angle. -/
def compareCos : (m j : Nat) → (n : Int) → (d : Nat) → Ordering
  | 0, _, n, d => compare n d
  | m + 1, j, n, d =>
    if (d : Int) < n then .gt
    else if n < -(d : Int) then .lt
    else if cosNonneg (m + 1) j then (if n < 0 then .lt else compareCos m j (2 * n ^ 2 - (d : Int) ^ 2) (d ^ 2))
    else if 0 ≤ n then .gt
    else (compareCos m j (2 * n ^ 2 - (d : Int) ^ 2) (d ^ 2)).swap

/-- |x - sin(2π i / 2^l)| ≤ TABLE_TOL = 1 / 100000 (R121(a)); the sine of i / 2^l turns is the cosine of that angle less a
quarter turn, (4 i + 3 · 2^l) / 2^(l + 2) turns. x is in units of 2^-149. -/
def sineNear (l i : Nat) (x : F32) : Bool :=
  compareCos (l + 2) (4 * i + 3 * 2 ^ l) (100000 * units32 x - 2 ^ 149) (100000 * 2 ^ 149) != .gt
    && compareCos (l + 2) (4 * i + 3 * 2 ^ l) (100000 * units32 x + 2 ^ 149) (100000 * 2 ^ 149) != .lt

/-- R121(a) for a table of N = 2^l entries. -/
def tableNear (l : Nat) (table : List F32) : Bool := table.zipIdx.all (fun p => sineNear l p.2 p.1)

end Sys2Proof.Machine
end

