-- ==== Sys2Proof/Machine/Configuration.lean ====
section
/-!
DEFINITION. The configuration of an instance: its fixed values and derived sizes (spec/00_scope.md R9), what makes it
well formed (R10), the reset values (spec/10_state.md R56), and the instance of State.reset. All comparisons are exact,
in units of 2^-149.
-/
namespace Sys2Proof.Machine

/-! Values R9 fixes for every instance (90_conflicts.md C10, 92_eei_decisions.md D9). -/

/-- DEPTH_MIN = 0.0. -/
def depthMin : F32 := 0x00000000#32
/-- DEPTH_MAX = 2.0. -/
def depthMax : F32 := 0x40000000#32
/-- LFO_FREQ_MIN = 0.0. -/
def lfoFreqMin : F32 := 0x00000000#32

/-! Reset values (R56). -/

/-- BASE_FREQ: 240.0. -/
def resetBaseFreq : F32 := 0x43700000#32
/-- ACTIVE_VOICES: 3. -/
def resetActiveVoices : BitVec 4 := 3#4
/-- OSC_WAVE: Sine. -/
def resetOscWave : BitVec 2 := 0#2
/-- SINE_SHAPE: PureSine. -/
def resetSineShape : BitVec 1 := 0#1
/-- LFO_WAVE: Sawtooth. -/
def resetLfoWave : BitVec 2 := 1#2
/-- LFO_DEPTH: f32(0.2). -/
def resetLfoDepth : F32 := 0x3E4CCCCD#32
/-- LFO_FREQ: 10.0. -/
def resetLfoFreq : F32 := 0x41200000#32

/-- TABLE_SIZE, N = 2^TABLE_LOG2 (R9). -/
def tableSize (c : Config) : Nat := 2 ^ c.tableLog2

/-- A finite binary32 that is at least +0.0 or -0.0. -/
def nonNeg32 (x : F32) : Bool := isFinite32 x && decide (0 ≤ units32 x)

/-- A finite binary32 above 0. -/
def pos32 (x : F32) : Bool := isFinite32 x && decide (0 < units32 x)

/-- Part (b) of spec/40_phase_and_wavetable.md R121: a table entry is finite and of magnitude at most 1. -/
def tableEntryOk (x : F32) : Bool := isFinite32 x && decide ((units32 x).natAbs ≤ 2 ^ binary32.scale)

/-- x lies in [lo, hi], all finite, as real numbers. -/
def within32 (lo hi x : F32) : Bool :=
  isFinite32 x && decide (units32 lo ≤ units32 x) && decide (units32 x ≤ units32 hi)

/-- The ranges of R9: sizes, a sample rate that is a positive whole number, positive finite steps, 0 ≤ DETUNE_MAX < 1,
and a table of N entries that meet R121, (a) in `tableNear` and (b) in `tableEntryOk`. -/
def rangesOk (c : Config) : Bool :=
  decide (1 ≤ c.tableLog2) && decide (c.tableLog2 ≤ 16) && decide (1 ≤ c.maxVoices) && decide (c.maxVoices ≤ 15)
    && pos32 c.sampleRate && decide (units32 c.sampleRate % oneUnits32 = 0)
    && pos32 c.baseFreqStep && pos32 c.lfoFreqStep && pos32 c.depthStep
    && nonNeg32 c.detuneMax && decide (units32 c.detuneMax < oneUnits32)
    && decide (c.tableValue.length = tableSize c) && c.tableValue.all tableEntryOk
    && tableNear c.tableLog2 c.tableValue

/-- R10 (a): the bounds are finite, at least 0 and ordered. -/
def boundsOk (c : Config) : Bool :=
  nonNeg32 c.baseFreqMin && nonNeg32 c.baseFreqMax && decide (units32 c.baseFreqMin ≤ units32 c.baseFreqMax)
    && nonNeg32 c.lfoFreqMax && decide (units32 lfoFreqMin ≤ units32 c.lfoFreqMax)

/-- R10 (c): LFO_FREQ_MAX < SAMPLE_RATE. -/
def lfoBelowRate (c : Config) : Bool := decide (units32 c.lfoFreqMax < units32 c.sampleRate)

/-- R10 (d): BASE_FREQ_MAX × (1 + DETUNE_MAX) × (1 + DEPTH_MAX) ≤ SAMPLE_RATE / 2, on real numbers. -/
def nyquistSafe (c : Config) : Bool :=
  decide (2 * (units32 c.baseFreqMax * (oneUnits32 + units32 c.detuneMax) * (oneUnits32 + units32 depthMax))
    ≤ units32 c.sampleRate * oneUnits32 * oneUnits32)

/-- R10 (e): DETUNE_MAX < BASE_FREQ_MIN / BASE_FREQ_MAX, on real numbers. -/
def detuneBelowRatio (c : Config) : Bool :=
  decide (units32 c.detuneMax * units32 c.baseFreqMax < units32 c.baseFreqMin * oneUnits32)

/-- R10 (f): every reset value of R56 lies within its bounds. -/
def resetValuesOk (c : Config) : Bool :=
  within32 c.baseFreqMin c.baseFreqMax resetBaseFreq && decide (resetActiveVoices.toNat ≤ c.maxVoices)
    && within32 depthMin depthMax resetLfoDepth && within32 lfoFreqMin c.lfoFreqMax resetLfoFreq

/-- A well-formed configuration: R9, R10 and R121. -/
def configOk (c : Config) : Bool :=
  rangesOk c && boundsOk c && pos32 c.baseFreqMin && lfoBelowRate c && nyquistSafe c && detuneBelowRatio c
    && resetValuesOk c

/-- x lies in the real interval [1 - DETUNE_MAX, 1 + DETUNE_MAX] (R30). -/
def inDetuneRange (c : Config) (x : F32) : Bool :=
  isFinite32 x && decide (oneUnits32 - units32 c.detuneMax ≤ units32 x)
    && decide (units32 x ≤ oneUnits32 + units32 c.detuneMax)

/-- The draw of one detune ratio (R291): the free value x where it lies in its interval, else 1.0, which always does
(DETUNE_MAX ≥ 0). Over all x it takes exactly the admissible values. Log 7. -/
def admitDraw (c : Config) (x : F32) : F32 := if inDetuneRange c x then x else one32

/-- The name string of R3; no field of the hardware holds it. -/
def isaString (c : Config) : String :=
  "WOB-v1/N=" ++ toString (tableSize c) ++ "/V=" ++ toString c.maxVoices ++ "/SR="
    ++ toString (units32 c.sampleRate / oneUnits32)

/-! The instance of State.reset. Log 4. -/

/-- The decided values of R9 with the OPEN ones uninterpreted. -/
def chosenConfig : Config where
  tableLog2 := Config.openTableLog2
  tableValue := (List.range (2 ^ Config.openTableLog2)).map Config.openTableValue
  sampleRate := 0x473B8000#32
  maxVoices := 5
  baseFreqMin := 0x42480000#32
  baseFreqMax := 0x44160000#32
  lfoFreqMax := Config.openLfoFreqMax
  baseFreqStep := Config.openBaseFreqStep
  lfoFreqStep := Config.openLfoFreqStep
  depthStep := Config.openDepthStep
  detuneMax := Config.openDetuneMax

/-- A well-formed configuration with the decided values, the example instance of R9 but for its table (N = 2, whose two
sine values are 0). -/
def fallbackConfig : Config where
  tableLog2 := 1
  tableValue := [0x00000000#32, 0x00000000#32]
  sampleRate := 0x473B8000#32
  maxVoices := 5
  baseFreqMin := 0x42480000#32
  baseFreqMax := 0x44160000#32
  lfoFreqMax := 0x41A00000#32
  baseFreqStep := 0x41200000#32
  lfoFreqStep := 0x3F800000#32
  depthStep := 0x3DCCCCCD#32
  detuneMax := 0x3D4CCCCD#32

/-- The instance that State.reset belongs to: well formed, with the decided values of R9; nothing else is known of it.
A well-formed choice of the OPEN values is taken as it is; an ill-formed one (which R10 has a model refuse) is replaced. -/
def currentConfig : Config := if configOk chosenConfig then chosenConfig else fallbackConfig

end Sys2Proof.Machine
end

