-- ==== Sys2Proof/Machine/Types.lean ====
section
/-!
DEFINITION. The parts of the state (spec/10_state.md): voices, frames, the error record, the model-fault set, pending
writes, and the actions of the host and of the interleaving (spec/20_memory.md R70).
-/
namespace Sys2Proof.Machine

/-- One entry of the voice register file (R28, R29, R30). -/
structure Voice where
  /-- VOICE_FREQ[k]. -/
  freq : F32
  /-- VOICE_PHASE[k]. -/
  phase : F32
  /-- DETUNE[k]. -/
  detune : F32
  deriving DecidableEq, Repr, Inhabited

/-- One stereo frame (R47). -/
structure Frame where
  left : F32
  right : F32
  deriving DecidableEq, Repr, Inhabited

/-- The group ERRGRP of spec/44_parameter_surface.md R236: the stored error fields of STATUS (R36 to R39) and BAD_CMD (R42). -/
structure ErrRecord where
  /-- STATUS.ERR. -/
  err : Bool
  /-- STATUS.ERR_OVF. -/
  ovf : Bool
  /-- STATUS.ERR_PORT, the port of the first rejected command. -/
  port : Port
  /-- STATUS.ERR_CAUSE. -/
  cause : BitVec 4
  /-- BAD_CMD. -/
  badCmd : Word
  deriving DecidableEq, Repr, Inhabited

/-- MFAULT (R48): a set of names out of the three of spec/60_exceptions.md R266, as its membership. -/
structure MFaults where
  nonfinite : Bool
  phaseRange : Bool
  badState : Bool
  deriving DecidableEq, Repr, Inhabited

/-- One pair (field, value) of PENDING (R46): the fields a control command writes (R51). -/
inductive Write where
  | baseFreq (v : F32)
  | oscWave (v : BitVec 2)
  | sineShape (v : BitVec 1)
  | activeVoices (v : BitVec 4)
  | lfoFreq (v : F32)
  | lfoDepth (v : F32)
  | lfoWave (v : BitVec 2)
  /-- (ERRGRP, 0) of R236. -/
  | errGroup
  | voiceFreq (k : Nat) (v : F32)
  deriving DecidableEq, Repr, Inhabited

/-- What the host does and which agent moves next, one item a step: the steps (a) to (f) of R70, and the host's polling
(spec/30_encoding.md R104). Log 1. -/
inductive Action where
  /-- (a): the host issues w on the engine port. -/
  | engine (w : Word)
  /-- (b): the host issues w on the control port. -/
  | control (w : Word)
  /-- (c): an engine tick. -/
  | tick
  /-- (d): the control agent performs the pair of PENDING at place i, counted modulo the number of pairs. -/
  | write (i : Nat)
  /-- (e): a readback read. -/
  | read (a : Addr)
  /-- (f): reset, with its draw of detune ratios, one a slot (R291). -/
  | reset (draw : List F32)
  /-- WAIT_IDLE (R104). -/
  | waitIdle
  deriving DecidableEq, Repr, Inhabited

end Sys2Proof.Machine
end

