-- ==== Sys2Proof/Machine/ResetValues.lean ====
section
/-!
DEFINITION. What reset writes into the table, the voice register file and the error record (spec/70_reset_and_hazards.md
R291, spec/40_phase_and_wavetable.md R120).
-/
namespace Sys2Proof.Machine

/-- TableBuild (R120). -/
def resetTable (c : Config) : List F32 := c.tableValue

/-- One voice slot after reset, from its draw: VOICE_FREQ = mul32(240.0, DETUNE), phase +0.0 (R291). -/
def resetVoice (c : Config) (x : F32) : Voice :=
  { freq := mul32 resetBaseFreq (admitDraw c x), phase := zero32, detune := admitDraw c x }

/-- The voice register file after reset. A draw list shorter than MAX_VOICES stands for draws of 1.0 (log 7). -/
def resetVoices (c : Config) (draw : List F32) : List Voice :=
  (List.range c.maxVoices).map (fun k => resetVoice c (draw.getD k one32))

/-- The cleared error group (R265): every field 0. -/
def noError : ErrRecord := { err := false, ovf := false, port := .control, cause := 0#4, badCmd := 0#32 }

/-- The empty MFAULT. -/
def noFaults : MFaults := { nonfinite := false, phaseRange := false, badState := false }

/-- The draw of the power-on reset: free values (R57). Log 7. -/
def powerOnDraw : List F32 := (List.range 15).map Config.freeDraw

end Sys2Proof.Machine
end

