-- ==== Sys2Proof/Machine/State.lean ====
section
/-!
DEFINITION. The architectural state of one instance (spec/10_state.md R22), the reasons a step can stop, and the state
after the power-on reset (R56, spec/70_reset_and_hazards.md R290).
-/
namespace Sys2Proof.Machine

structure State where
  /-- The instance's parameters (spec/00_scope.md R9); no step writes them. CONFIG (R43) and SAMPLE_RATE_REG (R44) read
  from here. Log 4. -/
  cfg : Config
  /-- TABLE (R23). -/
  table : List F32
  /-- BASE_FREQ (R24). -/
  baseFreq : F32
  /-- OSC_WAVE (R25). -/
  oscWave : BitVec 2
  /-- SINE_SHAPE (R26). -/
  sineShape : BitVec 1
  /-- ACTIVE_VOICES (R27). -/
  activeVoices : BitVec 4
  /-- The voice register file (R28 to R30), slot 0 first. -/
  voices : List Voice
  /-- LFO_FREQ (R31). -/
  lfoFreq : F32
  /-- LFO_DEPTH (R32). -/
  lfoDepth : F32
  /-- LFO_PHASE (R33). -/
  lfoPhase : F32
  /-- LFO_WAVE (R34). -/
  lfoWave : BitVec 2
  /-- The stored error fields of STATUS, and BAD_CMD (R35 to R39, R42). -/
  error : ErrRecord
  /-- FRAMES_LEFT (R45). -/
  framesLeft : BitVec 24
  /-- PENDING (R46), a set, in rising order of its fields (Machine/Ops.lean; log 12). -/
  pending : List Write
  /-- OUT (R47), oldest first. -/
  out : List Frame
  /-- MFAULT (R48). -/
  mfault : MFaults
  /-- The model's own: the host's and the interleaving's actions still to come, next first. Log 1. -/
  script : List Action
  /-- The model's own: what the host has read on the readback port, oldest first. Log 11. -/
  reads : List (Addr × Word)
  /-- The model's own: how many free choices have been taken. Log 2. -/
  choices : Nat
  deriving DecidableEq, Repr, Inhabited

/-- Why the machine stops with a fault. Model faults of spec/60_exceptions.md R266 are no stop: they are names in MFAULT. -/
inductive Fault where
  /-- Raised by a frame tick in a state whose voice file or table has not the instance's size (MAX_VOICES, N), which is
  no state of the block. Safe: no state the spec gives the block stops here. Log 15. -/
  | stateShape
  deriving DecidableEq, Repr

/-- Why the machine refuses a step. -/
inductive Refusal where
  /-- Raised by exec's arm of an instruction that has no meaning yet. Safe. -/
  | notModelled (mnemonic : String)
  /-- Raised by the reset step of an instance whose configuration is ill formed: "A model should refuse an ill-formed
  configuration" (spec/00_scope.md R10). Safe. Log 5. -/
  | illFormedConfig
  deriving DecidableEq, Repr

/-- The state right after the power-on reset: R56 for every field of the block, OUT and MFAULT empty; the model's own
fields at values of the model's choice (logs 1, 2, 11). -/
def State.reset : State where
  cfg := currentConfig
  table := resetTable currentConfig
  baseFreq := resetBaseFreq
  oscWave := resetOscWave
  sineShape := resetSineShape
  activeVoices := resetActiveVoices
  voices := resetVoices currentConfig powerOnDraw
  lfoFreq := resetLfoFreq
  lfoDepth := resetLfoDepth
  lfoPhase := zero32
  lfoWave := resetLfoWave
  error := noError
  framesLeft := 0#24
  pending := []
  out := []
  mfault := noFaults
  script := []
  reads := []
  choices := 0

end Sys2Proof.Machine
end

