-- ==== Sys2Proof/Machine/Flags.lean ====
section
/-!
DEFINITION. STATUS (spec/10_state.md R35 to R41): the busy bits, the recording of a command error
(spec/60_exceptions.md R262), the model-fault sets (R266), and the words of STATUS, CONFIG, OSC_CTRL and LFO_CTRL.
-/
namespace Sys2Proof.Machine

/-- STATUS.CTRL_BUSY (R40): PENDING is non-empty. -/
def ctrlBusy (s : State) : Bool := !s.pending.isEmpty

/-- STATUS.ENG_BUSY (R41): FRAMES_LEFT > 0. -/
def engBusy (s : State) : Bool := s.framesLeft != 0#24

/-- The busy bit of a port. -/
def portBusy : Port → State → Bool
  | .control, s => ctrlBusy s
  | .engine, s => engBusy s

/-- STATUS.ERR_PORT's encoding (R38): 0 control, 1 engine. -/
def portBit : Port → BitVec 1
  | .control => 0#1
  | .engine => 1#1

/-- The error fields after a command error (R262): the first since the last clear is recorded whole, a later one only
sets ERR_OVF. -/
def recordError (e : ErrRecord) (p : Port) (c : Cause) (w : Word) : ErrRecord :=
  if e.err then { e with ovf := true }
  else { e with err := true, cause := c.code, port := p, badCmd := w }

/-- STATUS as read (R35): bit 0 ERR, 1 ERR_OVF, 2 ERR_PORT, 7:4 ERR_CAUSE, 8 CTRL_BUSY, 9 ENG_BUSY, the others 0. -/
def statusWord (s : State) : Word :=
  0#22 ++ BitVec.ofBool (engBusy s) ++ BitVec.ofBool (ctrlBusy s) ++ s.error.cause ++ 0#1 ++ portBit s.error.port
    ++ BitVec.ofBool s.error.ovf ++ BitVec.ofBool s.error.err

/-- CONFIG (R43): bits 4:0 TABLE_LOG2, bits 11:8 MAX_VOICES. -/
def configWord (c : Config) : Word := 0#20 ++ BitVec.ofNat 4 c.maxVoices ++ 0#3 ++ BitVec.ofNat 5 c.tableLog2

/-- OSC_CTRL (spec/20_memory.md R63): bits 1:0 OSC_WAVE, bit 4 SINE_SHAPE, bits 11:8 ACTIVE_VOICES. -/
def oscCtrlWord (s : State) : Word := 0#20 ++ s.activeVoices ++ 0#3 ++ s.sineShape ++ 0#2 ++ s.oscWave

/-- LFO_CTRL (R63): bits 1:0 LFO_WAVE. -/
def lfoCtrlWord (s : State) : Word := 0#30 ++ s.lfoWave

/-! Model-fault sets (R266). -/

def MFaults.union (a b : MFaults) : MFaults where
  nonfinite := a.nonfinite || b.nonfinite
  phaseRange := a.phaseRange || b.phaseRange
  badState := a.badState || b.badState

/-- a ⊆ b. -/
def MFaults.subset (a b : MFaults) : Bool :=
  (!a.nonfinite || b.nonfinite) && (!a.phaseRange || b.phaseRange) && (!a.badState || b.badState)

def onlyNonfinite : MFaults := { noFaults with nonfinite := true }
def onlyPhaseRange : MFaults := { noFaults with phaseRange := true }
def onlyBadState : MFaults := { noFaults with badState := true }

/-- The model fault of a VOICE_FREQ that is not finite and above 0 (spec/44_parameter_surface.md R239 (d), R266). Log 28. -/
def freqFaults (v : F32) : MFaults := if pos32 v then noFaults else onlyBadState

end Sys2Proof.Machine
end

