-- ==== Sys2Proof/Machine/Ops.lean ====
section
/-!
DEFINITION. The shared operations on the state: acceptance of a control command's write set and the control agent's
writes (spec/44_parameter_surface.md R220), the recording of a command error (spec/60_exceptions.md R262), model faults
(R266), frame output (spec/43_engine.md R204), and reset (spec/70_reset_and_hazards.md R291).
-/
namespace Sys2Proof.Machine

abbrev Result := Host.Outcome State Fault Refusal

/-! PENDING as a set (R46). -/

/-- The field a pair writes, as a number: a set of pairs is listed in rising order of it (log 12). -/
def Write.field : Write → Nat
  | .baseFreq _ => 0
  | .oscWave _ => 1
  | .sineShape _ => 2
  | .activeVoices _ => 3
  | .lfoFreq _ => 4
  | .lfoDepth _ => 5
  | .lfoWave _ => 6
  | .errGroup => 7
  | .voiceFreq k _ => 8 + k

/-- The canonical form of PENDING: fields strictly rising, so at most one pair per field (R46). -/
abbrev pendingWf (ws : List Write) : Prop := ws.Pairwise (fun a b => a.field < b.field)

/-- `S.f <- v`: one atomic write of one field (spec/20_memory.md R66). A write that leaves a VOICE_FREQ not positive is
marked in the same step (spec/44_parameter_surface.md R239 (d), spec/60_exceptions.md R266, R268; log 28). -/
def performWrite (w : Write) (s : State) : State :=
  match w with
  | .baseFreq v => { s with baseFreq := v }
  | .oscWave v => { s with oscWave := v }
  | .sineShape v => { s with sineShape := v }
  | .activeVoices v => { s with activeVoices := v }
  | .lfoFreq v => { s with lfoFreq := v }
  | .lfoDepth v => { s with lfoDepth := v }
  | .lfoWave v => { s with lfoWave := v }
  | .errGroup => { s with error := noError }
  | .voiceFreq k v =>
    { s with voices := s.voices.modify k (fun x => { x with freq := v }), mfault := s.mfault.union (freqFaults v) }

/-- ControlWrite (R220): the pair at place i, modulo the number of pairs, is performed and leaves PENDING. Nothing
happens when PENDING is empty (the step is not enabled). -/
def controlWrite (i : Nat) (s : State) : State :=
  match s.pending[i % s.pending.length]? with
  | some w => performWrite w { s with pending := s.pending.eraseIdx (i % s.pending.length) }
  | none => s

/-- Acceptance of a control command (R220): PENDING becomes its write set. While PENDING is non-empty the port does not
take the command and nothing changes (held, log 17). -/
def acceptWrites (ws : List Write) (s : State) : Result :=
  if ctrlBusy s then .next s else .next { s with pending := ws }

/-- raise CmdError(cause) (R262) for word w on port p: this block's one exception entry. No other field changes (R260). -/
def raiseCmdError (p : Port) (c : Cause) (w : Word) (s : State) : State :=
  { s with error := recordError s.error p c w }

/-- fault ModelFault: names join MFAULT; none ever leaves (R266, R267). -/
def addFaults (f : MFaults) (s : State) : State := { s with mfault := s.mfault.union f }

/-- emit(L, R) (R204). -/
def emit (l r : F32) (s : State) : State := { s with out := s.out ++ [{ left := l, right := r }] }

/-- Reset(draw) (R291): every field to its reset value; OUT and MFAULT stay; the configuration and the model's own
fields (the host's side) stay (log 20). -/
def applyReset (draw : List F32) (s : State) : State :=
  { s with
    table := resetTable s.cfg
    voices := resetVoices s.cfg draw
    baseFreq := resetBaseFreq
    activeVoices := resetActiveVoices
    oscWave := resetOscWave
    sineShape := resetSineShape
    lfoWave := resetLfoWave
    lfoDepth := resetLfoDepth
    lfoFreq := resetLfoFreq
    lfoPhase := zero32
    error := noError
    framesLeft := 0#24
    pending := [] }

/-- The reset step (R290): an instance with an ill-formed configuration has no behaviour (R10, I13). Log 5. -/
def resetStep (draw : List F32) (s : State) : Result :=
  if configOk s.cfg then .next (applyReset draw s) else .refused .illFormedConfig

/-- The state's lists have the instance's sizes: MAX_VOICES slots (R28) and N table entries (R23). -/
def shapeOk (s : State) : Bool :=
  decide (s.voices.length = s.cfg.maxVoices) && decide (s.table.length = tableSize s.cfg)

end Sys2Proof.Machine
end

