-- ==== Sys2Proof/Machine/Waveform.lean ====
section
/-!
DEFINITION. The building blocks of a tick (spec/40_phase_and_wavetable.md): table lookup, the phase accumulator, and the
waveform shapes. Values and the model faults they raise are separate functions of the same arguments.
-/
namespace Sys2Proof.Machine

/-- The phase product q of R123: p itself for h = 1, else mul32(h, p). -/
def phaseProduct (p : F32) (h : Nat) : F32 := if h = 1 then p else mul32 (nat32 h) p

/-- TableIndex(p, h) (R123): floor(q × N) mod N, exactly, for N = 2^log2n. A non-finite q, which R123 does not cover,
gives a free index (log 9). -/
def tableIndex (log2n : Nat) (p : F32) (h : Nat) : Nat :=
  if isFinite32 (phaseProduct p h) then
    (units32 (phaseProduct p h) * 2 ^ log2n / 2 ^ binary32.scale % 2 ^ log2n).toNat
  else Config.freeIndex (phaseProduct p h) % 2 ^ log2n

/-- TABLE[i]. In a state of the block i is always below the length (R124). -/
def tableAt (table : List F32) (i : Nat) : F32 := table.getD i zero32

/-- SineLookup(p) (R124): no interpolation. -/
def sineLookup (table : List F32) (log2n : Nat) (p : F32) : F32 := tableAt table (tableIndex log2n p 1)

/-- HarmonicSine(p) (R131): the mean of three lookups in binary64, rounded once. -/
def harmonicSine (table : List F32) (log2n : Nat) (p : F32) : F32 :=
  let a := tableAt table (tableIndex log2n p 1)
  let b := tableAt table (tableIndex log2n p 2)
  let c := tableAt table (tableIndex log2n p 3)
  rnd32 (div64 (add64 (add64 (to64 a) (to64 b)) (to64 c)) (nat64 3))

/-- Saw(p) (R128). -/
def saw (p : F32) : F32 := sub32 (mul32 two32 p) one32

/-- Square(p) (R129). -/
def square (p : F32) : F32 := if lt32 p half32 then negOne32 else one32

/-- WaveValue(w, shape, p) (R130); the code 3 gives +0.0 and the fault of `waveFaults`. -/
def waveValue (table : List F32) (log2n : Nat) (w : BitVec 2) (shape : BitVec 1) (p : F32) : F32 :=
  if w = 0#2 then (if shape = 0#1 then sineLookup table log2n p else harmonicSine table log2n p)
  else if w = 1#2 then saw p
  else if w = 2#2 then square p
  else zero32

/-- The model fault of WaveValue (R130): BAD_STATE for the code 3. -/
def waveFaults (w : BitVec 2) : MFaults := if w = 3#2 then onlyBadState else noFaults

/-- 0.0 ≤ r < 1.0. -/
def inUnit (r : F32) : Bool := le32 zero32 r && lt32 r one32

/-- The wrap of a finite phase sum s (R125): one subtraction from 1.0 up, one addition below 0.0, and a sum that rounds
up to 1.0 becomes +0.0. -/
def wrapPhase (s : F32) : F32 :=
  if le32 one32 s then sub32 s one32
  else if lt32 s zero32 then (if le32 one32 (add32 s one32) then zero32 else add32 s one32)
  else s

/-- Advance(p, inc) (R125): a NaN or infinite sum is returned as it is. -/
def advance (p inc : F32) : F32 := if isFinite32 (add32 p inc) then wrapPhase (add32 p inc) else add32 p inc

/-- The model faults of Advance (R125, R126): NONFINITE, or PHASE_RANGE when the wrapped phase is outside [0, 1). -/
def advanceFaults (p inc : F32) : MFaults :=
  if isFinite32 (add32 p inc) then (if inUnit (wrapPhase (add32 p inc)) then noFaults else onlyPhaseRange)
  else onlyNonfinite

end Sys2Proof.Machine
end

