-- ==== Sys2Proof/Machine/Engine.lean ====
section
/-!
DEFINITION. The frame tick (spec/43_engine.md R200) with its LFO step (spec/41_lfo.md R150) and oscillator-bank step
(spec/42_oscillator_bank.md R170), and the engine-port commands RENDER (R205) and NOP (R206).
-/
namespace Sys2Proof.Machine

/-- The tick's latched parameter view V (spec/20_memory.md R71). -/
structure View where
  lfoWave : BitVec 2
  lfoFreq : F32
  lfoDepth : F32
  oscWave : BitVec 2
  sineShape : BitVec 1
  activeVoices : Nat
  voiceFreq : List F32

/-- Latch(S) (R71): every parameter field at one instant. -/
def latch (s : State) : View where
  lfoWave := s.lfoWave
  lfoFreq := s.lfoFreq
  lfoDepth := s.lfoDepth
  oscWave := s.oscWave
  sineShape := s.sineShape
  activeVoices := s.activeVoices.toNat
  voiceFreq := s.voices.map (·.freq)

/-- LFO value v (R151): the harmonic shape is never used. -/
def lfoValue (v : View) (s : State) : F32 := waveValue s.table s.cfg.tableLog2 v.lfoWave 0#1 s.lfoPhase

/-- LFO increment (R152). -/
def lfoInc (v : View) (s : State) : F32 := div32 v.lfoFreq s.cfg.sampleRate

/-- Frequency multiplier m (R154): two roundings, no fused multiply-add. -/
def lfoMultiplier (x depth : F32) : F32 := add32 one32 (mul32 x depth)

/-- LfoTick(V) (R150): the multiplier, taken at the phase before the advance, and the state with LFO_PHASE advanced. -/
def lfoTick (v : View) (s : State) : F32 × State :=
  (lfoMultiplier (lfoValue v s) v.lfoDepth,
    addFaults ((waveFaults v.lfoWave).union (advanceFaults s.lfoPhase (lfoInc v s)))
      { s with lfoPhase := advance s.lfoPhase (lfoInc v s) })

/-- Per-voice increment (R171): product first, then quotient. -/
def voiceInc (freq m rate : F32) : F32 := div32 (mul32 freq m) rate

/-- Phase advance of the active voices (R174): one voice per increment; voices beyond the increments stay (R175). -/
def advanceVoices : List Voice → List F32 → List Voice
  | v :: vs, i :: is => { v with phase := advance v.phase i } :: advanceVoices vs is
  | vs, _ => vs

/-- The model faults of those advances. -/
def advanceVoicesFaults : List Voice → List F32 → MFaults
  | v :: vs, i :: is => (advanceFaults v.phase i).union (advanceVoicesFaults vs is)
  | _, _ => noFaults

/-- Mix (R173): the binary64 sum in slot order, divided by the count, rounded once to binary32. -/
def mixSamples (raws : List F32) (c : Nat) : F32 :=
  rnd32 (div64 (raws.foldl (fun acc r => add64 acc (to64 r)) (0#64)) (nat64 c))

/-- OscTick(V, m) (R170): the mixed sample, and the state with the active voices' phases advanced. A voice count outside
[1, MAX_VOICES] is the model fault BAD_STATE with sample +0.0 (R177; log 16). -/
def oscTick (v : View) (m : F32) (s : State) : F32 × State :=
  if v.activeVoices < 1 ∨ s.cfg.maxVoices < v.activeVoices then (zero32, addFaults onlyBadState s)
  else
    let incs := (v.voiceFreq.take v.activeVoices).map (fun f => voiceInc f m s.cfg.sampleRate)
    let raws := (s.voices.take v.activeVoices).map
      (fun x => waveValue s.table s.cfg.tableLog2 v.oscWave v.sineShape x.phase)
    (mixSamples raws v.activeVoices,
      addFaults ((waveFaults v.oscWave).union (advanceVoicesFaults s.voices incs))
        { s with voices := advanceVoices s.voices incs })

/-- FrameTick (R200) as a function of the state: the LFO before the oscillator (R201), one frame (x, x), one frame fewer
left. -/
def tickState (s : State) : State :=
  let v := latch s
  let l := lfoTick v s
  let o := oscTick v l.1 l.2
  let e := emit o.1 o.1 o.2
  { e with framesLeft := s.framesLeft - 1#24 }

/-- The FrameTick step. A state without the instance's sizes is no state of the block (log 15). -/
def frameTick (s : State) : Result := if shapeOk s then .next (tickState s) else .fault .stateShape

/-! The engine-port commands. -/

/-- NOP (R206). -/
def execNop (s : State) : Result := .next s

/-- RENDER n (R205): FRAMES_LEFT := n. While a RENDER is in progress the port does not take the command and nothing
changes (R209, held, log 17). -/
def execRender (n : BitVec 24) (s : State) : Result :=
  if engBusy s then .next s else .next { s with framesLeft := n }

end Sys2Proof.Machine
end

