-- ==== Sys2Proof/Machine/Operands.lean ====
section
/-!
DEFINITION. What the operand codes of spec/30_encoding.md R95 to R97 stand for, and the operand computations the
parameter commands share (spec/44_parameter_surface.md R221, R230, R231).
-/
namespace Sys2Proof.Machine

/-- The codes of WaveType (spec/00_scope.md R17). -/
def waveCode : WaveType → BitVec 2
  | .sine => 0#2
  | .sawtooth => 1#2
  | .square => 2#2

/-- The wave type a code spells; 3 spells none (R96). -/
def waveOfCode : BitVec 2 → Option WaveType
  | 0#2 => some .sine
  | 1#2 => some .sawtooth
  | 2#2 => some .square
  | _ => none

/-- The codes of WaveShape (R97). -/
def shapeCode : WaveShape → BitVec 1
  | .pureSine => 0#1
  | .harmonicSine => 1#1

/-- The shape a code spells (R97). -/
def shapeOfCode (s : BitVec 1) : WaveShape := if s = 0#1 then .pureSine else .harmonicSine

/-- The explicit next operation of R17 and R231 on a code, (code + 1) mod 3 on integers. -/
def nextWaveCode (w : BitVec 2) : BitVec 2 := BitVec.ofNat 2 ((w.toNat + 1) % 3)

/-- RENDER's count n = zext_32(ARG) (R95) as an integer. -/
def frameCount (n : BitVec 24) : Nat := n.toNat

/-- The clamped step of LFO_FREQ upwards (R222). -/
def lfoFreqUp (s : State) : F32 := clamp32 (add32 s.lfoFreq s.cfg.lfoFreqStep) lfoFreqMin s.cfg.lfoFreqMax

/-- The clamped step of LFO_FREQ downwards (R223). -/
def lfoFreqDown (s : State) : F32 := clamp32 (sub32 s.lfoFreq s.cfg.lfoFreqStep) lfoFreqMin s.cfg.lfoFreqMax

/-- The clamped step of LFO_DEPTH upwards (R224). -/
def lfoDepthUp (s : State) : F32 := clamp32 (add32 s.lfoDepth s.cfg.depthStep) depthMin depthMax

/-- The clamped step of LFO_DEPTH downwards (R225). -/
def lfoDepthDown (s : State) : F32 := clamp32 (sub32 s.lfoDepth s.cfg.depthStep) depthMin depthMax

/-- `new` of R226. -/
def baseFreqUp (s : State) : F32 := clamp32 (add32 s.baseFreq s.cfg.baseFreqStep) s.cfg.baseFreqMin s.cfg.baseFreqMax

/-- `new` of R227. -/
def baseFreqDown (s : State) : F32 := clamp32 (sub32 s.baseFreq s.cfg.baseFreqStep) s.cfg.baseFreqMin s.cfg.baseFreqMax

/-- c' of R228: min(ACTIVE_VOICES + 1, MAX_VOICES). -/
def voiceCountUp (s : State) : Nat := min (s.activeVoices.toNat + 1) s.cfg.maxVoices

/-- c' of R229: max(ACTIVE_VOICES - 1, 1). -/
def voiceCountDown (s : State) : Nat := max (s.activeVoices.toNat - 1) 1

/-- The pairs (VOICE_FREQ[k], g of slot k) for the given slots, which are slots 0, 1, ... in order. -/
def voiceFreqWrites (g : Voice → F32) (vs : List Voice) : List Write := vs.mapIdx (fun k v => .voiceFreq k (g v))

/-- The write set of a base-frequency command with new value `new` (R226): BASE_FREQ, and every slot's VOICE_FREQ shifted
by the same delta d = sub32(new, BASE_FREQ). -/
def shiftWrites (s : State) (new : F32) : List Write :=
  .baseFreq new :: voiceFreqWrites (fun v => add32 v.freq (sub32 new s.baseFreq)) s.voices

/-- ReDerive(c', S) (R230): mul32(BASE_FREQ, DETUNE[k]) for k < c'. In a state outside INV, where c' can exceed MAX_VOICES,
only the slots that exist have a pair (log 27). -/
def reDeriveWrites (s : State) (c : Nat) : List Write :=
  voiceFreqWrites (fun v => mul32 s.baseFreq v.detune) (s.voices.take c)

/-- The write set of a voice-count command with new count c (R228, R229). -/
def resizeWrites (s : State) (c : Nat) : List Write := .activeVoices (BitVec.ofNat 4 c) :: reDeriveWrites s c

end Sys2Proof.Machine
end

