-- ==== Sys2Proof/Machine/Surface.lean ====
section
/-!
DEFINITION. The control commands (spec/44_parameter_surface.md R222 to R236). A command's own step is its acceptance:
PENDING becomes its write set, computed from the state at that instant (R220); the control agent's ControlWrite steps
perform the pairs.
-/
namespace Sys2Proof.Machine

/-- LFO_FREQ_INC (R222). -/
def execLfoFreqInc (s : State) : Result := acceptWrites [.lfoFreq (lfoFreqUp s)] s

/-- LFO_FREQ_DEC (R223). -/
def execLfoFreqDec (s : State) : Result := acceptWrites [.lfoFreq (lfoFreqDown s)] s

/-- LFO_DEPTH_INC (R224). -/
def execLfoDepthInc (s : State) : Result := acceptWrites [.lfoDepth (lfoDepthUp s)] s

/-- LFO_DEPTH_DEC (R225). -/
def execLfoDepthDec (s : State) : Result := acceptWrites [.lfoDepth (lfoDepthDown s)] s

/-- BASE_FREQ_INC (R226). -/
def execBaseFreqInc (s : State) : Result := acceptWrites (shiftWrites s (baseFreqUp s)) s

/-- BASE_FREQ_DEC (R227). -/
def execBaseFreqDec (s : State) : Result := acceptWrites (shiftWrites s (baseFreqDown s)) s

/-- VOICES_INC (R228). -/
def execVoicesInc (s : State) : Result := acceptWrites (resizeWrites s (voiceCountUp s)) s

/-- VOICES_DEC (R229). -/
def execVoicesDec (s : State) : Result := acceptWrites (resizeWrites s (voiceCountDown s)) s

/-- The model fault of a NEXT command on a field that holds the code 3 (R231, R266), raised when the command is accepted
(log 25). -/
def nextWaveFault (w : BitVec 2) (s : State) : State := if ctrlBusy s then s else addFaults (waveFaults w) s

/-- OSC_WAVE_NEXT (R231). -/
def execOscWaveNext (s : State) : Result :=
  acceptWrites [.oscWave (nextWaveCode s.oscWave)] (nextWaveFault s.oscWave s)

/-- LFO_WAVE_NEXT (R232). -/
def execLfoWaveNext (s : State) : Result :=
  acceptWrites [.lfoWave (nextWaveCode s.lfoWave)] (nextWaveFault s.lfoWave s)

/-- SET_OSC_WAVE w (R233). -/
def execSetOscWave (w : BitVec 2) (s : State) : Result := acceptWrites [.oscWave w] s

/-- SET_LFO_WAVE w (R234). -/
def execSetLfoWave (w : BitVec 2) (s : State) : Result := acceptWrites [.lfoWave w] s

/-- SET_SINE_SHAPE s (R235). -/
def execSetSineShape (v : BitVec 1) (s : State) : Result := acceptWrites [.sineShape v] s

/-- CLR_ERR (R236): the clear is the pending write (ERRGRP, 0), performed at a later ControlWrite. -/
def execClrErr (s : State) : Result := acceptWrites [.errGroup] s

end Sys2Proof.Machine
end

