-- ==== Sys2Proof/Machine/Dispatch.lean ====
section
/-! DEFINITION. One arm per command of Instr (spec/30_encoding.md R93): its meaning when its port accepts it. -/

namespace Sys2Proof.Machine

def exec (i : Instr) (s : State) : Host.Outcome State Fault Refusal :=
  match i with
  | .nop => Sys2Proof.Machine.execNop s
  | .lfoFreqInc => Sys2Proof.Machine.execLfoFreqInc s
  | .lfoFreqDec => Sys2Proof.Machine.execLfoFreqDec s
  | .lfoDepthInc => Sys2Proof.Machine.execLfoDepthInc s
  | .lfoDepthDec => Sys2Proof.Machine.execLfoDepthDec s
  | .baseFreqInc => Sys2Proof.Machine.execBaseFreqInc s
  | .baseFreqDec => Sys2Proof.Machine.execBaseFreqDec s
  | .voicesInc => Sys2Proof.Machine.execVoicesInc s
  | .voicesDec => Sys2Proof.Machine.execVoicesDec s
  | .oscWaveNext => Sys2Proof.Machine.execOscWaveNext s
  | .lfoWaveNext => Sys2Proof.Machine.execLfoWaveNext s
  | .setOscWave w => Sys2Proof.Machine.execSetOscWave w s
  | .setLfoWave w => Sys2Proof.Machine.execSetLfoWave w s
  | .setSineShape v => Sys2Proof.Machine.execSetSineShape v s
  | .clrErr => Sys2Proof.Machine.execClrErr s
  | .render n => Sys2Proof.Machine.execRender n s

end Sys2Proof.Machine
end

