-- ==== Sys2Proof/Machine/Readback.lean ====
section
/-!
DEFINITION. The readback port (spec/20_memory.md R61 to R65, R68, R69): a read-only view of the state in a 20-bit byte
address space, and the byte order of serialised words (R67).
-/
namespace Sys2Proof.Machine

/-- The 16-byte voice window (R63, R64): word j of slot k. Slots at and beyond MAX_VOICES read 0, and so does word 3. -/
def voiceWord (s : State) (k j : Nat) : Word :=
  if k < s.cfg.maxVoices then
    match s.voices[k]? with
    | none => 0#32
    | some v => if j = 0 then v.freq else if j = 1 then v.phase else if j = 2 then v.detune else 0#32
  else 0#32

/-- The table window (R65): TABLE[i] for i < N, 0 past the end. -/
def tableWord (s : State) (i : Nat) : Word := if i < tableSize s.cfg then s.table.getD i 0#32 else 0#32

/-- The registers below the voice window, by byte address (R63). -/
def registerWord (s : State) (n : Nat) : Word :=
  if n = 0x00 then statusWord s
  else if n = 0x04 then s.error.badCmd
  else if n = 0x08 then configWord s.cfg
  else if n = 0x0C then s.cfg.sampleRate
  else if n = 0x10 then s.baseFreq
  else if n = 0x14 then oscCtrlWord s
  else if n = 0x18 then s.lfoFreq
  else if n = 0x1C then s.lfoDepth
  else if n = 0x20 then s.lfoPhase
  else if n = 0x24 then lfoCtrlWord s
  else 0#32

/-- MemRead(addr, 4) (R61): a misaligned read and a read outside the map give 0 (R68, R69). -/
def memRead (s : State) (a : Addr) : Word :=
  let n := a.toNat
  if n % 4 ≠ 0 then 0#32
  else if n < 0x40 then registerWord s n
  else if n < 0x140 then voiceWord s ((n - 0x40) / 16) ((n - 0x40) % 16 / 4)
  else if n < 0x1000 then 0#32
  else tableWord s ((n - 0x1000) / 4)

/-- The host's readback step (R70 (e)): it changes no state of the block; the word goes to the host (log 11). -/
def readStep (a : Addr) (s : State) : State := { s with reads := s.reads ++ [(a, memRead s a)] }

/-- A word as bytes, least significant first (R67). -/
def wordBytes (w : Word) : List Byte := [w.extractLsb' 0 8, w.extractLsb' 8 8, w.extractLsb' 16 8, w.extractLsb' 24 8]

/-- A stored frame (R67): L, then R. -/
def frameBytes (f : Frame) : List Byte := wordBytes f.left ++ wordBytes f.right

/-- OUT as the host stores it in a byte buffer (R67, R204). -/
def storedFrames (s : State) : List Byte := s.out.flatMap frameBytes

end Sys2Proof.Machine
end

