-- ==== Sys2Proof/Machine/Schedule.lean ====
section
/-!
DEFINITION. The interleaving (spec/20_memory.md R70): acceptance of a word on a port, the block's own moves, and the
actions of the script. Every move is one enabled step of R70, or no step where the action taken is not enabled.
-/
namespace Sys2Proof.Machine

/-- Acceptance of a word on an idle port, one atomic step (spec/43_engine.md R209, spec/44_parameter_surface.md R220): the
decoded command's rule, or the recording of its rejection. -/
def acceptWord (p : Port) (w : Word) (s : State) : Result :=
  match decode p w with
  | .ok i => exec i s
  | .error c => .next (raiseCmdError p c w s)

/-- A free choice is used up. Log 2. -/
def spendChoice (s : State) : State := { s with choices := s.choices + 1 }

/-- A ControlWrite whose pair the script leaves open: with one pair there is no choice, with more a free one (R72). Log 2. -/
def freeWrite (s : State) : State :=
  if s.pending.length ≤ 1 then controlWrite 0 s else controlWrite (Config.freePick s.choices) (spendChoice s)

/-- A move of the block on its own (R70 (c), (d)): the engine's tick or the control agent's write, whichever is enabled; a
free choice when both are (log 2); no step when neither is (spec/60_exceptions.md R277). -/
def ownMove (s : State) : Result :=
  if engBusy s then
    if ctrlBusy s then
      if Config.freeAgent s.choices then frameTick (spendChoice s) else .next (freeWrite (spendChoice s))
    else frameTick s
  else if ctrlBusy s then .next (freeWrite s)
  else .next s

/-- The script without its head. -/
def dropAction (s : State) : State := { s with script := s.script.tail }

/-- A word offered on a port (R70 (a), (b)): accepted when the port is idle; else held at the head of the script while
the block moves (spec/70_reset_and_hazards.md R302). Log 3. -/
def offerWord (p : Port) (w : Word) (s : State) : Result :=
  if portBusy p s then ownMove s else acceptWord p w (dropAction s)

/-- One action of the script, which stands at its head. A tick or a write that is not enabled is dropped without effect
(log 3); WAIT_IDLE polls STATUS until both busy bits are 0 (spec/30_encoding.md R104; log 23). -/
def runAction (a : Action) (s : State) : Result :=
  match a with
  | .engine w => offerWord .engine w s
  | .control w => offerWord .control w s
  | .tick => if engBusy s then frameTick (dropAction s) else .next (dropAction s)
  | .write i => .next (controlWrite i (dropAction s))
  | .read a => .next (readStep a (dropAction s))
  | .reset draw => resetStep draw (dropAction s)
  | .waitIdle => if engBusy s || ctrlBusy s then ownMove s else .next (dropAction s)

/-- One step: the script's next action, or past its end a move of the block on its own. -/
def scriptStep (s : State) : Result :=
  match s.script with
  | [] => ownMove s
  | a :: _ => runAction a s

/-- A word placed so that the very next step takes it: at the head of the script, on the port `portOfWord` names (log
24), which is made idle. -/
def placeWord (w : Word) (s : State) : State :=
  match portOfWord w with
  | .engine => { s with script := .engine w :: s.script, framesLeft := 0#24 }
  | .control => { s with script := .control w :: s.script, pending := [] }

end Sys2Proof.Machine
end

