-- ==== Sys2Proof/Machine/Step.lean ====
section
/-! DEFINITION. The one step of the machine (spec/20_memory.md R70; Machine/Schedule.lean) and the place of its next word. -/
namespace Sys2Proof.Machine

/-- One step: a deterministic function of the state, whose script says what the host does and which agent moves (log 1). -/
def step (s : State) : Host.Outcome State Fault Refusal := scriptStep s

/-- The state with a word, given as the opcode table numbers it, offered as the next action on an idle port (log 24). -/
def State.withFetchWord (s : State) (nbits w : Nat) : State := placeWord (BitVec.ofNat 32 (w % 2 ^ nbits)) s

end Sys2Proof.Machine
end

