-- ==== Sys2Proof/Machine/Assembler.lean ====
section
/-!
DEFINITION. The assembler notation of spec/30_encoding.md R103 and R105, and the lines of a host program (R104) as actions
of the script. Text is taken as already split into a mnemonic and one operand (log 26).
-/
namespace Sys2Proof.Machine

/-- The operands of R103: a wave name, a shape name, a count. -/
inductive AsmOperand where
  | none
  | wave (w : WaveType)
  | shape (s : WaveShape)
  | count (n : Nat)
  deriving DecidableEq, Repr

/-- A command line: a mnemonic with its operand, the pseudo TICK, or a raw word (R105). -/
inductive AsmLine where
  | command (mnemonic : String) (operand : AsmOperand)
  | tick
  | word (v : Word)
  deriving DecidableEq, Repr

/-- The mnemonics of the commands that take no operand (form Z, R93). -/
def asmPlain : List (String × Instr) :=
  [("NOP", .nop), ("LFO_FREQ_INC", .lfoFreqInc), ("LFO_FREQ_DEC", .lfoFreqDec), ("LFO_DEPTH_INC", .lfoDepthInc),
    ("LFO_DEPTH_DEC", .lfoDepthDec), ("BASE_FREQ_INC", .baseFreqInc), ("BASE_FREQ_DEC", .baseFreqDec),
    ("VOICES_INC", .voicesInc), ("VOICES_DEC", .voicesDec), ("OSC_WAVE_NEXT", .oscWaveNext),
    ("LFO_WAVE_NEXT", .lfoWaveNext), ("CLR_ERR", .clrErr)]

/-- The command of a mnemonic and an operand; none where the operand is outside the mnemonic's set (R103). -/
def asmInstr (m : String) (o : AsmOperand) : Option Instr :=
  match o with
  | .none => asmPlain.lookup m
  | .wave w =>
    if m = "SET_OSC_WAVE" then some (.setOscWave (waveCode w))
    else if m = "SET_LFO_WAVE" then some (.setLfoWave (waveCode w)) else Option.none
  | .shape s => if m = "SET_SINE_SHAPE" then some (.setSineShape (shapeCode s)) else Option.none
  | .count n => if m = "RENDER" ∧ n < 2 ^ 24 then some (.render (BitVec.ofNat 24 n)) else Option.none

/-- The word of a line; TICK is RENDER 1, a raw word is unchecked (R105). -/
def assemble : AsmLine → Option Word
  | .command m o => (asmInstr m o).map encode
  | .tick => some (encode (.render 1#24))
  | .word v => some v

/-- The lines of a host program (R104). RESET carries its draw of detune ratios, an input of that step (R291). -/
inductive HostLine where
  | engine (l : AsmLine)
  | control (l : AsmLine)
  | read (a : Addr)
  | reset (draw : List F32)
  | waitIdle
  deriving DecidableEq, Repr

/-- The action of a line; none where its command does not assemble. -/
def hostAction : HostLine → Option Action
  | .engine l => (assemble l).map .engine
  | .control l => (assemble l).map .control
  | .read a => some (.read a)
  | .reset draw => some (.reset draw)
  | .waitIdle => some .waitIdle

/-- A host program as a script. -/
def hostScript (p : List HostLine) : Option (List Action) := p.mapM hostAction

end Sys2Proof.Machine
end

