-- ==== Sys2Proof/Machine/Admitted.lean ====
section
/-!
DEFINITION. The admitted domain INV(S) of spec/10_state.md R49, whole and decidable, and the launch-state check
(spec/60_exceptions.md R266; log 14).
-/
namespace Sys2Proof.Machine

/-- x is a number in [lo, hi] by the comparisons of R13. -/
def between32 (lo hi x : F32) : Bool := le32 lo x && le32 x hi

/-- The invariants of one voice (R28, R29, R30): frequency finite and above 0, phase in [0, 1), ratio in its interval. -/
def voiceAdmitted (c : Config) (v : Voice) : Bool := pos32 v.freq && inUnit v.phase && inDetuneRange c v.detune

/-- INV(S) (R24 to R34, R49), R121 included. -/
def admitted (s : State) : Bool :=
  shapeOk s && s.table.all tableEntryOk && tableNear s.cfg.tableLog2 s.table
    && between32 s.cfg.baseFreqMin s.cfg.baseFreqMax s.baseFreq
    && s.oscWave != 3#2 && s.lfoWave != 3#2
    && decide (1 ≤ s.activeVoices.toNat) && decide (s.activeVoices.toNat ≤ s.cfg.maxVoices)
    && s.voices.all (voiceAdmitted s.cfg)
    && between32 lfoFreqMin s.cfg.lfoFreqMax s.lfoFreq && between32 depthMin depthMax s.lfoDepth
    && inUnit s.lfoPhase

/-- A launch state given to the model: BAD_STATE joins MFAULT unless the state is in INV (R49, R266). Log 14. -/
def launch (s : State) : State := if admitted s then s else addFaults onlyBadState s

end Sys2Proof.Machine
end

