-- ==== Sys2Proof/Safety.lean ====
section
/-!
DEFINITION. What claims call a safe state or a step of the spec: the closeness of the table to the sine on real numbers
(spec/40_phase_and_wavetable.md R121(a)), INV (spec/10_state.md R49), the invariant that every step keeps, and the step
relation of spec/20_memory.md R70.
-/
namespace Sys2Proof.Machine

/-- The real value of a finite binary32. -/
def realValue (x : F32) : ℚ := (units32 x : ℚ) / 2 ^ 149

/-- R121(a) on real numbers: every entry is within TABLE_TOL = 1e-5 of the sine of its angle. The machine's check of it is
`tableNear` (Laws/Sine.lean; log 13). -/
def tableNearSine (table : List F32) : Prop :=
  ∀ (i : Nat) (h : i < table.length),
    |((realValue table[i] : ℚ) : ℝ) - Real.sin (2 * Real.pi * (i : ℝ) / (table.length : ℝ))| ≤ 1 / 100000

/-- The admitted domain INV(S) (R49). -/
def INV (s : State) : Prop := admitted s = true

/-- A pair of PENDING holds a value that its field's invariant allows (spec/44_parameter_surface.md R239), for an
instance c. A VOICE_FREQ may drift by the rounding of shifts (R239 (d); log 22); its
write marks a value that is not positive (log 28). -/
def writeLegal (c : Config) : Write → Bool
  | .baseFreq v => between32 c.baseFreqMin c.baseFreqMax v
  | .oscWave v => v != 3#2
  | .sineShape _ => true
  | .activeVoices v => decide (1 ≤ v.toNat) && decide (v.toNat ≤ c.maxVoices)
  | .lfoFreq v => between32 lfoFreqMin c.lfoFreqMax v
  | .lfoDepth v => between32 depthMin depthMax v
  | .lfoWave v => v != 3#2
  | .errGroup => true
  | .voiceFreq k _ => decide (k < c.maxVoices)

/-- Every phase is in [0, 1) (R29, R33). -/
def phasesInUnit (s : State) : Bool := inUnit s.lfoPhase && s.voices.all (fun v => inUnit v.phase)

/-- The invariant of every step, for every instance and every interleaving: the block's lists have their sizes; TABLE is
the instance's; PENDING is in canonical form with legal values; every other parameter field is in its range
(R24, R25, R27, R31, R32, R34); every detune ratio is in its interval (R30); every VOICE_FREQ is finite and above 0 unless MFAULT
has BAD_STATE (R28, R239 (d)); and every phase is in [0, 1) unless MFAULT records that an advance left it (R126). -/
structure Invariant (s : State) : Prop where
  config : configOk s.cfg = true
  shape : shapeOk s = true
  table : s.table = s.cfg.tableValue
  pendingForm : pendingWf s.pending
  pendingLegal : s.pending.all (writeLegal s.cfg) = true
  baseFreq : between32 s.cfg.baseFreqMin s.cfg.baseFreqMax s.baseFreq = true
  oscWave : s.oscWave ≠ 3#2
  lfoWave : s.lfoWave ≠ 3#2
  voicesLow : 1 ≤ s.activeVoices.toNat
  voicesHigh : s.activeVoices.toNat ≤ s.cfg.maxVoices
  lfoFreq : between32 lfoFreqMin s.cfg.lfoFreqMax s.lfoFreq = true
  lfoDepth : between32 depthMin depthMax s.lfoDepth = true
  detune : s.voices.all (fun v => inDetuneRange s.cfg v.detune) = true
  freqs : s.voices.all (fun v => pos32 v.freq) = true ∨ s.mfault.badState = true
  phases : phasesInUnit s = true ∨ s.mfault.nonfinite = true ∨ s.mfault.phaseRange = true

/-- The six atomic steps of R70 between states of the block, each with its enabling condition; the host's script and
records are left as they are. -/
inductive AtomicStep : State → State → Prop where
  /-- (a), (b): a word is accepted on an idle port. -/
  | issue (p : Port) (w : Word) (s t : State) : portBusy p s = false → acceptWord p w s = .next t → AtomicStep s t
  /-- (c): an engine tick. -/
  | tick (s t : State) : engBusy s = true → frameTick s = .next t → AtomicStep s t
  /-- (d): the control agent performs any one pair. -/
  | write (i : Nat) (s : State) : ctrlBusy s = true → AtomicStep s (controlWrite i s)
  /-- (e): a readback read, which changes no state of the block. -/
  | read (s : State) : AtomicStep s s
  /-- (f): reset, with any draw. -/
  | reset (draw : List F32) (s t : State) : resetStep draw s = .next t → AtomicStep s t

/-- The state of the block alone: the model's own fields (logs 1, 2, 11) set aside. -/
def blockPart (s : State) : State := { s with script := [], reads := [], choices := 0 }

end Sys2Proof.Machine
end

