-- ==== Sys2Proof/Certificates/Slice0/Obligations.lean ====
section
/-!
DEFINITION. The statements for the provers. Each docstring names the rules of spec/ it formalises or rests on. A frame is
stated as an equation between whole states wherever the rules give the whole next state: every field that the right side
does not name is unchanged. The block has no byte memory (log 19); its readback space is a view of the state.
-/

open Sys2Proof Sys2Proof.Machine

/-! ## Encoding -/

/-- Decode and encode agree: the word of every well-formed command decodes, on every port the command belongs to, to that
command with its operand (R90, R93, R94, R102). -/
def Obligations.DecodeInvertsEncode : Prop :=
  ∀ (i : Instr) (p : Port), i.wellFormed = true → i.onPort p = true → decode p (encode i) = .ok i

/-- Each word has at most one meaning: a word that a port accepts is the encoding of the command it decodes to, and that
command is well formed and belongs to the port (R101, R102). -/
def Obligations.AcceptedWordsAreEncodings : Prop :=
  ∀ (p : Port) (w : Word) (i : Instr), decode p w = .ok i →
    i.wellFormed = true ∧ i.onPort p = true ∧ encode i = w

/-- The encoding examples of R106, all fifteen rows: the word of each source line, and what each word decodes to. A
line is taken as already split into its mnemonic and operand (log 26). -/
def Obligations.EncodingExamplesDecode : Prop :=
  assemble (.command "NOP" .none) = some 0x00000000#32 ∧ assemble (.command "LFO_FREQ_INC" .none) = some 0x01000000#32 ∧
  assemble (.command "LFO_DEPTH_DEC" .none) = some 0x04000000#32 ∧
  assemble (.command "BASE_FREQ_DEC" .none) = some 0x06000000#32 ∧
  assemble (.command "VOICES_INC" .none) = some 0x07000000#32 ∧
  assemble (.command "OSC_WAVE_NEXT" .none) = some 0x09000000#32 ∧
  assemble (.command "SET_OSC_WAVE" (.wave .sawtooth)) = some 0x0B000001#32 ∧
  assemble (.command "SET_LFO_WAVE" (.wave .square)) = some 0x0C000002#32 ∧
  assemble (.command "SET_SINE_SHAPE" (.shape .harmonicSine)) = some 0x0D000001#32 ∧
  assemble (.command "CLR_ERR" .none) = some 0x0E000000#32 ∧
  assemble (.command "RENDER" (.count 48000)) = some 0x8000BB80#32 ∧
  assemble (.command "RENDER" (.count 0)) = some 0x80000000#32 ∧
  decode .engine 0x00000000#32 = .ok .nop ∧ decode .control 0x00000000#32 = .ok .nop ∧
  decode .control 0x01000000#32 = .ok .lfoFreqInc ∧ decode .control 0x04000000#32 = .ok .lfoDepthDec ∧
  decode .control 0x06000000#32 = .ok .baseFreqDec ∧ decode .control 0x07000000#32 = .ok .voicesInc ∧
  decode .control 0x09000000#32 = .ok .oscWaveNext ∧ decode .control 0x0B000001#32 = .ok (.setOscWave 1#2) ∧
  decode .control 0x0C000002#32 = .ok (.setLfoWave 2#2) ∧ decode .control 0x0D000001#32 = .ok (.setSineShape 1#1) ∧
  decode .control 0x0E000000#32 = .ok .clrErr ∧ decode .engine 0x8000BB80#32 = .ok (.render 48000#24) ∧
  decode .engine 0x80000000#32 = .ok (.render 0#24) ∧ decode .control 0x0B000003#32 = .error .badWave ∧
  decode .control 0x01000001#32 = .error .reservedArg ∧ decode .control 0x7F000000#32 = .error .illegalOpcode ∧
  decode .engine 0x7F000000#32 = .error .illegalOpcode

/-- The cause of a rejection is the first failing check in the order ILLEGAL_OPCODE, WRONG_PORT, RESERVED_ARG, BAD_WAVE,
for every word on both ports (R263, conditions of R98 to R100 and R96). `opc` and `arg` are the word's two fields as
numbers. -/
def Obligations.RejectionCauseIsFirstFailingCheck : Prop :=
  ∀ (p : Port) (w : Word) (opc arg : Nat), w.toNat = opc * 2 ^ 24 + arg → arg < 2 ^ 24 →
    let defined := opc ≤ 0x0E ∨ opc = 0x80
    let wrong := (opc = 0x80 ∧ p = .control) ∨ (1 ≤ opc ∧ opc ≤ 0x0E ∧ p = .engine)
    let reserved := (opc ≤ 0x0A ∧ arg ≠ 0) ∨ ((opc = 0x0B ∨ opc = 0x0C) ∧ 4 ≤ arg) ∨ (opc = 0x0D ∧ 2 ≤ arg)
      ∨ (opc = 0x0E ∧ arg ≠ 0)
    (decode p w = .error .illegalOpcode ↔ ¬ defined) ∧
    (decode p w = .error .wrongPort ↔ defined ∧ wrong) ∧
    (decode p w = .error .reservedArg ↔ defined ∧ ¬ wrong ∧ reserved) ∧
    (decode p w = .error .badWave ↔ (opc = 0x0B ∨ opc = 0x0C) ∧ p = .control ∧ arg = 3) ∧
    ((∃ i, decode p w = .ok i) ↔
      defined ∧ ¬ wrong ∧ ¬ reserved ∧ ¬ ((opc = 0x0B ∨ opc = 0x0C) ∧ arg = 3))

/-! ## The step and the ports -/

/-- A step runs the decoded command: with a word next in the script on an idle port, and the word decoding to i, the step
is exec of i at the state without that action (R209, R220). -/
def Obligations.StepRunsDecodedCommand : Prop :=
  ∀ (s : State) (rest : List Action) (w : Word) (i : Instr),
    (s.script = .engine w :: rest → s.framesLeft = 0#24 → decode .engine w = .ok i →
      step s = exec i { s with script := rest }) ∧
    (s.script = .control w :: rest → s.pending = [] → decode .control w = .ok i →
      step s = exec i { s with script := rest })

/-- Recording a command error (R262), in the one step that takes the word: with ERR = 0 the error fields become ERR = 1,
the cause's code (R261), the port and the whole word, and ERR_OVF stays; with ERR = 1 only ERR_OVF changes, to 1. Nothing
else of the state changes (R260). -/
def Obligations.RejectedWordIsRecorded : Prop :=
  ∀ (s : State) (rest : List Action) (p : Port) (w : Word) (c : Cause),
    s.script = (match p with | .engine => .engine w | .control => .control w) :: rest →
    portBusy p s = false → decode p w = .error c →
    (s.error.err = false → step s = .next { s with
      script := rest
      error := { err := true, ovf := s.error.ovf, port := p, badCmd := w,
                 cause := match c with
                   | .illegalOpcode => 1#4 | .wrongPort => 2#4 | .reservedArg => 3#4 | .badWave => 4#4 } }) ∧
    (s.error.err = true → step s = .next { s with script := rest, error := { s.error with ovf := true } })

/-- A word offered to a busy port is held (R209, R220, R302: the issue step is not enabled). That it then stays the next
action of the script while the block makes a move of its own in that step, a tick or the write of one pending pair, is the
model's choice (log 3, and log 2 for which move). -/
def Obligations.BusyPortHoldsWord : Prop :=
  ∀ (s t : State) (rest : List Action) (p : Port) (w : Word),
    s.script = (match p with | .engine => .engine w | .control => .control w) :: rest →
    portBusy p s = true → step s = .next t →
    t.script = s.script ∧
    ((s.framesLeft ≠ 0#24 ∧ ∃ u, frameTick s = .next u ∧ blockPart t = blockPart u) ∨
      (s.pending ≠ [] ∧ ∃ i, blockPart t = blockPart (controlWrite i s)))

/-- Every step is one of the six atomic steps of R70 on the block's state, whatever the script (log 1) says; a step that
moves nothing counts as a read, which changes no state. -/
def Obligations.EveryStepIsAtomic : Prop :=
  ∀ (s t : State), step s = .next t → ∃ u, AtomicStep s u ∧ blockPart t = blockPart u

/-- Every atomic step of R70 is a step of the machine under some script action: any enabled step may come next. -/
def Obligations.EveryAtomicStepCanComeNext : Prop :=
  ∀ (s u : State), AtomicStep s u →
    ∃ (a : Action) (t : State), step { s with script := a :: s.script } = .next t ∧ blockPart t = blockPart u ∧
      t.script = s.script

/-- When FRAMES_LEFT = 0 and PENDING is empty and the host does nothing (an empty script, log 1), the block takes no step
and all state is kept (R277). -/
def Obligations.IdleBlockKeepsItsState : Prop :=
  ∀ (s : State), s.script = [] → s.framesLeft = 0#24 → s.pending = [] → step s = .next s

/-! ## The commands: completion, result and frame -/

/-- exec of NOP answers the same state: an accepted NOP changes nothing (R206). Where its port is busy the answer stands for
the held word, the model's reading (log 17); R206 has it complete only once earlier commands on its port have. -/
def Obligations.NopChangesNothing : Prop := ∀ (s : State), exec .nop s = .next s

/-- RENDER n on an idle engine port completes and sets FRAMES_LEFT to n, n = 0 included; nothing else changes; ENG_BUSY, bit
9 of STATUS, then reads 1 unless n = 0 (R205, R41). -/
def Obligations.RenderSetsFramesLeft : Prop :=
  ∀ (s t : State) (n : BitVec 24), s.framesLeft = 0#24 → t = { s with framesLeft := n } →
    exec (.render n) s = .next t ∧ (statusWord t).getLsbD 9 = decide (n ≠ 0#24)

/-- LFO_FREQ_INC and LFO_FREQ_DEC on an idle control port complete; PENDING becomes the one pair of R222, R223; nothing
else changes. -/
def Obligations.LfoFreqStepIsPending : Prop :=
  ∀ (s : State), s.pending = [] →
    exec .lfoFreqInc s = .next { s with
      pending := [.lfoFreq (clamp32 (add32 s.lfoFreq s.cfg.lfoFreqStep) 0x00000000#32 s.cfg.lfoFreqMax)] } ∧
    exec .lfoFreqDec s = .next { s with
      pending := [.lfoFreq (clamp32 (sub32 s.lfoFreq s.cfg.lfoFreqStep) 0x00000000#32 s.cfg.lfoFreqMax)] }

/-- LFO_DEPTH_INC and LFO_DEPTH_DEC on an idle control port complete; PENDING becomes the one pair of R224, R225, clamped
to [0.0, 2.0]; nothing else changes. -/
def Obligations.LfoDepthStepIsPending : Prop :=
  ∀ (s : State), s.pending = [] →
    exec .lfoDepthInc s = .next { s with
      pending := [.lfoDepth (clamp32 (add32 s.lfoDepth s.cfg.depthStep) 0x00000000#32 0x40000000#32)] } ∧
    exec .lfoDepthDec s = .next { s with
      pending := [.lfoDepth (clamp32 (sub32 s.lfoDepth s.cfg.depthStep) 0x00000000#32 0x40000000#32)] }

/-- OSC_WAVE_NEXT and LFO_WAVE_NEXT on an idle control port complete; the pending code is the next of Sine, Sawtooth,
Square, cyclically (R231, R232); nothing else changes. On a field that holds the code 3 the
model raises BAD_STATE at acceptance and makes (3 + 1) mod 3 = 1 pending: R231 and R266 name the fault and not the step, so
these two clauses are the model's reading (log 25). -/
def Obligations.WaveNextIsPending : Prop :=
  ∀ (s : State), s.pending = [] →
    (s.oscWave ≠ 3#2 → exec .oscWaveNext s = .next { s with
      pending := [.oscWave (if s.oscWave = 0#2 then 1#2 else if s.oscWave = 1#2 then 2#2 else 0#2)] }) ∧
    (s.lfoWave ≠ 3#2 → exec .lfoWaveNext s = .next { s with
      pending := [.lfoWave (if s.lfoWave = 0#2 then 1#2 else if s.lfoWave = 1#2 then 2#2 else 0#2)] }) ∧
    (s.oscWave = 3#2 → exec .oscWaveNext s = .next { s with
      pending := [.oscWave 1#2], mfault := { s.mfault with badState := true } }) ∧
    (s.lfoWave = 3#2 → exec .lfoWaveNext s = .next { s with
      pending := [.lfoWave 1#2], mfault := { s.mfault with badState := true } })

/-- SET_OSC_WAVE, SET_LFO_WAVE and SET_SINE_SHAPE on an idle control port complete; PENDING becomes the one pair with the
operand (R233, R234, R235); nothing else changes. -/
def Obligations.SetCommandsArePending : Prop :=
  ∀ (s : State) (w : BitVec 2) (v : BitVec 1), s.pending = [] →
    exec (.setOscWave w) s = .next { s with pending := [.oscWave w] } ∧
    exec (.setLfoWave w) s = .next { s with pending := [.lfoWave w] } ∧
    exec (.setSineShape v) s = .next { s with pending := [.sineShape v] }

/-- CLR_ERR on an idle control port completes: the clear is pending, the error fields are as before (R236). -/
def Obligations.ClrErrIsPending : Prop :=
  ∀ (s : State), s.pending = [] → exec .clrErr s = .next { s with pending := [.errGroup] }

/-- Base-frequency commands, whole: on an idle control port each is accepted, and once its 1 + MAX_VOICES pending pairs
are performed, in any order, BASE_FREQ is the clamped value and the frequency of every slot, active or not, is shifted by
the same delta; MFAULT has BAD_STATE if it had or if a shifted frequency is not finite and above 0 (that the write marks
it is the model's reading of R239 (d) and R266, log 28); phases, ratios and everything else are as before (R226, R227, R72). -/
def Obligations.BaseFreqCommandsEndState : Prop :=
  ∀ (s : State) (order : List Nat) (i : Instr) (new : F32), s.pending = [] → order.length = s.voices.length + 1 →
    ((i = .baseFreqInc ∧ new = clamp32 (add32 s.baseFreq s.cfg.baseFreqStep) s.cfg.baseFreqMin s.cfg.baseFreqMax) ∨
      (i = .baseFreqDec ∧ new = clamp32 (sub32 s.baseFreq s.cfg.baseFreqStep) s.cfg.baseFreqMin s.cfg.baseFreqMax)) →
    ∃ t, exec i s = .next t ∧ t = { s with pending := t.pending } ∧ t.pending.length = s.voices.length + 1 ∧
      order.foldl (fun u k => controlWrite k u) t = { s with
        baseFreq := new
        voices := s.voices.map (fun v => { v with freq := add32 v.freq (sub32 new s.baseFreq) })
        mfault := { s.mfault with
          badState := s.mfault.badState || s.voices.any (fun v => !pos32 (add32 v.freq (sub32 new s.baseFreq))) } }

/-- Voice-count commands, whole: on an idle control port each is accepted, and once its pending pairs are performed, in any
order, ACTIVE_VOICES is c' and the frequency of every slot below c' is re-derived from BASE_FREQ and its ratio; slots from
c' up, phases, ratios and everything else are as before (R228, R229, R230, R72); MFAULT has BAD_STATE if it had or if a
re-derived frequency is not finite and above 0 (that the write marks it is the model's reading, log 28). -/
def Obligations.VoiceCommandsEndState : Prop :=
  ∀ (s : State) (order : List Nat) (i : Instr) (c : Nat), s.pending = [] → s.voices.length = s.cfg.maxVoices →
    c ≤ s.cfg.maxVoices → order.length = c + 1 →
    ((i = .voicesInc ∧ c = min (s.activeVoices.toNat + 1) s.cfg.maxVoices) ∨
      (i = .voicesDec ∧ c = max (s.activeVoices.toNat - 1) 1)) →
    ∃ t, exec i s = .next t ∧ t = { s with pending := t.pending } ∧ t.pending.length = c + 1 ∧
      order.foldl (fun u k => controlWrite k u) t = { s with
        activeVoices := BitVec.ofNat 4 c
        voices := s.voices.mapIdx (fun k v => if k < c then { v with freq := mul32 s.baseFreq v.detune } else v)
        mfault := { s.mfault with
          badState := s.mfault.badState || (s.voices.take c).any (fun v => !pos32 (mul32 s.baseFreq v.detune)) } }

/-- One-field commands, whole: accepted on an idle control port, performed by the next ControlWrite whichever pair it asks
for; then exactly the one field (or, for CLR_ERR, the error group) has its new value (R220, R222 to R225, R231 to R236). -/
def Obligations.OneFieldCommandsEndState : Prop :=
  ∀ (s : State) (k : Nat) (w : BitVec 2) (v : BitVec 1), s.pending = [] → s.oscWave ≠ 3#2 → s.lfoWave ≠ 3#2 →
    let after (i : Instr) (u : State) := ∃ t, exec i s = .next t ∧ controlWrite k t = u
    after .lfoFreqInc { s with lfoFreq := clamp32 (add32 s.lfoFreq s.cfg.lfoFreqStep) 0x00000000#32 s.cfg.lfoFreqMax } ∧
    after .lfoFreqDec { s with lfoFreq := clamp32 (sub32 s.lfoFreq s.cfg.lfoFreqStep) 0x00000000#32 s.cfg.lfoFreqMax } ∧
    after .lfoDepthInc { s with lfoDepth := clamp32 (add32 s.lfoDepth s.cfg.depthStep) 0x00000000#32 0x40000000#32 } ∧
    after .lfoDepthDec { s with lfoDepth := clamp32 (sub32 s.lfoDepth s.cfg.depthStep) 0x00000000#32 0x40000000#32 } ∧
    after .oscWaveNext { s with oscWave := BitVec.ofNat 2 ((s.oscWave.toNat + 1) % 3) } ∧
    after .lfoWaveNext { s with lfoWave := BitVec.ofNat 2 ((s.lfoWave.toNat + 1) % 3) } ∧
    after (.setOscWave w) { s with oscWave := w } ∧
    after (.setLfoWave w) { s with lfoWave := w } ∧
    after (.setSineShape v) { s with sineShape := v } ∧
    after .clrErr { s with error := { err := false, ovf := false, port := .control, cause := 0#4, badCmd := 0#32 } }

/-- A command on its busy port does not take effect: nothing changes (R209, R220). The port's acceptance is the model's
reading of a held word at exec itself (log 17). -/
def Obligations.CommandOnBusyPortWaits : Prop :=
  ∀ (s : State) (i : Instr), (s.pending ≠ [] → i.onPort .control = true → exec i s = .next s) ∧
    (s.framesLeft ≠ 0#24 → i.onPort .engine = true → exec i s = .next s)

/-- The writes of a multi-field command may land in any order: with PENDING a set of n pairs of distinct fields, every
order of n ControlWrite steps leaves PENDING empty and the same state, the one that performs each pair once (R46, R72,
R74). -/
def Obligations.PendingWritesCommute : Prop :=
  ∀ (s : State) (order : List Nat), pendingWf s.pending → order.length = s.pending.length →
    order.foldl (fun u k => controlWrite k u) s
      = { s.pending.foldl (fun u w => performWrite w u) s with pending := [] }

/-! ## Numbers -/

/-- rnd32 and rnd64 of R13 on n / d units (d > 0): a finite result is at least as near as every other finite value, and is
an even pattern where another is just as near; the result is infinity exactly from half a last place above the greatest
finite value on. -/
def Obligations.RoundingIsNearestEven : Prop :=
  ∀ (f : Format) (n d : Nat), (f = binary32 ∨ f = binary64) → 0 < d →
    (∀ m : Nat, roundMag f n d < f.inf → m < f.inf →
      ((magUnits f (roundMag f n d) * d : Int) - n).natAbs ≤ ((magUnits f m * d : Int) - n).natAbs ∧
      (m ≠ roundMag f n d →
        ((magUnits f (roundMag f n d) * d : Int) - n).natAbs = ((magUnits f m * d : Int) - n).natAbs →
        roundMag f n d % 2 = 0)) ∧
    roundMag f n d ≤ f.inf ∧
    (roundMag f n d = f.inf ↔ (2 ^ (f.frac + 2) - 1) * 2 ^ (f.expTop - 2) * d ≤ 2 * n)

/-- The binary32 operations round exactly once (R13: add32, sub32, mul32, div32): on finite operands each is
the nearest-even rounding of the exact result, with the sign of the exact result, and an exact zero sum is +0.0. That
(-0.0) + (-0.0) and (-0.0) - (+0.0) are -0.0 is IEEE 754's and not in R13 (logs 10, 21); zero products and quotients, whose
sign is IEEE 754's too (log 10), are left out. Values are in units of 2^-149. -/
def Obligations.OperationsRoundOnce : Prop :=
  ∀ (a b : F32), isFinite32 a = true → isFinite32 b = true →
    (∀ e : Int, e = units32 a + units32 b → e ≠ 0 →
      add32 a b = pack32 (decide (e < 0), roundMag binary32 e.natAbs 1)) ∧
    (units32 a + units32 b = 0 → add32 a b = if a = 0x80000000#32 ∧ b = 0x80000000#32 then 0x80000000#32 else 0#32) ∧
    (∀ e : Int, e = units32 a - units32 b → e ≠ 0 →
      sub32 a b = pack32 (decide (e < 0), roundMag binary32 e.natAbs 1)) ∧
    (units32 a - units32 b = 0 → sub32 a b = if a = 0x80000000#32 ∧ b = 0#32 then 0x80000000#32 else 0#32) ∧
    (∀ e : Int, e = units32 a * units32 b → e ≠ 0 →
      mul32 a b = pack32 (decide (e < 0), roundMag binary32 e.natAbs (2 ^ 149))) ∧
    (units32 b ≠ 0 → ∀ e : Int, e = units32 a * units32 b → e ≠ 0 →
      div32 a b = pack32 (decide (e < 0), roundMag binary32 ((units32 a).natAbs * 2 ^ 149) (units32 b).natAbs))

/-- Comparisons are the real-number comparisons on finite values (R13). -/
def Obligations.ComparisonsAreReal : Prop :=
  ∀ (a b : F32), isFinite32 a = true → isFinite32 b = true →
    (lt32 a b = decide (units32 a < units32 b)) ∧ (le32 a b = decide (units32 a ≤ units32 b)) ∧
    (eq32 a b = decide (units32 a = units32 b))

/-- to64 widens exactly (R13): the binary64 has the same value, 2^925 units of 2^-1074 to each of 2^-149. -/
def Obligations.WideningIsExact : Prop :=
  ∀ (a : F32), isFinite32 a = true →
    isFiniteF binary64 (unpack64 (to64 a)) = true ∧ units binary64 (unpack64 (to64 a)) = units32 a * 2 ^ 925

/-- Clamp (R221): for a finite or infinite x and lo ≤ hi the result lies in [lo, hi], is lo below lo and hi above hi, and is
x itself inside. -/
def Obligations.ClampHoldsItsBounds : Prop :=
  ∀ (x lo hi : F32), isNaN32 x = false → le32 lo hi = true →
    le32 lo (clamp32 x lo hi) = true ∧ le32 (clamp32 x lo hi) hi = true ∧
    (lt32 x lo = true → clamp32 x lo hi = lo) ∧ (lt32 hi x = true → clamp32 x lo hi = hi) ∧
    (le32 lo x = true → le32 x hi = true → clamp32 x lo hi = x)

/-- Every value the step commands write to LFO_FREQ, LFO_DEPTH or BASE_FREQ lies within its bounds, for every well-formed
configuration and every finite field value (R238). -/
def Obligations.SteppedValuesStayInBounds : Prop :=
  ∀ (s : State), configOk s.cfg = true → isFinite32 s.lfoFreq = true → isFinite32 s.lfoDepth = true →
    isFinite32 s.baseFreq = true →
    between32 lfoFreqMin s.cfg.lfoFreqMax (lfoFreqUp s) = true ∧
    between32 lfoFreqMin s.cfg.lfoFreqMax (lfoFreqDown s) = true ∧
    between32 depthMin depthMax (lfoDepthUp s) = true ∧ between32 depthMin depthMax (lfoDepthDown s) = true ∧
    between32 s.cfg.baseFreqMin s.cfg.baseFreqMax (baseFreqUp s) = true ∧
    between32 s.cfg.baseFreqMin s.cfg.baseFreqMax (baseFreqDown s) = true

/-- LFO_FREQ_DEC never writes -0.0 (R223). -/
def Obligations.LfoFreqDecNeverNegativeZero : Prop :=
  ∀ (s : State), configOk s.cfg = true → isFinite32 s.lfoFreq = true → lfoFreqDown s ≠ 0x80000000#32

/-! ## Waveforms, phases and the mix -/

/-- Phase boundedness: a phase in [0, 1) advanced by a finite increment of magnitude below 1 is in [0, 1), with no model
fault (R127). -/
def Obligations.AdvanceKeepsUnitInterval : Prop :=
  ∀ (p inc : F32), inUnit p = true → isFinite32 inc = true → (units32 inc).natAbs < 2 ^ 149 →
    inUnit (advance p inc) = true ∧ advanceFaults p inc = noFaults

/-- Advance outside its assumption names the fault and still returns the value (R125, R126): NONFINITE exactly when the sum
is not finite, PHASE_RANGE exactly when the sum is finite and the returned phase is outside [0, 1), never BAD_STATE. Operands
that are not finite are IEEE 754's (log 10). -/
def Obligations.AdvanceFaultsAreExact : Prop :=
  ∀ (p inc : F32),
    ((advanceFaults p inc).nonfinite = true ↔ isFinite32 (add32 p inc) = false) ∧
    ((advanceFaults p inc).phaseRange = true ↔ isFinite32 (add32 p inc) = true ∧ inUnit (advance p inc) = false) ∧
    (advanceFaults p inc).badState = false ∧
    (isFinite32 (add32 p inc) = false → advance p inc = add32 p inc)

/-- A table index is always below N, for every phase pattern and harmonic (R124). -/
def Obligations.TableIndexInRange : Prop := ∀ (l : Nat) (p : F32) (h : Nat), tableIndex l p h < 2 ^ l

/-- TableIndex for h = 1 of a phase in [0, 1) is floor(phase × N), with no rounding (R123). -/
def Obligations.TableIndexIsFloor : Prop :=
  ∀ (l : Nat) (p : F32), inUnit p = true →
    (tableIndex l p 1 : Int) * 2 ^ 149 ≤ units32 p * 2 ^ l ∧
    units32 p * 2 ^ l < ((tableIndex l p 1 : Int) + 1) * 2 ^ 149

/-- Sample ranges (R132): Saw in [-1, 1) on phases in [0, 1); Square is -1.0 or +1.0; the sine lookups and the harmonic sine
of a table within [-1, 1] are within [-1, 1]; so is every raw sample of a wave code that spells a type, at a phase in
[0, 1); and so is the mix of 1 to 15 samples within [-1, 1]. -/
def Obligations.SamplesAndMixInRange : Prop :=
  (∀ p : F32, inUnit p = true → le32 negOne32 (saw p) = true ∧ lt32 (saw p) one32 = true) ∧
  (∀ p : F32, square p = negOne32 ∨ square p = one32) ∧
  (∀ (table : List F32) (l : Nat) (p : F32), table.length = 2 ^ l → table.all tableEntryOk = true →
    tableEntryOk (sineLookup table l p) = true ∧ tableEntryOk (harmonicSine table l p) = true) ∧
  (∀ (table : List F32) (l : Nat) (w : BitVec 2) (sh : BitVec 1) (p : F32), table.length = 2 ^ l →
    table.all tableEntryOk = true → w ≠ 3#2 → inUnit p = true → tableEntryOk (waveValue table l w sh p) = true) ∧
  (∀ raws : List F32, 1 ≤ raws.length → raws.length ≤ 15 → raws.all tableEntryOk = true →
    tableEntryOk (mixSamples raws raws.length) = true)

/-- Loudness normalisation (R176): the mix of c equal finite samples r, c in [1, 15], is r: the same pattern, but for
r = -0.0, whose mix is +0.0, equal to it as a number (log 21). -/
def Obligations.EqualSamplesMixToThemselves : Prop :=
  ∀ (r : F32) (c : Nat), isFinite32 r = true → 1 ≤ c → c ≤ 15 →
    mixSamples (List.replicate c r) c = if r = 0x80000000#32 then 0x00000000#32 else r

/-- Depth zero (R156): with LFO_DEPTH = 0.0 the multiplier is exactly 1.0 for every finite LFO value. -/
def Obligations.DepthZeroMultiplierIsOne : Prop :=
  ∀ (v d : F32), isFinite32 v = true → eq32 d 0x00000000#32 = true → lfoMultiplier v d = 0x3F800000#32

/-- Modulation range (R155): for v in [-1, 1] and depth d in [0, 2], m lies in [add32(1.0, -d), add32(1.0, d)]. -/
def Obligations.MultiplierInModulationRange : Prop :=
  ∀ (v d : F32), between32 negOne32 one32 v = true → between32 depthMin depthMax d = true →
    le32 (sub32 one32 d) (lfoMultiplier v d) = true ∧ le32 (lfoMultiplier v d) (add32 one32 d) = true

/-- The LFO increment is in [0, 1) for every frequency in its bounds, and the LFO's advance then keeps the phase in [0, 1)
with no model fault (R152, R153). -/
def Obligations.LfoPhaseStaysBounded : Prop :=
  ∀ (c : Config) (freq p : F32), configOk c = true → between32 lfoFreqMin c.lfoFreqMax freq = true → inUnit p = true →
    inUnit (div32 freq c.sampleRate) = true ∧ inUnit (advance p (div32 freq c.sampleRate)) = true ∧
    advanceFaults p (div32 freq c.sampleRate) = noFaults

/-- One shift of a voice frequency rounds by at most half an ulp of a value below 1024, 2^-15 (R239 (d)); in units of
2^-149, 2^134. -/
def Obligations.ShiftRoundsAtMostHalfUlp : Prop :=
  ∀ (f d : F32), isFinite32 f = true → isFinite32 d = true → (units32 f + units32 d).natAbs < 1024 * 2 ^ 149 →
    (units32 (add32 f d) - (units32 f + units32 d)).natAbs ≤ 2 ^ 134

/-! ## The frame tick -/

/-- FrameTick (R200, R201, R171, R172, R174): from a state with ACTIVE_VOICES = c in [1, MAX_VOICES], with v the LFO value at
the old LFO phase and m = add32(1.0, mul32(v, depth)), the tick completes; LFO_PHASE and every active phase advance by
their own increments; the frame is the mix of the samples at the old phases, on both channels; one frame fewer is left;
MFAULT gains NONFINITE and PHASE_RANGE where the LFO's or an active voice's advance raises them (R126; AdvanceFaultsAreExact
says when), and BAD_STATE where either wave code is 3 (R130, R266); and nothing else changes. -/
def Obligations.FrameTickResult : Prop :=
  ∀ (s : State), shapeOk s = true → 1 ≤ s.activeVoices.toNat → s.activeVoices.toNat ≤ s.cfg.maxVoices →
    let c := s.activeVoices.toNat
    let v := waveValue s.table s.cfg.tableLog2 s.lfoWave 0#1 s.lfoPhase
    let m := add32 one32 (mul32 v s.lfoDepth)
    let inc (x : Voice) := div32 (mul32 x.freq m) s.cfg.sampleRate
    let raw (x : Voice) := waveValue s.table s.cfg.tableLog2 s.oscWave s.sineShape x.phase
    let x := mixSamples ((s.voices.take c).map raw) c
    let lfo := advanceFaults s.lfoPhase (div32 s.lfoFreq s.cfg.sampleRate)
    let voice (y : Voice) := advanceFaults y.phase (inc y)
    frameTick s = .next { s with
      lfoPhase := advance s.lfoPhase (div32 s.lfoFreq s.cfg.sampleRate)
      voices := s.voices.mapIdx (fun k y => if k < c then { y with phase := advance y.phase (inc y) } else y)
      out := s.out ++ [{ left := x, right := x }]
      framesLeft := s.framesLeft - 1#24
      mfault := {
        nonfinite := s.mfault.nonfinite || lfo.nonfinite || (s.voices.take c).any (fun y => (voice y).nonfinite)
        phaseRange := s.mfault.phaseRange || lfo.phaseRange || (s.voices.take c).any (fun y => (voice y).phaseRange)
        badState := s.mfault.badState || s.lfoWave == 3#2 || s.oscWave == 3#2 } }

/-- A voice count outside [1, MAX_VOICES] makes the tick BAD_STATE (R177): the sample is +0.0 as R170's first line returns
it (log 16), no voice moves, and the LFO has advanced. -/
def Obligations.TickWithBadVoiceCount : Prop :=
  ∀ (s : State), shapeOk s = true → (s.activeVoices.toNat < 1 ∨ s.cfg.maxVoices < s.activeVoices.toNat) →
    ∃ t, frameTick s = .next t ∧ t.mfault.badState = true ∧ t.voices = s.voices ∧
      t.out = s.out ++ [{ left := 0x00000000#32, right := 0x00000000#32 }] ∧ t.framesLeft = s.framesLeft - 1#24 ∧
      t.lfoPhase = advance s.lfoPhase (div32 s.lfoFreq s.cfg.sampleRate)

/-- What a tick reads (R24, R175): two states that agree on the instance, TABLE, the LFO fields, OSC_WAVE, SINE_SHAPE,
ACTIVE_VOICES and the frequency and phase of every active slot emit the same frame and agree afterwards on LFO_PHASE and
the active phases, whatever BASE_FREQ, the ratios, the inactive slots, PENDING, the error fields and OUT hold. -/
def Obligations.TickReadsOnlyItsFields : Prop :=
  ∀ (s u t t' : State), frameTick s = .next t → frameTick u = .next t' →
    s.cfg = u.cfg → s.table = u.table → s.lfoFreq = u.lfoFreq → s.lfoDepth = u.lfoDepth → s.lfoPhase = u.lfoPhase →
    s.lfoWave = u.lfoWave → s.oscWave = u.oscWave → s.sineShape = u.sineShape → s.activeVoices = u.activeVoices →
    (s.voices.take s.activeVoices.toNat).map (fun x => (x.freq, x.phase))
      = (u.voices.take u.activeVoices.toNat).map (fun x => (x.freq, x.phase)) →
    t.out.getLast? = t'.out.getLast? ∧ t.lfoPhase = t'.lfoPhase ∧
    (t.voices.take s.activeVoices.toNat).map (fun x => (x.freq, x.phase))
      = (t'.voices.take u.activeVoices.toNat).map (fun x => (x.freq, x.phase))

/-- The tick is total and raises no model fault (R203): from a state of the invariant whose phases are in [0, 1) and whose
active voices' frequencies are positive and below the bound of R10 (d) with the deepest modulation, the tick completes,
MFAULT is as before, and every phase is again in [0, 1). The frequency bound is a premise because R49's INV does not bound
VOICE_FREQ above (log 22). -/
def Obligations.TickRaisesNoFault : Prop :=
  ∀ (s : State), Invariant s → phasesInUnit s = true →
    (∀ x ∈ s.voices.take s.activeVoices.toNat, isFinite32 x.freq = true ∧ 0 < units32 x.freq ∧
      2 * (3 * units32 x.freq) ≤ units32 s.cfg.sampleRate) →
    ∃ t, frameTick s = .next t ∧ t.mfault = s.mfault ∧ phasesInUnit t = true

/-- RENDER n takes exactly n engine steps (R205, R208): accepted in an idle state of the block, with the host doing nothing
more, n steps of the machine emit n frames after those already in OUT, FRAMES_LEFT is 0, and no parameter, ratio, table
entry or error field has changed. -/
def Obligations.RenderEmitsExactlyItsFrames : Prop :=
  ∀ (s : State) (n : BitVec 24), shapeOk s = true → s.framesLeft = 0#24 → s.pending = [] → s.script = [] →
    ∃ u t, exec (.render n) s = .next u ∧ Sys2Proof.core.run n.toNat u = .next t ∧ t.framesLeft = 0#24 ∧
      (∃ frames : List Frame, frames.length = n.toNat ∧ (∀ f ∈ frames, f.left = f.right) ∧ t.out = s.out ++ frames) ∧
      t = { s with lfoPhase := t.lfoPhase, voices := t.voices, out := t.out, mfault := t.mfault } ∧
      t.voices.map (fun x => (x.freq, x.detune)) = s.voices.map (fun x => (x.freq, x.detune))

/-! ## Whole-machine rules -/

/-- The invariant holds after the power-on reset. -/
def Obligations.ResetSatisfiesInvariant : Prop := Invariant State.reset

/-- Every step keeps the invariant, for every instance, every script and every free choice. Its clause on VOICE_FREQ, above
0 unless MFAULT has BAD_STATE, rests on the model's mark at the write (logs 22, 28). -/
def Obligations.StepKeepsInvariant : Prop := ∀ (s t : State), Invariant s → step s = .next t → Invariant t

/-- From a state of the invariant the machine never faults, and refuses nothing; and while MFAULT is empty such a state is
in INV (R49; logs 22, 28), its table within 1e-5 of the sine on real numbers (R121(a)). -/
def Obligations.InvariantStatesAlwaysStep : Prop :=
  ∀ (s : State), Invariant s → (∃ t, step s = .next t) ∧ (s.mfault = noFaults → INV s ∧ tableNearSine s.table)

/-- Once a name is in MFAULT it stays there: no command and no reset removes it (R267). -/
def Obligations.ModelFaultsOnlyGrow : Prop :=
  ∀ (s t : State), step s = .next t → s.mfault.subset t.mfault = true

/-- OUT only grows, by one frame with equal channels at a tick, and nothing else changes it, reset included: a step keeps
OUT, or it is no reset and the block's state after it is the one FrameTick gives (R47, R204). -/
def Obligations.OutGrowsOnlyByTicks : Prop :=
  ∀ (s t : State), step s = .next t →
    t.out = s.out ∨
    (s.framesLeft ≠ 0#24 ∧ (∀ draw rest, s.script ≠ .reset draw :: rest) ∧
      (∃ u, frameTick s = .next u ∧ blockPart t = blockPart u) ∧ t.framesLeft = s.framesLeft - 1#24 ∧
      ∃ x, t.out = s.out ++ [{ left := x, right := x }])

/-- The writer table (R51): in a step that is not a reset, TABLE, every DETUNE[k] and the instance stay; if the step emits
no frame, every phase stays; if it emits one, every parameter field, PENDING and the error fields stay. -/
def Obligations.FieldsHaveTheirWriters : Prop :=
  ∀ (s t : State), step s = .next t → (∀ draw rest, s.script ≠ .reset draw :: rest) →
    t.cfg = s.cfg ∧ t.table = s.table ∧ t.voices.map (·.detune) = s.voices.map (·.detune) ∧
    (t.out = s.out → t.lfoPhase = s.lfoPhase ∧ t.voices.map (·.phase) = s.voices.map (·.phase)) ∧
    (t.out ≠ s.out → t.baseFreq = s.baseFreq ∧ t.oscWave = s.oscWave ∧ t.sineShape = s.sineShape ∧
      t.activeVoices = s.activeVoices ∧ t.voices.map (·.freq) = s.voices.map (·.freq) ∧ t.lfoFreq = s.lfoFreq ∧
      t.lfoDepth = s.lfoDepth ∧ t.lfoWave = s.lfoWave ∧ t.pending = s.pending ∧ t.error = s.error)

/-- The three writers of the error fields (R51, R265): after a step they are as before, or cleared whole (CLR_ERR's write or
reset), or they record, as R262 says, the rejected word that stood at the head of the script for its idle port. -/
def Obligations.ErrorFieldsHaveThreeWriters : Prop :=
  ∀ (s t : State), step s = .next t →
    t.error = s.error ∨
    (t.error = { err := false, ovf := false, port := .control, cause := 0#4, badCmd := 0#32 } ∧
      (.errGroup ∈ s.pending ∨ ∃ draw rest, s.script = .reset draw :: rest)) ∨
    (∃ p w c rest, s.script = (match p with | .engine => .engine w | .control => .control w) :: rest ∧
      decode p w = .error c ∧ portBusy p s = false ∧ t.error = recordError s.error p c w)

/-! ## Reset -/

/-- The reset step (R291, R292, values of R56): every field of the block has its reset value, the RENDER in progress and the
pending writes are discarded, OUT and MFAULT are not changed; the draw d of a slot is its DETUNE, and mul32(240.0, d) its
VOICE_FREQ, where d lies in its interval. -/
def Obligations.ResetStepValues : Prop :=
  ∀ (s : State) (draw : List F32) (rest : List Action), s.script = .reset draw :: rest → configOk s.cfg = true →
    draw.length = s.cfg.maxVoices → (∀ d ∈ draw, inDetuneRange s.cfg d = true) →
    step s = .next { s with
      script := rest
      table := s.cfg.tableValue
      baseFreq := 0x43700000#32
      activeVoices := 3#4
      oscWave := 0#2
      sineShape := 0#1
      lfoWave := 1#2
      lfoDepth := 0x3E4CCCCD#32
      lfoFreq := 0x41200000#32
      lfoPhase := 0x00000000#32
      voices := draw.map (fun d => { freq := mul32 0x43700000#32 d, phase := 0x00000000#32, detune := d })
      error := { err := false, ovf := false, port := .control, cause := 0#4, badCmd := 0#32 }
      framesLeft := 0#24
      pending := [] }

/-- The reset of an instance with an ill-formed configuration (R9 ranges, R10, R121) is refused. R10 says that a model should
refuse it and not at which step: the reset step is the model's reading (log 5; R121(a) as decided by log 13). -/
def Obligations.IllFormedInstanceIsRefused : Prop :=
  ∀ (s : State) (draw : List F32) (rest : List Action), s.script = .reset draw :: rest → configOk s.cfg = false →
    step s = .refused .illFormedConfig

/-- The state after reset satisfies INV, whatever the draw, provided the configuration is well formed, its table within
1e-5 of the sine on real numbers (R121(a)); in particular every phase is +0.0, ACTIVE_VOICES = 3 ≤ MAX_VOICES and every
VOICE_FREQ is above 0; and an instance with MAX_VOICES below 3 is ill formed (R295). -/
def Obligations.ResetStateIsAdmitted : Prop :=
  (∀ (s t : State) (draw : List F32), configOk s.cfg = true → t = applyReset draw s →
    INV t ∧ tableNearSine t.table ∧ t.lfoPhase = 0x00000000#32 ∧ t.activeVoices = 3#4 ∧ 3 ≤ t.cfg.maxVoices ∧
    (∀ v ∈ t.voices, v.phase = 0x00000000#32 ∧ isFinite32 v.freq = true ∧ 0 < units32 v.freq)) ∧
  (∀ c : Config, c.maxVoices < 3 → configOk c = false)

/-- The power-on state: R56's values, OUT, MFAULT and PENDING empty, on an instance with the decided values of R9. -/
def Obligations.PowerOnResetValues : Prop :=
  State.reset.baseFreq = 0x43700000#32 ∧ State.reset.activeVoices = 3#4 ∧ State.reset.oscWave = 0#2 ∧
  State.reset.sineShape = 0#1 ∧ State.reset.lfoWave = 1#2 ∧ State.reset.lfoDepth = 0x3E4CCCCD#32 ∧
  State.reset.lfoFreq = 0x41200000#32 ∧ State.reset.lfoPhase = 0#32 ∧ statusWord State.reset = 0#32 ∧
  State.reset.error.badCmd = 0#32 ∧ State.reset.framesLeft = 0#24 ∧ State.reset.pending = [] ∧
  State.reset.out = [] ∧ State.reset.mfault = noFaults ∧ State.reset.table = State.reset.cfg.tableValue ∧
  State.reset.voices.length = 5 ∧
  (∀ v ∈ State.reset.voices, inDetuneRange State.reset.cfg v.detune = true ∧
    v.freq = mul32 0x43700000#32 v.detune ∧ v.phase = 0#32) ∧
  configOk State.reset.cfg = true ∧ State.reset.cfg.sampleRate = 0x473B8000#32 ∧ State.reset.cfg.maxVoices = 5 ∧
  State.reset.cfg.baseFreqMin = 0x42480000#32 ∧ State.reset.cfg.baseFreqMax = 0x44160000#32

/-! ## Readback -/

/-- A readback read is one step that changes nothing of the block; the host gets the word MemRead gives, 0x00000000 at a
misaligned address (R61, R68). -/
def Obligations.ReadChangesNothing : Prop :=
  ∀ (s : State) (a : Addr) (rest : List Action), s.script = .read a :: rest →
    step s = .next { s with script := rest, reads := s.reads ++ [(a, memRead s a)] } ∧
    (a.toNat % 4 ≠ 0 → memRead s a = 0x00000000#32)

/-- The readback map (R61, R63, R64, R65, R68, R69), for an instance of R9's sizes and a state of its shape: the registers,
the voice window of 15 slots, the table window, and 0 at every misaligned or other address. -/
def Obligations.ReadbackMap : Prop :=
  ∀ (s : State), shapeOk s = true → s.cfg.tableLog2 ≤ 16 → s.cfg.maxVoices ≤ 15 →
    memRead s 0x00000#20 = statusWord s ∧ memRead s 0x00004#20 = s.error.badCmd ∧
    memRead s 0x00008#20 = configWord s.cfg ∧ memRead s 0x0000C#20 = s.cfg.sampleRate ∧
    memRead s 0x00010#20 = s.baseFreq ∧ memRead s 0x00014#20 = oscCtrlWord s ∧
    memRead s 0x00018#20 = s.lfoFreq ∧ memRead s 0x0001C#20 = s.lfoDepth ∧
    memRead s 0x00020#20 = s.lfoPhase ∧ memRead s 0x00024#20 = lfoCtrlWord s ∧
    (∀ (k : Nat) (h : k < s.voices.length),
      memRead s (BitVec.ofNat 20 (0x40 + 16 * k)) = s.voices[k].freq ∧
      memRead s (BitVec.ofNat 20 (0x44 + 16 * k)) = s.voices[k].phase ∧
      memRead s (BitVec.ofNat 20 (0x48 + 16 * k)) = s.voices[k].detune) ∧
    (∀ (i : Nat) (h : i < s.table.length), memRead s (BitVec.ofNat 20 (0x1000 + 4 * i)) = s.table[i]) ∧
    (∀ a : Addr, a.toNat % 4 ≠ 0 → memRead s a = 0#32) ∧
    (∀ a : Addr, 0x28 ≤ a.toNat → a.toNat < 0x40 → memRead s a = 0#32) ∧
    (∀ a : Addr, 0x40 + 16 * s.cfg.maxVoices ≤ a.toNat → a.toNat < 0x1000 → memRead s a = 0#32) ∧
    (∀ a : Addr, 0x40 ≤ a.toNat → a.toNat < 0x140 → a.toNat % 16 = 12 → memRead s a = 0#32) ∧
    (∀ a : Addr, 0x1000 + 4 * s.table.length ≤ a.toNat → memRead s a = 0#32)

/-- STATUS bit by bit (R35): 0 ERR, 1 ERR_OVF, 2 ERR_PORT (1 engine), 7:4 ERR_CAUSE, 8 CTRL_BUSY (1 exactly while PENDING is
non-empty, R40), 9 ENG_BUSY (1 exactly while FRAMES_LEFT > 0, R41), every other bit 0. -/
def Obligations.StatusBits : Prop :=
  ∀ (s : State),
    (statusWord s).getLsbD 0 = s.error.err ∧ (statusWord s).getLsbD 1 = s.error.ovf ∧
    ((statusWord s).getLsbD 2 = true ↔ s.error.port = .engine) ∧ (statusWord s).getLsbD 3 = false ∧
    (statusWord s).extractLsb' 4 4 = s.error.cause ∧
    ((statusWord s).getLsbD 8 = true ↔ s.pending ≠ []) ∧
    ((statusWord s).getLsbD 9 = true ↔ 0 < s.framesLeft.toNat) ∧
    (∀ i, 10 ≤ i → (statusWord s).getLsbD i = false)

/-- OSC_CTRL, LFO_CTRL (R63) and CONFIG (R43) by their fields; every other bit is 0. -/
def Obligations.ControlWordFields : Prop :=
  ∀ (s : State), s.cfg.tableLog2 ≤ 16 → s.cfg.maxVoices ≤ 15 →
    (oscCtrlWord s).toNat = s.oscWave.toNat + 16 * s.sineShape.toNat + 256 * s.activeVoices.toNat ∧
    (lfoCtrlWord s).toNat = s.lfoWave.toNat ∧
    (configWord s.cfg).toNat = s.cfg.tableLog2 + 256 * s.cfg.maxVoices

/-- A rejected word and its return (R265): after a rejected word on the control port, a CLR_ERR and its write, the error
fields and BAD_CMD are 0 and everything else is as before the rejection. -/
def Obligations.ClrErrReturnsFromError : Prop :=
  ∀ (s : State) (rest : List Action) (w : Word) (c : Cause) (k : Nat), s.pending = [] →
    decode .control w = .error c →
    s.script = .control w :: .control 0x0E000000#32 :: .write k :: rest →
    Sys2Proof.core.run 3 s = .next { s with
      script := rest
      error := { err := false, ovf := false, port := .control, cause := 0#4, badCmd := 0#32 } }
end

