-- ==== Sys2Proof/Laws/Float.lean ====
section
/-!
SUPPORT. Rounding in `roundMag` (spec/00_scope.md R13), once: magnitude patterns are ordered as their values, the pattern
before the limit at infinity is a nearest one, and rounding is therefore monotone and exact on the format's values.
-/
namespace Sys2Proof.Machine

/-- A quotient of exponent field k + 1 (or k = 0 and a subnormal) and significand r up to the next power of two. -/
theorem magUnits_add (f : Format) (k r : Nat) (hr : r ≤ 2 * 2 ^ f.frac) (hk : k = 0 ∨ 2 ^ f.frac ≤ r) :
    magUnits f (k * 2 ^ f.frac + r) = r * 2 ^ k := by
  unfold magUnits
  generalize hF : 2 ^ f.frac = F at *
  have hF0 : 0 < F := by rw [← hF]; positivity
  by_cases h1 : r < F
  · obtain rfl : k = 0 := by omega
    simp [Nat.div_eq_of_lt h1]
  · obtain rfl | h2 : r = 2 * F ∨ r < 2 * F := by omega
    · have e : k * F + 2 * F = (k + 2) * F := by ring
      rw [e, Nat.mul_div_cancel _ hF0, Nat.mul_mod_left]
      simp only [Nat.add_eq_zero_iff, OfNat.ofNat_ne_zero, and_false, if_false, Nat.add_zero]
      rw [show k + 2 - 1 = k + 1 by omega, pow_succ]
      ring
    · have e : k * F + r = (k + 1) * F + (r - F) := by rw [Nat.add_mul]; omega
      have e2 : ((k + 1) * F + (r - F)) / F = k + 1 := by
        rw [Nat.mul_comm, Nat.mul_add_div hF0, Nat.div_eq_of_lt (by omega), Nat.add_zero]
      have e3 : ((k + 1) * F + (r - F)) % F = r - F := by
        rw [Nat.mul_comm, Nat.mul_add_mod, Nat.mod_eq_of_lt (by omega)]
      rw [e, e2, e3]
      simp only [Nat.add_eq_zero_iff, one_ne_zero, and_false, if_false, Nat.add_sub_cancel]
      rw [show F + (r - F) = r by omega]

theorem magUnits_small (f : Format) {m : Nat} (h : m < 2 ^ f.frac) : magUnits f m = m := by
  simp [magUnits, Nat.div_eq_of_lt h]

@[simp] theorem magUnits_zero (f : Format) : magUnits f 0 = 0 := magUnits_small f (by positivity)

/-- Every pattern as exponent and significand. -/
theorem exists_magUnits (f : Format) (m : Nat) :
    ∃ k r, m = k * 2 ^ f.frac + r ∧ r < 2 * 2 ^ f.frac ∧ (k = 0 ∨ 2 ^ f.frac ≤ r) ∧ magUnits f m = r * 2 ^ k := by
  have hF0 : 0 < 2 ^ f.frac := by positivity
  have hd := Nat.div_add_mod m (2 ^ f.frac)
  have hm := Nat.mod_lt m hF0
  obtain h | ⟨e, he⟩ : m / 2 ^ f.frac = 0 ∨ ∃ e, m / 2 ^ f.frac = e + 1 := by
    cases h : m / 2 ^ f.frac with
    | zero => exact .inl rfl
    | succ e => exact .inr ⟨e, rfl⟩
  · refine ⟨0, m, by simp, ?_, .inl rfl, ?_⟩
    · rw [h] at hd; omega
    · simp [magUnits, h]
  · refine ⟨e, 2 ^ f.frac + m % 2 ^ f.frac, ?_, by omega, .inr (by omega), ?_⟩
    · rw [he] at hd
      calc m = 2 ^ f.frac * (e + 1) + m % 2 ^ f.frac := hd.symm
        _ = _ := by ring
    · simp [magUnits, he]

theorem magUnits_lt_succ (f : Format) (m : Nat) : magUnits f m < magUnits f (m + 1) := by
  obtain ⟨k, r, hm, hr, hk, hu⟩ := exists_magUnits f m
  have h2 : magUnits f (m + 1) = (r + 1) * 2 ^ k := by
    rw [hm, Nat.add_assoc]
    exact magUnits_add f k (r + 1) (by omega) (by omega)
  rw [hu, h2]
  exact Nat.mul_lt_mul_of_pos_right (Nat.lt_succ_self r) (by positivity)

/-- Magnitude patterns are ordered as their values. -/
theorem magUnits_strictMono (f : Format) : StrictMono (magUnits f) := strictMono_nat_of_lt_succ (magUnits_lt_succ f)

theorem magUnits_lt_iff (f : Format) {a b : Nat} : magUnits f a < magUnits f b ↔ a < b := (magUnits_strictMono f).lt_iff_lt
theorem magUnits_le_iff (f : Format) {a b : Nat} : magUnits f a ≤ magUnits f b ↔ a ≤ b := (magUnits_strictMono f).le_iff_le
theorem magUnits_inj (f : Format) {a b : Nat} : magUnits f a = magUnits f b ↔ a = b := (magUnits_strictMono f).injective.eq_iff
@[simp] theorem magUnits_eq_zero (f : Format) {a : Nat} : magUnits f a = 0 ↔ a = 0 := by
  rw [← magUnits_zero f, magUnits_inj]; simp

/-! Rounding to an integer. -/

theorem roundHalfEven_bounds (n d : Nat) (hd : 0 < d) :
    2 * (roundHalfEven n d * d) ≤ 2 * n + d ∧ 2 * n ≤ 2 * (roundHalfEven n d * d) + d := by
  have h := Nat.div_add_mod n d
  have hm := Nat.mod_lt n hd
  have hc : n / d * d = d * (n / d) := Nat.mul_comm _ _
  unfold roundHalfEven
  split
  · omega
  · split
    · rw [Nat.add_mul]; omega
    · have hp : n / d % 2 = 0 ∨ n / d % 2 = 1 := by omega
      rcases hp with hp | hp <;> rw [hp] <;> (try rw [Nat.add_mul]) <;> omega

/-- On a tie the result is even. -/
theorem roundHalfEven_tie (n d : Nat) (h : 2 * n = 2 * (roundHalfEven n d * d) + d ∨
    2 * (roundHalfEven n d * d) = 2 * n + d) (hd : 0 < d) : roundHalfEven n d % 2 = 0 := by
  have hdm := Nat.div_add_mod n d
  have hm := Nat.mod_lt n hd
  have hc : n / d * d = d * (n / d) := Nat.mul_comm _ _
  unfold roundHalfEven at h ⊢
  split
  · rename_i h1; simp only [h1, if_true] at h; omega
  · rename_i h1
    split
    · rename_i h2; simp only [h1, h2, if_true, if_false, Nat.add_mul] at h; omega
    · omega

theorem roundHalfEven_ge (n d x : Nat) (h : x * d ≤ n) (hd : 0 < d) : x ≤ roundHalfEven n d := by
  have hx : x ≤ n / d := (Nat.le_div_iff_mul_le hd).mpr h
  unfold roundHalfEven
  split
  · exact hx
  · split <;> omega

theorem roundHalfEven_le (n d x : Nat) (h : n ≤ x * d) (hd : 0 < d) : roundHalfEven n d ≤ x := by
  have hb := (roundHalfEven_bounds n d hd).1
  by_contra hc
  have h1 : (x + 1) * d ≤ roundHalfEven n d * d := Nat.mul_le_mul_right d (by omega)
  rw [Nat.add_mul] at h1
  omega

@[simp] theorem roundHalfEven_mul (x d : Nat) (hd : 0 < d) : roundHalfEven (x * d) d = x :=
  Nat.le_antisymm (roundHalfEven_le _ _ _ le_rfl hd) (roundHalfEven_ge _ _ _ le_rfl hd)

/-! Rounding to a format. -/

/-- The exponent `roundMag` rounds at. -/
def roundExp (f : Format) (n d : Nat) : Nat := Nat.log2 (n / d) - f.frac

/-- The significand `roundMag` rounds to. -/
def roundSig (f : Format) (n d : Nat) : Nat := roundHalfEven n (d * 2 ^ roundExp f n d)

/-- `roundMag` before its limit at infinity. -/
def roundRaw (f : Format) (n d : Nat) : Nat := roundExp f n d * 2 ^ f.frac + roundSig f n d

theorem roundMag_eq (f : Format) (n d : Nat) : roundMag f n d = min (roundRaw f n d) f.inf := rfl

theorem roundMag_le_inf (f : Format) (n d : Nat) : roundMag f n d ≤ f.inf := Nat.min_le_right _ _

/-- At the chosen exponent the quotient has at most one bit more than the fraction, and no fewer above the subnormals. -/
theorem roundExp_bounds (f : Format) (n d : Nat) (hd : 0 < d) :
    n < 2 * 2 ^ f.frac * (d * 2 ^ roundExp f n d) ∧
    (roundExp f n d = 0 ∨ 2 ^ f.frac * (d * 2 ^ roundExp f n d) ≤ n) := by
  have hq : n < (n / d + 1) * d := by
    have h1 := Nat.div_add_mod n d
    have h2 := Nat.mod_lt n hd
    rw [Nat.add_mul, Nat.mul_comm (n / d) d]; omega
  have hlog : n / d < 2 ^ (Nat.log2 (n / d) + 1) := Nat.lt_log2_self
  have hle : Nat.log2 (n / d) + 1 ≤ f.frac + 1 + roundExp f n d := by unfold roundExp; omega
  constructor
  · have h1 : n / d + 1 ≤ 2 ^ (f.frac + 1 + roundExp f n d) :=
      Nat.lt_of_lt_of_le hlog (Nat.pow_le_pow_right (by decide) hle)
    calc n < (n / d + 1) * d := hq
      _ ≤ 2 ^ (f.frac + 1 + roundExp f n d) * d := Nat.mul_le_mul_right d h1
      _ = _ := by rw [pow_add, pow_succ]; ring
  · by_cases h0 : roundExp f n d = 0
    · exact .inl h0
    · right
      have hne : n / d ≠ 0 := by
        intro h; apply h0; unfold roundExp; rw [h]; simp
      have h1 : 2 ^ (f.frac + roundExp f n d) ≤ n / d := by
        have : f.frac + roundExp f n d = Nat.log2 (n / d) := by unfold roundExp at h0 ⊢; omega
        rw [this]
        exact Nat.log2_self_le hne
      calc 2 ^ f.frac * (d * 2 ^ roundExp f n d) = 2 ^ (f.frac + roundExp f n d) * d := by rw [pow_add]; ring
        _ ≤ n / d * d := Nat.mul_le_mul_right d h1
        _ ≤ n := Nat.div_mul_le_self n d

theorem roundSig_bounds (f : Format) (n d : Nat) (hd : 0 < d) :
    roundSig f n d ≤ 2 * 2 ^ f.frac ∧ (roundExp f n d = 0 ∨ 2 ^ f.frac ≤ roundSig f n d) := by
  obtain ⟨h1, h2⟩ := roundExp_bounds f n d hd
  have hD : 0 < d * 2 ^ roundExp f n d := by positivity
  exact ⟨roundHalfEven_le _ _ _ h1.le hD, h2.imp_right (fun h => roundHalfEven_ge _ _ _ h hD)⟩

/-- The value of the rounded pattern. -/
theorem magUnits_roundRaw (f : Format) (n d : Nat) (hd : 0 < d) :
    magUnits f (roundRaw f n d) = roundSig f n d * 2 ^ roundExp f n d :=
  magUnits_add f _ _ (roundSig_bounds f n d hd).1 (roundSig_bounds f n d hd).2

/-- No value of the format with an unlimited exponent is nearer to n / d than the rounded one. -/
theorem roundRaw_nearest (f : Format) (n d m : Nat) (hd : 0 < d) :
    ((magUnits f (roundRaw f n d) * d : Int) - n).natAbs ≤ ((magUnits f m * d : Int) - n).natAbs := by
  obtain ⟨hb1, hb2⟩ := roundExp_bounds f n d hd
  have hv := magUnits_roundRaw f n d hd
  set k := roundExp f n d with hk
  set r := roundSig f n d with hr
  have hD : 0 < d * 2 ^ k := by positivity
  obtain ⟨hl, hu⟩ : 2 * (r * (d * 2 ^ k)) ≤ 2 * n + d * 2 ^ k ∧ 2 * n ≤ 2 * (r * (d * 2 ^ k)) + d * 2 ^ k :=
    roundHalfEven_bounds n (d * 2 ^ k) hD
  have hval : magUnits f (roundRaw f n d) * d = r * (d * 2 ^ k) := by rw [hv]; ring
  have grid : ∀ x : Nat, ((r * (d * 2 ^ k) : Nat) - (n : Int)).natAbs ≤ ((x * (d * 2 ^ k) : Nat) - (n : Int)).natAbs := by
    intro x
    rcases Nat.lt_trichotomy x r with h | h | h
    · have : (x + 1) * (d * 2 ^ k) ≤ r * (d * 2 ^ k) := Nat.mul_le_mul_right _ h
      rw [Nat.add_mul] at this
      omega
    · rw [h]
    · have : (r + 1) * (d * 2 ^ k) ≤ x * (d * 2 ^ k) := Nat.mul_le_mul_right _ h
      rw [Nat.add_mul] at this
      omega
  have cast1 : ((magUnits f (roundRaw f n d) * d : Int) - n) = ((r * (d * 2 ^ k) : Nat) : Int) - n := by
    rw [← hval]; push_cast; ring
  rw [cast1]
  obtain ⟨j, q, -, hq, hj, hm⟩ := exists_magUnits f m
  by_cases hkj : k ≤ j
  · have : magUnits f m * d = q * 2 ^ (j - k) * (d * 2 ^ k) := by
      rw [hm, show j = (j - k) + k by omega, pow_add]
      simp only [Nat.add_sub_cancel]; ring
    have cast2 : ((magUnits f m * d : Int) - n) = ((q * 2 ^ (j - k) * (d * 2 ^ k) : Nat) : Int) - n := by
      rw [← this]; push_cast; ring
    rw [cast2]
    exact grid _
  · have hk0 : 2 ^ f.frac * (d * 2 ^ k) ≤ n := hb2.resolve_left (by omega)
    have hlt : magUnits f m ≤ 2 ^ f.frac * 2 ^ k := by
      rw [hm]
      calc q * 2 ^ j ≤ (2 * 2 ^ f.frac) * 2 ^ j := Nat.mul_le_mul_right _ hq.le
        _ = 2 ^ f.frac * 2 ^ (j + 1) := by rw [pow_succ]; ring
        _ ≤ 2 ^ f.frac * 2 ^ k := Nat.mul_le_mul_left _ (Nat.pow_le_pow_right (by decide) (by omega))
    have h2 : magUnits f m * d ≤ 2 ^ f.frac * (d * 2 ^ k) := by
      calc magUnits f m * d ≤ 2 ^ f.frac * 2 ^ k * d := Nat.mul_le_mul_right d hlt
        _ = _ := by ring
    have hg := grid (2 ^ f.frac)
    have h3 : ((magUnits f m * d : Nat) : Int) = (magUnits f m * d : Int) := by push_cast; rfl
    rw [← h3]
    omega

/-- Rounding up to a value of the format: n / d at most that value rounds to at most its pattern. -/
theorem roundMag_le (f : Format) {n d m : Nat} (hd : 0 < d) (h : n ≤ magUnits f m * d) : roundMag f n d ≤ m := by
  rw [roundMag_eq]
  by_contra hc
  have hlt : m < roundRaw f n d := by omega
  have h1 := roundRaw_nearest f n d m hd
  have h2 : magUnits f m * d < magUnits f (roundRaw f n d) * d :=
    Nat.mul_lt_mul_of_pos_right ((magUnits_lt_iff f).mpr hlt) hd
  have c1 : ((magUnits f m * d : Nat) : Int) = (magUnits f m * d : Int) := by push_cast; rfl
  have c2 : ((magUnits f (roundRaw f n d) * d : Nat) : Int) = (magUnits f (roundRaw f n d) * d : Int) := by
    push_cast; rfl
  rw [← c1, ← c2] at h1
  omega

/-- Rounding down to a value of the format: n / d at least that value rounds to at least its pattern. -/
theorem le_roundMag (f : Format) {n d m : Nat} (hd : 0 < d) (hm : m ≤ f.inf) (h : magUnits f m * d ≤ n) :
    m ≤ roundMag f n d := by
  rw [roundMag_eq]
  by_contra hc
  have hlt : roundRaw f n d < m := by omega
  have h1 := roundRaw_nearest f n d m hd
  have h2 : magUnits f (roundRaw f n d) * d < magUnits f m * d :=
    Nat.mul_lt_mul_of_pos_right ((magUnits_lt_iff f).mpr hlt) hd
  have c1 : ((magUnits f m * d : Nat) : Int) = (magUnits f m * d : Int) := by push_cast; rfl
  have c2 : ((magUnits f (roundRaw f n d) * d : Nat) : Int) = (magUnits f (roundRaw f n d) * d : Int) := by
    push_cast; rfl
  rw [← c1, ← c2] at h1
  omega

/-- Rounding is exact on the values of the format. -/
theorem roundMag_exact (f : Format) {n d m : Nat} (hd : 0 < d) (hm : m ≤ f.inf) (h : n = magUnits f m * d) :
    roundMag f n d = m :=
  Nat.le_antisymm (roundMag_le f hd h.le) (le_roundMag f hd hm h.ge)

/-- Rounding is monotone. -/
theorem roundMag_mono (f : Format) {n n' d : Nat} (hd : 0 < d) (h : n ≤ n') : roundMag f n d ≤ roundMag f n' d := by
  obtain rfl | hlt : n = n' ∨ n < n' := by omega
  · exact le_rfl
  simp only [roundMag_eq]
  suffices roundRaw f n d ≤ roundRaw f n' d by omega
  by_contra hc
  have h1 := roundRaw_nearest f n' d (roundRaw f n d) hd
  have h2 := roundRaw_nearest f n d (roundRaw f n' d) hd
  have h3 : magUnits f (roundRaw f n' d) * d < magUnits f (roundRaw f n d) * d :=
    Nat.mul_lt_mul_of_pos_right ((magUnits_lt_iff f).mpr (by omega)) hd
  have c : ∀ m : Nat, (magUnits f m * d : Int) = ((magUnits f m * d : Nat) : Int) := fun m => by push_cast; rfl
  rw [c, c] at h1 h2
  omega

/-! Signed values. -/

theorem units_eq (f : Format) (b : Bool) (m : Nat) : units f (b, m) = if b then -(magUnits f m : Int) else (magUnits f m : Int) :=
  rfl

@[simp] theorem natAbs_units (f : Format) (x : Fp) : (units f x).natAbs = magUnits f x.2 := by
  unfold units; split <;> simp

/-- Patterns are ordered as their values, infinity as the next value after the finite ones. -/
theorem ordF_lt_iff (f : Format) (x y : Fp) : ordF x < ordF y ↔ units f x < units f y := by
  obtain ⟨a, m⟩ := x; obtain ⟨b, n⟩ := y
  have h1 := magUnits_lt_iff f (a := m) (b := n)
  have h2 := magUnits_lt_iff f (a := n) (b := m)
  have h3 := magUnits_eq_zero f (a := m)
  have h4 := magUnits_eq_zero f (a := n)
  cases a <;> cases b <;> simp only [ordF, units, Bool.false_eq_true, if_true, if_false] <;> omega

theorem ordF_le_iff (f : Format) (x y : Fp) : ordF x ≤ ordF y ↔ units f x ≤ units f y := by
  have := ordF_lt_iff f y x
  omega

theorem ordF_eq_iff (f : Format) (x y : Fp) : ordF x = ordF y ↔ units f x = units f y := by
  have h1 := ordF_le_iff f x y
  have h2 := ordF_le_iff f y x
  omega

/-- x is e / d rounded once (R13), with the sign of e; the sign of an exact zero is left open. -/
def IsRounding (f : Format) (e : Int) (d : Nat) (x : Fp) : Prop :=
  x.2 = roundMag f e.natAbs d ∧ (e < 0 → x.1 = true) ∧ (0 < e → x.1 = false)

/-- A rounded quotient at most a value of the format is at most that value. -/
theorem IsRounding.le {f : Format} {e : Int} {d : Nat} {x y : Fp} (h : IsRounding f e d x) (hd : 0 < d)
    (hy : y.2 ≤ f.inf) (he : e ≤ units f y * d) : units f x ≤ units f y := by
  obtain ⟨s, m⟩ := x; obtain ⟨t, n⟩ := y
  obtain ⟨hm, hneg, hpos⟩ := h
  simp only at hm hneg hpos hy
  subst hm
  have z : e = 0 → magUnits f (roundMag f e.natAbs d) = 0 := by
    rintro rfl
    rw [magUnits_eq_zero]
    exact Nat.le_zero.mp (roundMag_le f hd (by simp))
  cases t with
  | false =>
    simp only [units, Bool.false_eq_true, if_false] at he ⊢
    cases s with
    | true => simp only [if_true]; omega
    | false =>
      simp only [Bool.false_eq_true, if_false]
      have h0 : 0 ≤ e := by by_contra hc; exact absurd (hneg (by omega)) (by simp)
      have := (magUnits_le_iff f).mpr (roundMag_le f (n := e.natAbs) (m := n) hd (by
        have : ((magUnits f n * d : Nat) : Int) = (magUnits f n : Int) * d := by push_cast; rfl
        omega))
      omega
  | true =>
    simp only [units, if_true] at he ⊢
    have e1 : e ≤ -((magUnits f n * d : Nat) : Int) := by push_cast; linarith
    have h1 : n ≤ roundMag f e.natAbs d := le_roundMag f hd hy (by omega)
    have h2 := (magUnits_le_iff f).mpr h1
    cases s with
    | true => simp only [if_true]; omega
    | false =>
      simp only [Bool.false_eq_true, if_false]
      have h0 : 0 ≤ e := by by_contra hc; exact absurd (hneg (by omega)) (by simp)
      have : e = 0 := by omega
      have := z this
      omega

theorem IsRounding.neg {f : Format} {e : Int} {d : Nat} {x : Fp} (h : IsRounding f e d x) :
    IsRounding f (-e) d (negF x) := by
  obtain ⟨h1, h2, h3⟩ := h
  refine ⟨by simpa [negF] using h1, fun h => ?_, fun h => ?_⟩
  · simp [negF, h3 (by omega)]
  · simp [negF, h2 (by omega)]

@[simp] theorem units_negF (f : Format) (x : Fp) : units f (negF x) = -units f x := by
  obtain ⟨s, m⟩ := x; cases s <;> simp [units, negF]

/-- A rounded quotient at least a value of the format is at least that value. -/
theorem IsRounding.ge {f : Format} {e : Int} {d : Nat} {x y : Fp} (h : IsRounding f e d x) (hd : 0 < d)
    (hy : y.2 ≤ f.inf) (he : units f y * d ≤ e) : units f y ≤ units f x := by
  have := h.neg.le (y := negF y) hd hy (by rw [units_negF]; linarith)
  simp only [units_negF] at this
  omega

/-- A quotient that is a value of the format rounds to that value. -/
theorem IsRounding.exact {f : Format} {e : Int} {d : Nat} {x y : Fp} (h : IsRounding f e d x) (hd : 0 < d)
    (hy : y.2 ≤ f.inf) (he : e = units f y * d) : units f x = units f y :=
  Int.le_antisymm (h.le hd hy he.le) (h.ge hd hy he.ge)

/-- Rounding is monotone. -/
theorem IsRounding.mono {f : Format} {e e' : Int} {d : Nat} {x y : Fp} (h : IsRounding f e d x)
    (h' : IsRounding f e' d y) (hd : 0 < d) (he : e ≤ e') : units f x ≤ units f y := by
  have z : ∀ {e : Int} {x : Fp}, IsRounding f e d x → e = 0 → units f x = 0 := by
    rintro e x hx rfl
    have := hx.exact (y := (false, 0)) hd (Nat.zero_le _) (by simp [units])
    simpa [units] using this
  have hz : units f (false, 0) = 0 := by simp [units]
  by_cases h0 : e ≤ 0
  · by_cases h1 : 0 ≤ e'
    · have a := h.le (y := (false, 0)) hd (Nat.zero_le _) (by rw [hz]; omega)
      have b := h'.ge (y := (false, 0)) hd (Nat.zero_le _) (by rw [hz]; omega)
      omega
    · obtain ⟨m1, n1, -⟩ := h; obtain ⟨m2, n2, -⟩ := h'
      have := (magUnits_le_iff f).mpr (roundMag_mono f (n := e'.natAbs) (n' := e.natAbs) hd (by omega))
      obtain ⟨s, m⟩ := x; obtain ⟨t, n⟩ := y
      simp only at m1 n1 m2 n2
      rw [n1 (by omega), n2 (by omega), m1, m2]
      simp only [units, if_true]; omega
  · obtain ⟨m1, -, p1⟩ := h; obtain ⟨m2, -, p2⟩ := h'
    have := (magUnits_le_iff f).mpr (roundMag_mono f (n := e.natAbs) (n' := e'.natAbs) hd (by omega))
    obtain ⟨s, m⟩ := x; obtain ⟨t, n⟩ := y
    simp only at m1 p1 m2 p2
    rw [p1 (by omega), p2 (by omega), m1, m2]
    simp only [units, Bool.false_eq_true, if_false]; omega

theorem IsRounding.le_inf {f : Format} {e : Int} {d : Nat} {x : Fp} (h : IsRounding f e d x) : x.2 ≤ f.inf :=
  h.1 ▸ roundMag_le_inf f _ _

/-- A rounded quotient of magnitude at most a finite value's is finite. -/
theorem IsRounding.finite {f : Format} {e : Int} {d m : Nat} {x : Fp} (h : IsRounding f e d x) (hd : 0 < d)
    (hm : m < f.inf) (he : e.natAbs ≤ magUnits f m * d) : isFiniteF f x = true := by
  have := roundMag_le f hd he
  simp only [isFiniteF, h.1, decide_eq_true_eq]
  omega

/-! The operations on finite operands are roundings. -/

theorem addF_rounds (f : Format) {a b : Fp} (ha : isFiniteF f a = true) (hb : isFiniteF f b = true) :
    IsRounding f (units f a + units f b) 1 (addF f a b) := by
  simp only [isFiniteF, decide_eq_true_eq] at ha hb
  have h1 : isNaNF f a = false := by simp only [isNaNF, decide_eq_false_iff_not]; omega
  have h2 : isNaNF f b = false := by simp only [isNaNF, decide_eq_false_iff_not]; omega
  have h3 : isInfF f a = false := by simp only [isInfF, beq_eq_false_iff_ne]; omega
  have h4 : isInfF f b = false := by simp only [isInfF, beq_eq_false_iff_ne]; omega
  simp only [addF, h1, h2, h3, h4, Bool.or_self, Bool.false_eq_true, if_false]
  refine ⟨rfl, fun h => ?_, fun h => ?_⟩
  · rw [if_neg (by omega)]; simpa using h
  · rw [if_neg (by omega)]; simpa using h.le

theorem mulF_rounds (f : Format) {a b : Fp} (ha : isFiniteF f a = true) (hb : isFiniteF f b = true) :
    IsRounding f (units f a * units f b) (2 ^ f.scale) (mulF f a b) := by
  simp only [isFiniteF, decide_eq_true_eq] at ha hb
  have h1 : isNaNF f a = false := by simp only [isNaNF, decide_eq_false_iff_not]; omega
  have h2 : isNaNF f b = false := by simp only [isNaNF, decide_eq_false_iff_not]; omega
  have h3 : isInfF f a = false := by simp only [isInfF, beq_eq_false_iff_ne]; omega
  have h4 : isInfF f b = false := by simp only [isInfF, beq_eq_false_iff_ne]; omega
  simp only [mulF, h1, h2, h3, h4, Bool.or_self, Bool.false_eq_true, if_false]
  refine ⟨by simp [Int.natAbs_mul], fun h => ?_, fun h => ?_⟩
  · obtain ⟨s, m⟩ := a; obtain ⟨t, n⟩ := b
    cases s <;> cases t <;> simp [units] at h ⊢ <;> exact absurd h (not_lt.mpr (by positivity))
  · obtain ⟨s, m⟩ := a; obtain ⟨t, n⟩ := b
    cases s <;> cases t <;> simp [units] at h ⊢ <;> exact absurd h (not_lt.mpr (by positivity))

theorem divF_rounds (f : Format) {a b : Fp} (ha : isFiniteF f a = true) (hb : isFiniteF f b = true)
    (h0 : units f b ≠ 0) :
    IsRounding f (units f a * (units f b).sign * 2 ^ f.scale) (units f b).natAbs (divF f a b) := by
  have hz : isZeroF b = false := by
    simp only [isZeroF, beq_eq_false_iff_ne]
    intro h; apply h0
    have := natAbs_units f b
    rw [h, magUnits_zero] at this
    omega
  simp only [isFiniteF, decide_eq_true_eq] at ha hb
  have h1 : isNaNF f a = false := by simp only [isNaNF, decide_eq_false_iff_not]; omega
  have h2 : isNaNF f b = false := by simp only [isNaNF, decide_eq_false_iff_not]; omega
  have h3 : isInfF f a = false := by simp only [isInfF, beq_eq_false_iff_ne]; omega
  have h4 : isInfF f b = false := by simp only [isInfF, beq_eq_false_iff_ne]; omega
  have hs : (units f b).sign.natAbs = 1 := Int.natAbs_sign_of_ne_zero h0
  simp only [divF, h1, h2, h3, h4, hz, Bool.or_self, Bool.false_eq_true, if_false]
  have hp : (0 : Int) < 2 ^ f.scale := by positivity
  refine ⟨by simp [Int.natAbs_mul, hs, Int.natAbs_pow], fun h => ?_, fun h => ?_⟩
  · have h := neg_of_mul_neg_left h hp.le
    obtain ⟨s, m⟩ := a; obtain ⟨t, n⟩ := b
    have hn : 0 < (magUnits f n : Int) := by
      have := natAbs_units f (t, n)
      simp only at this; omega
    cases s <;> cases t <;> simp [units, Int.sign_eq_one_of_pos hn] at h ⊢ <;>
      exact absurd h (not_lt.mpr (by positivity))
  · have h := pos_of_mul_pos_left h hp.le
    obtain ⟨s, m⟩ := a; obtain ⟨t, n⟩ := b
    have hn : 0 < (magUnits f n : Int) := by
      have := natAbs_units f (t, n)
      simp only at this; omega
    cases s <;> cases t <;> simp [units, Int.sign_eq_one_of_pos hn] at h ⊢ <;>
      exact absurd h (not_lt.mpr (by positivity))

end Sys2Proof.Machine
end

