-- ==== Sys2Proof/Laws/Float32.lean ====
section
/-!
SUPPORT. The binary32 operations on bit patterns (spec/00_scope.md R13): packing, comparisons as comparisons of values, and
each operation on finite operands as one rounding of the exact value.
-/
namespace Sys2Proof.Machine

theorem inf32 : binary32.inf = 2139095040 := by decide
theorem inf64 : binary64.inf = 9218868437227405312 := by decide
theorem scale32 : binary32.scale = 149 := by decide
theorem scale64 : binary64.scale = 1074 := by decide

theorem unpack32_snd_lt (x : F32) : (unpack32 x).2 < 2 ^ 31 := Nat.mod_lt _ (by decide)
theorem unpack64_snd_lt (x : F64) : (unpack64 x).2 < 2 ^ 63 := Nat.mod_lt _ (by decide)

theorem unpack32_pack32 {x : Fp} (h : x.2 < 2 ^ 31) : unpack32 (pack32 x) = x := by
  obtain ⟨s, m⟩ := x
  simp only at h
  unfold unpack32 pack32
  rw [BitVec.msb_eq_decide]
  cases s <;> simp only [Bool.false_eq_true, if_true, if_false, BitVec.toNat_ofNat, Prod.mk.injEq, decide_eq_false_iff_not, decide_eq_true_eq] <;>
    constructor <;> omega

theorem unpack64_pack64 {x : Fp} (h : x.2 < 2 ^ 63) : unpack64 (pack64 x) = x := by
  obtain ⟨s, m⟩ := x
  simp only at h
  unfold unpack64 pack64
  rw [BitVec.msb_eq_decide]
  cases s <;> simp only [Bool.false_eq_true, if_true, if_false, BitVec.toNat_ofNat, Prod.mk.injEq, decide_eq_false_iff_not, decide_eq_true_eq] <;>
    constructor <;> omega

theorem pack32_unpack32 (x : F32) : pack32 (unpack32 x) = x := by
  apply BitVec.eq_of_toNat_eq
  have := x.isLt
  unfold unpack32 pack32
  rw [BitVec.msb_eq_decide]
  by_cases h : 2 ^ 31 ≤ x.toNat
  · simp only [BitVec.toNat_ofNat, show (32 - 1) = 31 from rfl, h, decide_true, if_true]; omega
  · simp only [BitVec.toNat_ofNat, show (32 - 1) = 31 from rfl, h, decide_false, Bool.false_eq_true, if_false]; omega

/-- A finite pattern is its value, but for the sign of zero. -/
theorem eq_of_units_eq {x y : F32} (h : units32 x = units32 y) (h0 : units32 x ≠ 0) : x = y := by
  rw [← pack32_unpack32 x, ← pack32_unpack32 y]
  congr 1
  unfold units32 at h h0
  have h1 := natAbs_units binary32 (unpack32 x)
  have h2 := natAbs_units binary32 (unpack32 y)
  have h3 : (unpack32 x).2 = (unpack32 y).2 := by rw [← magUnits_inj binary32, ← h1, ← h2, h]
  refine Prod.ext ?_ h3
  revert h h0
  generalize unpack32 x = a at *
  generalize unpack32 y = b at *
  obtain ⟨s, m⟩ := a; obtain ⟨t, n⟩ := b
  simp only at h3; subst h3
  intro h h0
  cases s <;> cases t <;> simp [units] at h h0 ⊢ <;> exact h0 h

theorem isFinite32_iff (x : F32) : isFinite32 x = true ↔ (unpack32 x).2 < binary32.inf := by
  simp [isFinite32, isFiniteF]

theorem not_isNaN32_of_finite {x : F32} (h : isFinite32 x = true) : isNaN32 x = false := by
  rw [isFinite32_iff] at h
  simp only [isNaN32, isNaNF, decide_eq_false_iff_not]; omega

theorem le_inf_of_not_isNaN32 {x : F32} (h : isNaN32 x = false) : (unpack32 x).2 ≤ binary32.inf := by
  simpa [isNaN32, isNaNF] using h

/-- The value `units32` gives infinity, just above the finite ones: 2^128. -/
def infUnits32 : Nat := magUnits binary32 binary32.inf

theorem infUnits32_eq : infUnits32 = 2 * 2 ^ 23 * 2 ^ 253 := by
  have h := magUnits_add binary32 253 (2 * 2 ^ 23) le_rfl (.inr (by decide))
  exact h

/-- Every value of magnitude at most 2^64 is below infinity's. -/
theorem lt_infUnits32 {n : Nat} (h : n ≤ 2 ^ 213) : n < infUnits32 := by
  rw [infUnits32_eq]
  calc n ≤ 2 ^ 213 := h
    _ < 2 ^ 253 := Nat.pow_lt_pow_right (by decide) (by decide)
    _ ≤ _ := Nat.le_mul_of_pos_left _ (by decide)

/-- Finite values are those below infinity's. -/
theorem isFinite32_iff_units (x : F32) : isFinite32 x = true ↔ (units32 x).natAbs < infUnits32 := by
  rw [isFinite32_iff, units32, natAbs_units, infUnits32, magUnits_lt_iff]

theorem lt32_eq {a b : F32} (ha : isNaN32 a = false) (hb : isNaN32 b = false) :
    lt32 a b = decide (units32 a < units32 b) := by
  simp only [lt32, ha, hb, Bool.not_false, Bool.true_and]
  exact decide_eq_decide.mpr (ordF_lt_iff binary32 _ _)

theorem le32_eq {a b : F32} (ha : isNaN32 a = false) (hb : isNaN32 b = false) :
    le32 a b = decide (units32 a ≤ units32 b) := by
  simp only [le32, ha, hb, Bool.not_false, Bool.true_and]
  exact decide_eq_decide.mpr (ordF_le_iff binary32 _ _)

theorem eq32_eq {a b : F32} (ha : isNaN32 a = false) (hb : isNaN32 b = false) :
    eq32 a b = decide (units32 a = units32 b) := by
  simp only [eq32, ha, hb, Bool.not_false, Bool.true_and]
  exact decide_eq_decide.mpr (ordF_eq_iff binary32 _ _)

/-- A comparison that holds is between numbers and is the values' comparison. -/
theorem le32_iff {a b : F32} : le32 a b = true ↔ isNaN32 a = false ∧ isNaN32 b = false ∧ units32 a ≤ units32 b := by
  by_cases ha : isNaN32 a = false <;> by_cases hb : isNaN32 b = false
  · simp [le32_eq ha hb, ha, hb]
  all_goals simp [le32, ha, hb]

theorem lt32_iff {a b : F32} : lt32 a b = true ↔ isNaN32 a = false ∧ isNaN32 b = false ∧ units32 a < units32 b := by
  by_cases ha : isNaN32 a = false <;> by_cases hb : isNaN32 b = false
  · simp [lt32_eq ha hb, ha, hb]
  all_goals simp [lt32, ha, hb]

/-- x is e / d rounded once to binary32. -/
def IsRounding32 (e : Int) (d : Nat) (x : F32) : Prop := IsRounding binary32 e d (unpack32 x)

theorem isRounding32_pack32 {e : Int} {d : Nat} {x : Fp} (h : IsRounding binary32 e d x) : IsRounding32 e d (pack32 x) := by
  have := h.le_inf
  rw [IsRounding32, unpack32_pack32 (by rw [inf32] at this; omega)]
  exact h

theorem IsRounding32.not_nan {e : Int} {d : Nat} {x : F32} (h : IsRounding32 e d x) : isNaN32 x = false := by
  have := IsRounding.le_inf h
  simpa [isNaN32, isNaNF] using this

theorem IsRounding32.le {e : Int} {d : Nat} {x : F32} (h : IsRounding32 e d x) (hd : 0 < d) (y : F32)
    (hy : isNaN32 y = false) (he : e ≤ units32 y * d) : units32 x ≤ units32 y :=
  IsRounding.le h hd (le_inf_of_not_isNaN32 hy) he

theorem IsRounding32.ge {e : Int} {d : Nat} {x : F32} (h : IsRounding32 e d x) (hd : 0 < d) (y : F32)
    (hy : isNaN32 y = false) (he : units32 y * d ≤ e) : units32 y ≤ units32 x :=
  IsRounding.ge h hd (le_inf_of_not_isNaN32 hy) he

theorem IsRounding32.exact {e : Int} {d : Nat} {x : F32} (h : IsRounding32 e d x) (hd : 0 < d) (y : F32)
    (hy : isNaN32 y = false) (he : e = units32 y * d) : units32 x = units32 y :=
  IsRounding.exact h hd (le_inf_of_not_isNaN32 hy) he

theorem IsRounding32.mono {e e' : Int} {d : Nat} {x y : F32} (h : IsRounding32 e d x) (h' : IsRounding32 e' d y)
    (hd : 0 < d) (he : e ≤ e') : units32 x ≤ units32 y := IsRounding.mono h h' hd he

theorem add32_rounds {a b : F32} (ha : isFinite32 a = true) (hb : isFinite32 b = true) :
    IsRounding32 (units32 a + units32 b) 1 (add32 a b) := isRounding32_pack32 (addF_rounds _ ha hb)

theorem sub32_rounds {a b : F32} (ha : isFinite32 a = true) (hb : isFinite32 b = true) :
    IsRounding32 (units32 a - units32 b) 1 (sub32 a b) := by
  have := addF_rounds binary32 (a := unpack32 a) (b := negF (unpack32 b)) ha hb
  rw [units_negF, ← sub_eq_add_neg] at this
  exact isRounding32_pack32 this

theorem mul32_rounds {a b : F32} (ha : isFinite32 a = true) (hb : isFinite32 b = true) :
    IsRounding32 (units32 a * units32 b) (2 ^ 149) (mul32 a b) := isRounding32_pack32 (mulF_rounds binary32 ha hb)

theorem div32_rounds {a b : F32} (ha : isFinite32 a = true) (hb : isFinite32 b = true) (h0 : units32 b ≠ 0) :
    IsRounding32 (units32 a * (units32 b).sign * 2 ^ 149) (units32 b).natAbs (div32 a b) :=
  isRounding32_pack32 (divF_rounds binary32 ha hb h0)

/-! Constants. -/

@[simp] theorem units32_zero : units32 0x00000000#32 = 0 := by decide
@[simp] theorem units32_one : units32 0x3F800000#32 = 2 ^ 149 := by decide
@[simp] theorem units32_negOne : units32 0xBF800000#32 = -2 ^ 149 := by decide
@[simp] theorem units32_two : units32 0x40000000#32 = 2 ^ 150 := by decide
@[simp] theorem units32_half : units32 0x3F000000#32 = 2 ^ 148 := by decide

/-- The phase interval by values. -/
theorem between_zero_one_iff {r : F32} : (le32 0x00000000#32 r && lt32 r 0x3F800000#32) = true ↔
    isNaN32 r = false ∧ 0 ≤ units32 r ∧ units32 r < 2 ^ 149 := by
  have h0 : isNaN32 0x00000000#32 = false := by decide
  have h1 : isNaN32 0x3F800000#32 = false := by decide
  rw [Bool.and_eq_true, le32_iff, lt32_iff, units32_zero, units32_one]
  simp only [h0, h1]
  tauto

end Sys2Proof.Machine
end

