-- ==== Sys2Proof/Laws/Configuration.lean ====
section
/-!
SUPPORT. What a well-formed configuration (spec/00_scope.md R10) gives, fact by fact, so that no proof unfolds `configOk`;
and the phase interval and the clamp by values.
-/
namespace Sys2Proof.Machine

theorem configOk_bounds {c : Config} (h : configOk c = true) :
    le32 lfoFreqMin c.lfoFreqMax = true ∧ le32 c.baseFreqMin c.baseFreqMax = true ∧ le32 depthMin depthMax = true := by
  simp only [configOk, boundsOk, nonNeg32, Bool.and_eq_true, decide_eq_true_eq] at h
  refine ⟨?_, ?_, by decide⟩ <;> rw [le32_iff]
  · exact ⟨by decide, not_isNaN32_of_finite (by tauto), by tauto⟩
  · exact ⟨not_isNaN32_of_finite (by tauto), not_isNaN32_of_finite (by tauto), by tauto⟩

theorem configOk_bounds_finite {c : Config} (h : configOk c = true) :
    isFinite32 c.baseFreqMin = true ∧ isFinite32 c.baseFreqMax = true ∧ isFinite32 c.lfoFreqMax = true := by
  simp only [configOk, boundsOk, nonNeg32, Bool.and_eq_true] at h
  tauto

theorem configOk_steps {c : Config} (h : configOk c = true) :
    isFinite32 c.baseFreqStep = true ∧ isFinite32 c.lfoFreqStep = true ∧ isFinite32 c.depthStep = true := by
  simp only [configOk, rangesOk, pos32, Bool.and_eq_true] at h
  tauto

theorem configOk_rate {c : Config} (h : configOk c = true) :
    isFinite32 c.sampleRate = true ∧ 0 < units32 c.sampleRate ∧ units32 c.lfoFreqMax < units32 c.sampleRate := by
  simp only [configOk, rangesOk, lfoBelowRate, pos32, Bool.and_eq_true, decide_eq_true_eq] at h
  tauto

theorem configOk_sizes {c : Config} (h : configOk c = true) :
    1 ≤ c.tableLog2 ∧ c.tableLog2 ≤ 16 ∧ 3 ≤ c.maxVoices ∧ c.maxVoices ≤ 15 ∧
    c.tableValue.length = tableSize c ∧ c.tableValue.all tableEntryOk = true := by
  simp only [configOk, rangesOk, resetValuesOk, Bool.and_eq_true, decide_eq_true_eq] at h
  have e : resetActiveVoices.toNat = 3 := by decide
  rw [e] at h
  tauto

/-- The table of a well-formed configuration is near the sine (R121(a)); `tableNear_iff` gives the real form. -/
theorem configOk_table {c : Config} (h : configOk c = true) : tableNear c.tableLog2 c.tableValue = true := by
  simp only [configOk, rangesOk, Bool.and_eq_true] at h
  tauto

theorem configOk_detune {c : Config} (h : configOk c = true) :
    isFinite32 c.detuneMax = true ∧ 0 ≤ units32 c.detuneMax ∧ units32 c.detuneMax < oneUnits32 := by
  simp only [configOk, rangesOk, nonNeg32, Bool.and_eq_true, decide_eq_true_eq] at h
  tauto

/-- Every draw is taken as a ratio in its interval (spec/10_state.md R30). -/
theorem inDetuneRange_admitDraw {c : Config} (h : configOk c = true) (x : F32) :
    inDetuneRange c (admitDraw c x) = true := by
  unfold admitDraw
  split
  · assumption
  · obtain ⟨-, h1, -⟩ := configOk_detune h
    have hu : units32 one32 = oneUnits32 := by decide
    have hf : isFinite32 one32 = true := by decide
    simp only [inDetuneRange, hf, hu, Bool.true_and, Bool.and_eq_true, decide_eq_true_eq]
    omega

theorem inUnit_iff {r : F32} : inUnit r = true ↔ isNaN32 r = false ∧ 0 ≤ units32 r ∧ units32 r < 2 ^ 149 :=
  between_zero_one_iff

theorem between32_iff {lo hi x : F32} : between32 lo hi x = true ↔
    isNaN32 lo = false ∧ isNaN32 hi = false ∧ isNaN32 x = false ∧ units32 lo ≤ units32 x ∧ units32 x ≤ units32 hi := by
  rw [between32, Bool.and_eq_true, le32_iff, le32_iff]
  tauto

theorem isFinite32_of_small {x : F32} (h : (units32 x).natAbs ≤ 2 ^ 213) : isFinite32 x = true := by
  rw [isFinite32_iff_units]
  exact lt_infUnits32 h

/-- A value between two finite ones is finite. -/
theorem isFinite32_of_between32 {lo hi x : F32} (hl : isFinite32 lo = true) (hh : isFinite32 hi = true)
    (h : between32 lo hi x = true) : isFinite32 x = true := by
  rw [isFinite32_iff_units] at *
  rw [between32_iff] at h
  omega

end Sys2Proof.Machine
end

