-- ==== Sys2Proof/Laws/Decode.lean ====
section
/-!
SUPPORT. The two fields of a command word as numbers (spec/30_encoding.md R90), so that facts about encodings are linear
arithmetic.
-/
namespace Sys2Proof

theorem encode_toNat (i : Instr) : (encode i).toNat = i.opcode.toNat * 2 ^ 24 + i.arg.toNat := by
  unfold encode
  rw [BitVec.toNat_append, ← Nat.shiftLeft_add_eq_or_of_lt i.arg.isLt, Nat.shiftLeft_eq]

theorem opcField_toNat (w : Word) : (opcField w).toNat = w.toNat / 2 ^ 24 := by
  unfold opcField
  rw [BitVec.extractLsb'_toNat, Nat.shiftRight_eq_div_pow, Nat.mod_eq_of_lt]
  have := w.isLt
  omega

theorem argField_toNat (w : Word) : (argField w).toNat = w.toNat % 2 ^ 24 := by
  unfold argField
  rw [BitVec.extractLsb'_toNat]
  rfl

@[simp] theorem opcField_encode (i : Instr) : opcField (encode i) = i.opcode := by
  apply BitVec.eq_of_toNat_eq
  have := i.arg.isLt
  rw [opcField_toNat, encode_toNat]
  omega

@[simp] theorem argField_encode (i : Instr) : argField (encode i) = i.arg := by
  apply BitVec.eq_of_toNat_eq
  have := i.arg.isLt
  rw [argField_toNat, encode_toNat]
  omega

/-- A word is the command's encoding as soon as its two fields are the command's. -/
theorem encode_eq_of_fields {i : Instr} {w : Word} (ho : i.opcode = opcField w) (ha : i.arg = argField w) :
    encode i = w := by
  apply BitVec.eq_of_toNat_eq
  rw [encode_toNat, ho, ha, opcField_toNat, argField_toNat]
  omega

end Sys2Proof
end

