-- ==== Sys2Proof/Laws/State.lean ====
section
/-!
SUPPORT. What each shared update of the state does to each field, one lemma per field per update, so that no later proof
unfolds a record update.
-/
namespace Sys2Proof.Machine

/-! dropAction -/

@[simp] theorem dropAction_cfg (s : State) : (dropAction s).cfg = s.cfg := rfl
@[simp] theorem dropAction_table (s : State) : (dropAction s).table = s.table := rfl
@[simp] theorem dropAction_baseFreq (s : State) : (dropAction s).baseFreq = s.baseFreq := rfl
@[simp] theorem dropAction_oscWave (s : State) : (dropAction s).oscWave = s.oscWave := rfl
@[simp] theorem dropAction_sineShape (s : State) : (dropAction s).sineShape = s.sineShape := rfl
@[simp] theorem dropAction_activeVoices (s : State) : (dropAction s).activeVoices = s.activeVoices := rfl
@[simp] theorem dropAction_voices (s : State) : (dropAction s).voices = s.voices := rfl
@[simp] theorem dropAction_lfoFreq (s : State) : (dropAction s).lfoFreq = s.lfoFreq := rfl
@[simp] theorem dropAction_lfoDepth (s : State) : (dropAction s).lfoDepth = s.lfoDepth := rfl
@[simp] theorem dropAction_lfoPhase (s : State) : (dropAction s).lfoPhase = s.lfoPhase := rfl
@[simp] theorem dropAction_lfoWave (s : State) : (dropAction s).lfoWave = s.lfoWave := rfl
@[simp] theorem dropAction_error (s : State) : (dropAction s).error = s.error := rfl
@[simp] theorem dropAction_framesLeft (s : State) : (dropAction s).framesLeft = s.framesLeft := rfl
@[simp] theorem dropAction_pending (s : State) : (dropAction s).pending = s.pending := rfl
@[simp] theorem dropAction_out (s : State) : (dropAction s).out = s.out := rfl
@[simp] theorem dropAction_mfault (s : State) : (dropAction s).mfault = s.mfault := rfl
@[simp] theorem dropAction_script (s : State) : (dropAction s).script = s.script.tail := rfl
@[simp] theorem dropAction_reads (s : State) : (dropAction s).reads = s.reads := rfl
@[simp] theorem dropAction_choices (s : State) : (dropAction s).choices = s.choices := rfl

/-! spendChoice -/

@[simp] theorem spendChoice_cfg (s : State) : (spendChoice s).cfg = s.cfg := rfl
@[simp] theorem spendChoice_table (s : State) : (spendChoice s).table = s.table := rfl
@[simp] theorem spendChoice_baseFreq (s : State) : (spendChoice s).baseFreq = s.baseFreq := rfl
@[simp] theorem spendChoice_oscWave (s : State) : (spendChoice s).oscWave = s.oscWave := rfl
@[simp] theorem spendChoice_sineShape (s : State) : (spendChoice s).sineShape = s.sineShape := rfl
@[simp] theorem spendChoice_activeVoices (s : State) : (spendChoice s).activeVoices = s.activeVoices := rfl
@[simp] theorem spendChoice_voices (s : State) : (spendChoice s).voices = s.voices := rfl
@[simp] theorem spendChoice_lfoFreq (s : State) : (spendChoice s).lfoFreq = s.lfoFreq := rfl
@[simp] theorem spendChoice_lfoDepth (s : State) : (spendChoice s).lfoDepth = s.lfoDepth := rfl
@[simp] theorem spendChoice_lfoPhase (s : State) : (spendChoice s).lfoPhase = s.lfoPhase := rfl
@[simp] theorem spendChoice_lfoWave (s : State) : (spendChoice s).lfoWave = s.lfoWave := rfl
@[simp] theorem spendChoice_error (s : State) : (spendChoice s).error = s.error := rfl
@[simp] theorem spendChoice_framesLeft (s : State) : (spendChoice s).framesLeft = s.framesLeft := rfl
@[simp] theorem spendChoice_pending (s : State) : (spendChoice s).pending = s.pending := rfl
@[simp] theorem spendChoice_out (s : State) : (spendChoice s).out = s.out := rfl
@[simp] theorem spendChoice_mfault (s : State) : (spendChoice s).mfault = s.mfault := rfl
@[simp] theorem spendChoice_script (s : State) : (spendChoice s).script = s.script := rfl
@[simp] theorem spendChoice_reads (s : State) : (spendChoice s).reads = s.reads := rfl
@[simp] theorem spendChoice_choices (s : State) : (spendChoice s).choices = s.choices + 1 := rfl

/-! addFaults -/

@[simp] theorem addFaults_cfg (s : State) (f : MFaults) : (addFaults f s).cfg = s.cfg := rfl
@[simp] theorem addFaults_table (s : State) (f : MFaults) : (addFaults f s).table = s.table := rfl
@[simp] theorem addFaults_baseFreq (s : State) (f : MFaults) : (addFaults f s).baseFreq = s.baseFreq := rfl
@[simp] theorem addFaults_oscWave (s : State) (f : MFaults) : (addFaults f s).oscWave = s.oscWave := rfl
@[simp] theorem addFaults_sineShape (s : State) (f : MFaults) : (addFaults f s).sineShape = s.sineShape := rfl
@[simp] theorem addFaults_activeVoices (s : State) (f : MFaults) : (addFaults f s).activeVoices = s.activeVoices := rfl
@[simp] theorem addFaults_voices (s : State) (f : MFaults) : (addFaults f s).voices = s.voices := rfl
@[simp] theorem addFaults_lfoFreq (s : State) (f : MFaults) : (addFaults f s).lfoFreq = s.lfoFreq := rfl
@[simp] theorem addFaults_lfoDepth (s : State) (f : MFaults) : (addFaults f s).lfoDepth = s.lfoDepth := rfl
@[simp] theorem addFaults_lfoPhase (s : State) (f : MFaults) : (addFaults f s).lfoPhase = s.lfoPhase := rfl
@[simp] theorem addFaults_lfoWave (s : State) (f : MFaults) : (addFaults f s).lfoWave = s.lfoWave := rfl
@[simp] theorem addFaults_error (s : State) (f : MFaults) : (addFaults f s).error = s.error := rfl
@[simp] theorem addFaults_framesLeft (s : State) (f : MFaults) : (addFaults f s).framesLeft = s.framesLeft := rfl
@[simp] theorem addFaults_pending (s : State) (f : MFaults) : (addFaults f s).pending = s.pending := rfl
@[simp] theorem addFaults_out (s : State) (f : MFaults) : (addFaults f s).out = s.out := rfl
@[simp] theorem addFaults_mfault (s : State) (f : MFaults) : (addFaults f s).mfault = s.mfault.union f := rfl
@[simp] theorem addFaults_script (s : State) (f : MFaults) : (addFaults f s).script = s.script := rfl
@[simp] theorem addFaults_reads (s : State) (f : MFaults) : (addFaults f s).reads = s.reads := rfl
@[simp] theorem addFaults_choices (s : State) (f : MFaults) : (addFaults f s).choices = s.choices := rfl

/-! emit -/

@[simp] theorem emit_cfg (s : State) (l r : F32) : (emit l r s).cfg = s.cfg := rfl
@[simp] theorem emit_table (s : State) (l r : F32) : (emit l r s).table = s.table := rfl
@[simp] theorem emit_baseFreq (s : State) (l r : F32) : (emit l r s).baseFreq = s.baseFreq := rfl
@[simp] theorem emit_oscWave (s : State) (l r : F32) : (emit l r s).oscWave = s.oscWave := rfl
@[simp] theorem emit_sineShape (s : State) (l r : F32) : (emit l r s).sineShape = s.sineShape := rfl
@[simp] theorem emit_activeVoices (s : State) (l r : F32) : (emit l r s).activeVoices = s.activeVoices := rfl
@[simp] theorem emit_voices (s : State) (l r : F32) : (emit l r s).voices = s.voices := rfl
@[simp] theorem emit_lfoFreq (s : State) (l r : F32) : (emit l r s).lfoFreq = s.lfoFreq := rfl
@[simp] theorem emit_lfoDepth (s : State) (l r : F32) : (emit l r s).lfoDepth = s.lfoDepth := rfl
@[simp] theorem emit_lfoPhase (s : State) (l r : F32) : (emit l r s).lfoPhase = s.lfoPhase := rfl
@[simp] theorem emit_lfoWave (s : State) (l r : F32) : (emit l r s).lfoWave = s.lfoWave := rfl
@[simp] theorem emit_error (s : State) (l r : F32) : (emit l r s).error = s.error := rfl
@[simp] theorem emit_framesLeft (s : State) (l r : F32) : (emit l r s).framesLeft = s.framesLeft := rfl
@[simp] theorem emit_pending (s : State) (l r : F32) : (emit l r s).pending = s.pending := rfl
@[simp] theorem emit_out (s : State) (l r : F32) : (emit l r s).out = s.out ++ [{ left := l, right := r }] := rfl
@[simp] theorem emit_mfault (s : State) (l r : F32) : (emit l r s).mfault = s.mfault := rfl
@[simp] theorem emit_script (s : State) (l r : F32) : (emit l r s).script = s.script := rfl
@[simp] theorem emit_reads (s : State) (l r : F32) : (emit l r s).reads = s.reads := rfl
@[simp] theorem emit_choices (s : State) (l r : F32) : (emit l r s).choices = s.choices := rfl

/-! raiseCmdError -/

@[simp] theorem raiseCmdError_cfg (s : State) (p : Port) (c : Cause) (w : Word) : (raiseCmdError p c w s).cfg = s.cfg := rfl
@[simp] theorem raiseCmdError_table (s : State) (p : Port) (c : Cause) (w : Word) : (raiseCmdError p c w s).table = s.table := rfl
@[simp] theorem raiseCmdError_baseFreq (s : State) (p : Port) (c : Cause) (w : Word) : (raiseCmdError p c w s).baseFreq = s.baseFreq := rfl
@[simp] theorem raiseCmdError_oscWave (s : State) (p : Port) (c : Cause) (w : Word) : (raiseCmdError p c w s).oscWave = s.oscWave := rfl
@[simp] theorem raiseCmdError_sineShape (s : State) (p : Port) (c : Cause) (w : Word) : (raiseCmdError p c w s).sineShape = s.sineShape := rfl
@[simp] theorem raiseCmdError_activeVoices (s : State) (p : Port) (c : Cause) (w : Word) : (raiseCmdError p c w s).activeVoices = s.activeVoices := rfl
@[simp] theorem raiseCmdError_voices (s : State) (p : Port) (c : Cause) (w : Word) : (raiseCmdError p c w s).voices = s.voices := rfl
@[simp] theorem raiseCmdError_lfoFreq (s : State) (p : Port) (c : Cause) (w : Word) : (raiseCmdError p c w s).lfoFreq = s.lfoFreq := rfl
@[simp] theorem raiseCmdError_lfoDepth (s : State) (p : Port) (c : Cause) (w : Word) : (raiseCmdError p c w s).lfoDepth = s.lfoDepth := rfl
@[simp] theorem raiseCmdError_lfoPhase (s : State) (p : Port) (c : Cause) (w : Word) : (raiseCmdError p c w s).lfoPhase = s.lfoPhase := rfl
@[simp] theorem raiseCmdError_lfoWave (s : State) (p : Port) (c : Cause) (w : Word) : (raiseCmdError p c w s).lfoWave = s.lfoWave := rfl
@[simp] theorem raiseCmdError_error (s : State) (p : Port) (c : Cause) (w : Word) : (raiseCmdError p c w s).error = recordError s.error p c w := rfl
@[simp] theorem raiseCmdError_framesLeft (s : State) (p : Port) (c : Cause) (w : Word) : (raiseCmdError p c w s).framesLeft = s.framesLeft := rfl
@[simp] theorem raiseCmdError_pending (s : State) (p : Port) (c : Cause) (w : Word) : (raiseCmdError p c w s).pending = s.pending := rfl
@[simp] theorem raiseCmdError_out (s : State) (p : Port) (c : Cause) (w : Word) : (raiseCmdError p c w s).out = s.out := rfl
@[simp] theorem raiseCmdError_mfault (s : State) (p : Port) (c : Cause) (w : Word) : (raiseCmdError p c w s).mfault = s.mfault := rfl
@[simp] theorem raiseCmdError_script (s : State) (p : Port) (c : Cause) (w : Word) : (raiseCmdError p c w s).script = s.script := rfl
@[simp] theorem raiseCmdError_reads (s : State) (p : Port) (c : Cause) (w : Word) : (raiseCmdError p c w s).reads = s.reads := rfl
@[simp] theorem raiseCmdError_choices (s : State) (p : Port) (c : Cause) (w : Word) : (raiseCmdError p c w s).choices = s.choices := rfl

/-! readStep -/

@[simp] theorem readStep_cfg (s : State) (a : Addr) : (readStep a s).cfg = s.cfg := rfl
@[simp] theorem readStep_table (s : State) (a : Addr) : (readStep a s).table = s.table := rfl
@[simp] theorem readStep_baseFreq (s : State) (a : Addr) : (readStep a s).baseFreq = s.baseFreq := rfl
@[simp] theorem readStep_oscWave (s : State) (a : Addr) : (readStep a s).oscWave = s.oscWave := rfl
@[simp] theorem readStep_sineShape (s : State) (a : Addr) : (readStep a s).sineShape = s.sineShape := rfl
@[simp] theorem readStep_activeVoices (s : State) (a : Addr) : (readStep a s).activeVoices = s.activeVoices := rfl
@[simp] theorem readStep_voices (s : State) (a : Addr) : (readStep a s).voices = s.voices := rfl
@[simp] theorem readStep_lfoFreq (s : State) (a : Addr) : (readStep a s).lfoFreq = s.lfoFreq := rfl
@[simp] theorem readStep_lfoDepth (s : State) (a : Addr) : (readStep a s).lfoDepth = s.lfoDepth := rfl
@[simp] theorem readStep_lfoPhase (s : State) (a : Addr) : (readStep a s).lfoPhase = s.lfoPhase := rfl
@[simp] theorem readStep_lfoWave (s : State) (a : Addr) : (readStep a s).lfoWave = s.lfoWave := rfl
@[simp] theorem readStep_error (s : State) (a : Addr) : (readStep a s).error = s.error := rfl
@[simp] theorem readStep_framesLeft (s : State) (a : Addr) : (readStep a s).framesLeft = s.framesLeft := rfl
@[simp] theorem readStep_pending (s : State) (a : Addr) : (readStep a s).pending = s.pending := rfl
@[simp] theorem readStep_out (s : State) (a : Addr) : (readStep a s).out = s.out := rfl
@[simp] theorem readStep_mfault (s : State) (a : Addr) : (readStep a s).mfault = s.mfault := rfl
@[simp] theorem readStep_script (s : State) (a : Addr) : (readStep a s).script = s.script := rfl
@[simp] theorem readStep_reads (s : State) (a : Addr) : (readStep a s).reads = s.reads ++ [(a, memRead s a)] := rfl
@[simp] theorem readStep_choices (s : State) (a : Addr) : (readStep a s).choices = s.choices := rfl

/-! applyReset -/

@[simp] theorem applyReset_cfg (s : State) (d : List F32) : (applyReset d s).cfg = s.cfg := rfl
@[simp] theorem applyReset_table (s : State) (d : List F32) : (applyReset d s).table = resetTable s.cfg := rfl
@[simp] theorem applyReset_baseFreq (s : State) (d : List F32) : (applyReset d s).baseFreq = resetBaseFreq := rfl
@[simp] theorem applyReset_oscWave (s : State) (d : List F32) : (applyReset d s).oscWave = resetOscWave := rfl
@[simp] theorem applyReset_sineShape (s : State) (d : List F32) : (applyReset d s).sineShape = resetSineShape := rfl
@[simp] theorem applyReset_activeVoices (s : State) (d : List F32) : (applyReset d s).activeVoices = resetActiveVoices := rfl
@[simp] theorem applyReset_voices (s : State) (d : List F32) : (applyReset d s).voices = resetVoices s.cfg d := rfl
@[simp] theorem applyReset_lfoFreq (s : State) (d : List F32) : (applyReset d s).lfoFreq = resetLfoFreq := rfl
@[simp] theorem applyReset_lfoDepth (s : State) (d : List F32) : (applyReset d s).lfoDepth = resetLfoDepth := rfl
@[simp] theorem applyReset_lfoPhase (s : State) (d : List F32) : (applyReset d s).lfoPhase = zero32 := rfl
@[simp] theorem applyReset_lfoWave (s : State) (d : List F32) : (applyReset d s).lfoWave = resetLfoWave := rfl
@[simp] theorem applyReset_error (s : State) (d : List F32) : (applyReset d s).error = noError := rfl
@[simp] theorem applyReset_framesLeft (s : State) (d : List F32) : (applyReset d s).framesLeft = 0#24 := rfl
@[simp] theorem applyReset_pending (s : State) (d : List F32) : (applyReset d s).pending = [] := rfl
@[simp] theorem applyReset_out (s : State) (d : List F32) : (applyReset d s).out = s.out := rfl
@[simp] theorem applyReset_mfault (s : State) (d : List F32) : (applyReset d s).mfault = s.mfault := rfl
@[simp] theorem applyReset_script (s : State) (d : List F32) : (applyReset d s).script = s.script := rfl
@[simp] theorem applyReset_reads (s : State) (d : List F32) : (applyReset d s).reads = s.reads := rfl
@[simp] theorem applyReset_choices (s : State) (d : List F32) : (applyReset d s).choices = s.choices := rfl

/-! performWrite: the fields no pair writes -/

@[simp] theorem performWrite_cfg (w : Write) (s : State) : (performWrite w s).cfg = s.cfg := by cases w <;> rfl
@[simp] theorem performWrite_table (w : Write) (s : State) : (performWrite w s).table = s.table := by cases w <;> rfl
@[simp] theorem performWrite_lfoPhase (w : Write) (s : State) : (performWrite w s).lfoPhase = s.lfoPhase := by cases w <;> rfl
@[simp] theorem performWrite_framesLeft (w : Write) (s : State) : (performWrite w s).framesLeft = s.framesLeft := by cases w <;> rfl
@[simp] theorem performWrite_pending (w : Write) (s : State) : (performWrite w s).pending = s.pending := by cases w <;> rfl
@[simp] theorem performWrite_out (w : Write) (s : State) : (performWrite w s).out = s.out := by cases w <;> rfl
@[simp] theorem performWrite_script (w : Write) (s : State) : (performWrite w s).script = s.script := by cases w <;> rfl
@[simp] theorem performWrite_reads (w : Write) (s : State) : (performWrite w s).reads = s.reads := by cases w <;> rfl
@[simp] theorem performWrite_choices (w : Write) (s : State) : (performWrite w s).choices = s.choices := by cases w <;> rfl

/-! Busy bits and outcomes -/

@[simp] theorem ctrlBusy_eq_false (s : State) : ctrlBusy s = false ↔ s.pending = [] := by
  simp [ctrlBusy]

@[simp] theorem ctrlBusy_eq_true (s : State) : ctrlBusy s = true ↔ s.pending ≠ [] := by
  simp [ctrlBusy]

@[simp] theorem engBusy_eq_false (s : State) : engBusy s = false ↔ s.framesLeft = 0#24 := by
  simp [engBusy]

@[simp] theorem engBusy_eq_true (s : State) : engBusy s = true ↔ s.framesLeft ≠ 0#24 := by
  simp [engBusy]

@[simp] theorem union_noFaults (f : MFaults) : f.union noFaults = f := by
  simp [MFaults.union, noFaults]

@[simp] theorem noFaults_union (f : MFaults) : noFaults.union f = f := by
  simp [MFaults.union, noFaults]

theorem union_assoc (a b c : MFaults) : (a.union b).union c = a.union (b.union c) := by
  simp [MFaults.union, Bool.or_assoc]

theorem subset_union (a b : MFaults) : a.subset (a.union b) = true := by
  obtain ⟨a1, a2, a3⟩ := a
  cases a1 <;> cases a2 <;> cases a3 <;> simp [MFaults.subset, MFaults.union]

theorem subset_refl (a : MFaults) : a.subset a = true := by
  simpa using subset_union a noFaults

theorem union_comm (a b : MFaults) : a.union b = b.union a := by
  simp [MFaults.union, Bool.or_comm]

/-- The model fault a pair's write raises. -/
def writeFaults : Write → MFaults
  | .voiceFreq _ v => freqFaults v
  | _ => noFaults

@[simp] theorem performWrite_mfault (w : Write) (s : State) :
    (performWrite w s).mfault = s.mfault.union (writeFaults w) := by
  cases w <;> simp [performWrite, writeFaults]

@[simp] theorem freqFaults_badState (v : F32) : (freqFaults v).badState = !pos32 v := by
  unfold freqFaults; split <;> simp_all [noFaults, onlyBadState]

/-- What `freqFaults` adds to a set. -/
theorem union_freqFaults (f : MFaults) (v : F32) : f.union (freqFaults v) = { f with badState := f.badState || !pos32 v } := by
  unfold freqFaults; split <;> simp_all [MFaults.union, noFaults, onlyBadState]

/-- The power-on state is a reset of itself with the free draw. -/
theorem reset_is_applyReset : State.reset = applyReset powerOnDraw State.reset := rfl

end Sys2Proof.Machine
end

