-- ==== Sys2Proof/Laws/Exec.lean ====
section
/-!
SUPPORT. What exec and the acceptance of a word can do, once: a control command replaces PENDING by its write set, RENDER
sets FRAMES_LEFT, a held command changes nothing.
-/
namespace Sys2Proof.Machine

/-- The write set of each control command (spec/44_parameter_surface.md R222 to R236); NOP and RENDER have none. -/
def commandWrites : Instr → State → List Write
  | .lfoFreqInc, s => [.lfoFreq (lfoFreqUp s)]
  | .lfoFreqDec, s => [.lfoFreq (lfoFreqDown s)]
  | .lfoDepthInc, s => [.lfoDepth (lfoDepthUp s)]
  | .lfoDepthDec, s => [.lfoDepth (lfoDepthDown s)]
  | .baseFreqInc, s => shiftWrites s (baseFreqUp s)
  | .baseFreqDec, s => shiftWrites s (baseFreqDown s)
  | .voicesInc, s => resizeWrites s (voiceCountUp s)
  | .voicesDec, s => resizeWrites s (voiceCountDown s)
  | .oscWaveNext, s => [.oscWave (nextWaveCode s.oscWave)]
  | .lfoWaveNext, s => [.lfoWave (nextWaveCode s.lfoWave)]
  | .setOscWave w, _ => [.oscWave w]
  | .setLfoWave w, _ => [.lfoWave w]
  | .setSineShape v, _ => [.sineShape v]
  | .clrErr, _ => [.errGroup]
  | .nop, s | .render _, s => s.pending

/-- The model faults an accepted command raises (R231). -/
def commandFaults : Instr → State → MFaults
  | .oscWaveNext, s => waveFaults s.oscWave
  | .lfoWaveNext, s => waveFaults s.lfoWave
  | _, _ => noFaults

/-- An accepted command of the control port. -/
theorem exec_control {i : Instr} {s : State} (hp : i.onPort .control = true) (h : s.pending = []) :
    exec i s = .next { s with pending := commandWrites i s, mfault := s.mfault.union (commandFaults i s) } := by
  have hb : ctrlBusy s = false := by simpa using h
  cases i <;>
    simp_all [Instr.onPort, exec, execNop, execLfoFreqInc, execLfoFreqDec, execLfoDepthInc, execLfoDepthDec,
      execBaseFreqInc, execBaseFreqDec, execVoicesInc, execVoicesDec, execOscWaveNext, execLfoWaveNext, execSetOscWave,
      execSetLfoWave, execSetSineShape, execClrErr, acceptWrites, commandWrites, commandFaults, nextWaveFault]
  cases s
  simp_all

/-- A command on its busy port changes nothing (log 17). -/
theorem exec_busy {i : Instr} {s : State} {p : Port} (hp : i.onPort p = true) (hb : portBusy p s = true) :
    exec i s = .next s := by
  cases p <;> cases i <;>
    simp_all [Instr.onPort, exec, execNop, execLfoFreqInc, execLfoFreqDec, execLfoDepthInc, execLfoDepthDec,
      execBaseFreqInc, execBaseFreqDec, execVoicesInc, execVoicesDec, execOscWaveNext, execLfoWaveNext, execSetOscWave,
      execSetLfoWave, execSetSineShape, execClrErr, acceptWrites, nextWaveFault, execRender, portBusy]

/-- RENDER on an idle engine port. -/
theorem exec_render {n : BitVec 24} {s : State} (h : s.framesLeft = 0#24) :
    exec (.render n) s = .next { s with framesLeft := n } := by
  have hn : engBusy s = false := by simpa using h
  simp [exec, execRender, hn]

/-- Everything exec can answer. -/
theorem exec_cases {i : Instr} {s t : State} (h : exec i s = .next t) :
    t = s ∨ (∃ n, i = .render n ∧ s.framesLeft = 0#24 ∧ t = { s with framesLeft := n }) ∨
    (i.onPort .control = true ∧ s.pending = [] ∧
      t = { s with pending := commandWrites i s, mfault := s.mfault.union (commandFaults i s) }) := by
  by_cases hp : i.onPort .control = true
  · by_cases hb : s.pending = []
    · right; right
      rw [exec_control hp hb] at h
      exact ⟨hp, hb, by simpa using h.symm⟩
    · left
      have := exec_busy (s := s) hp (p := .control) (by simp [portBusy, hb])
      rw [this] at h
      simpa using h.symm
  · obtain ⟨n, rfl⟩ : ∃ n, i = .render n := by cases i <;> simp_all [Instr.onPort]
    by_cases hb : s.framesLeft = 0#24
    · right; left
      rw [exec_render hb] at h
      exact ⟨n, rfl, hb, by simpa using h.symm⟩
    · left
      have hn : engBusy s = true := by simpa using hb
      simpa [exec, execRender, hn] using h.symm

/-- exec never faults and never refuses. -/
theorem exec_answers (i : Instr) (s : State) : ∃ t, exec i s = .next t := by
  by_cases hp : i.onPort .control = true
  · by_cases hb : s.pending = []
    · exact ⟨_, exec_control hp hb⟩
    · exact ⟨s, exec_busy hp (p := .control) (by simp [portBusy, hb])⟩
  · obtain ⟨n, rfl⟩ : ∃ n, i = .render n := by cases i <;> simp_all [Instr.onPort]
    unfold exec execRender
    simp only
    split <;> exact ⟨_, rfl⟩

/-- Acceptance of a word answers: exec of the decoded command, or the recorded rejection. -/
theorem acceptWord_cases {p : Port} {w : Word} {s t : State} (h : acceptWord p w s = .next t) :
    (∃ i, decode p w = .ok i ∧ exec i s = .next t) ∨
    (∃ c, decode p w = .error c ∧ t = raiseCmdError p c w s) := by
  unfold acceptWord at h
  split at h
  · exact .inl ⟨_, ‹_›, h⟩
  · exact .inr ⟨_, ‹_›, by simpa using h.symm⟩

theorem acceptWord_answers (p : Port) (w : Word) (s : State) : ∃ t, acceptWord p w s = .next t := by
  unfold acceptWord
  split
  · exact exec_answers _ _
  · exact ⟨_, rfl⟩

end Sys2Proof.Machine
end

