-- ==== Sys2Proof/Laws/Pending.lean ====
section
/-!
SUPPORT. PENDING as a set of pairs (spec/10_state.md R46): what one ControlWrite does, that pairs of different fields
commute, and that every write set is in canonical form.
-/
namespace Sys2Proof.Machine

/-- A ControlWrite with PENDING empty: nothing happens. -/
theorem controlWrite_idle (i : Nat) {s : State} (h : s.pending = []) : controlWrite i s = s := by
  simp [controlWrite, h]

/-- A ControlWrite performs the one pair at its place and removes it. -/
theorem controlWrite_busy (i : Nat) {s : State} (h : s.pending ≠ []) :
    ∃ (k : Nat) (hk : k < s.pending.length),
      controlWrite i s = performWrite s.pending[k] { s with pending := s.pending.eraseIdx k } := by
  have hl : 0 < s.pending.length := List.length_pos_iff.mpr h
  refine ⟨i % s.pending.length, Nat.mod_lt _ hl, ?_⟩
  simp [controlWrite, List.getElem?_eq_getElem (Nat.mod_lt i hl)]

/-- With one pair pending, that pair is performed, whichever place is asked for. -/
theorem controlWrite_single (i : Nat) {s : State} {w : Write} (h : s.pending = [w]) :
    controlWrite i s = performWrite w { s with pending := [] } := by
  simp [controlWrite, h, Nat.mod_one]

/-- A write reads nothing of PENDING. -/
theorem performWrite_withPending (w : Write) (s : State) (ws : List Write) :
    performWrite w { s with pending := ws } = { performWrite w s with pending := ws } := by
  cases w <;> rfl

/-- Writes of different fields commute (spec/20_memory.md R72). -/
theorem performWrite_comm {a b : Write} (h : a.field ≠ b.field) (s : State) :
    performWrite a (performWrite b s) = performWrite b (performWrite a s) := by
  cases a <;> cases b <;> first | rfl | exact absurd rfl h | skip
  rename_i j u k v
  have hne : j ≠ k := by rintro rfl; exact h rfl
  simp only [performWrite, State.mk.injEq, true_and, and_true]
  refine ⟨?_, by rw [union_assoc, union_assoc, union_comm (freqFaults v)]⟩
  apply List.ext_getElem?
  intro n
  simp only [List.getElem?_modify]
  by_cases h1 : k = n <;> by_cases h2 : j = n <;> simp_all

/-- Removing a pair keeps the canonical form. -/
theorem pendingWf_eraseIdx {ws : List Write} (h : pendingWf ws) (k : Nat) : pendingWf (ws.eraseIdx k) :=
  h.sublist (List.eraseIdx_sublist ws k)

/-- Performing one pair early, then the others in order, gives the same as performing all in order. -/
theorem foldl_performWrite_eraseIdx (ws : List Write) (h : pendingWf ws) (k : Nat) (hk : k < ws.length) (s : State) :
    (ws.eraseIdx k).foldl (fun u w => performWrite w u) (performWrite ws[k] s)
      = ws.foldl (fun u w => performWrite w u) s := by
  induction ws generalizing k s with
  | nil => exact absurd hk (Nat.not_lt_zero _)
  | cons a ws ih =>
    cases k with
    | zero => rfl
    | succ k =>
      have hk' : k < ws.length := by simpa using hk
      have hlt : a.field < ws[k].field := List.rel_of_pairwise_cons h (List.getElem_mem hk')
      have hc := performWrite_comm (Nat.ne_of_lt hlt) s
      simp only [List.eraseIdx_cons_succ, List.foldl_cons, List.getElem_cons_succ]
      rw [hc]
      exact ih h.of_cons k hk' (performWrite a s)

/-- The pairs of consecutive slots are in canonical form. -/
theorem pendingWf_voiceFreqWrites (g : Voice → F32) (vs : List Voice) : pendingWf (voiceFreqWrites g vs) := by
  unfold pendingWf voiceFreqWrites
  rw [List.pairwise_iff_getElem]
  intro i j hi hj hij
  simp only [List.getElem_mapIdx, Write.field]
  omega

theorem field_voiceFreqWrites {g : Voice → F32} {vs : List Voice} {w : Write} (h : w ∈ voiceFreqWrites g vs) :
    8 ≤ w.field := by
  obtain ⟨k, hk, rfl⟩ := List.mem_mapIdx.mp h
  simp [Write.field]

theorem pendingWf_shiftWrites (s : State) (new : F32) : pendingWf (shiftWrites s new) :=
  List.pairwise_cons.mpr ⟨fun _ hw => Nat.lt_of_lt_of_le (by decide : 0 < 8) (field_voiceFreqWrites hw),
    pendingWf_voiceFreqWrites _ _⟩

theorem pendingWf_resizeWrites (s : State) (c : Nat) : pendingWf (resizeWrites s c) :=
  List.pairwise_cons.mpr ⟨fun _ hw => Nat.lt_of_lt_of_le (by decide : 3 < 8) (field_voiceFreqWrites hw),
    pendingWf_voiceFreqWrites _ _⟩

theorem voiceFreqWrites_concat (g : Voice → F32) (vs : List Voice) (v : Voice) :
    voiceFreqWrites g (vs ++ [v]) = voiceFreqWrites g vs ++ [.voiceFreq vs.length (g v)] := by
  simp [voiceFreqWrites, List.mapIdx_append]

/-- Performing the pairs of the slots vs rewrites each of those slots' frequency, and marks a value that is not positive
(log 28). -/
theorem foldl_voiceFreqWrites (g : Voice → F32) (vs : List Voice) (s : State) :
    (voiceFreqWrites g vs).foldl (fun u w => performWrite w u) s = { s with
      voices := s.voices.mapIdx (fun k x => if h : k < vs.length then { x with freq := g vs[k] } else x)
      mfault := { s.mfault with badState := s.mfault.badState || vs.any (fun v => !pos32 (g v)) } } := by
  induction vs using List.reverseRecOn with
  | nil =>
    have : s.voices.mapIdx (fun _ v => v) = s.voices := by apply List.ext_getElem?; simp
    simp [voiceFreqWrites, this]
  | append_singleton vs v ih =>
    rw [voiceFreqWrites_concat, List.foldl_append, ih]
    simp only [List.foldl_cons, List.foldl_nil, performWrite, union_freqFaults, List.any_append, List.any_cons,
      List.any_nil, Bool.or_false, Bool.or_assoc, State.mk.injEq, true_and, and_true]
    apply List.ext_getElem (by simp)
    intro j h1 h2
    simp only [List.getElem_modify, List.getElem_mapIdx, List.length_append, List.length_singleton]
    by_cases h : vs.length = j
    · subst h; simp
    · by_cases h3 : j < vs.length
      · simp [h, h3, Nat.lt_succ_of_lt h3]
      · have : ¬ j < vs.length + 1 := by omega
        simp [h, h3, this]

/-- A ControlWrite keeps PENDING in canonical form (spec/10_state.md R46). -/
theorem pendingWf_controlWrite (i : Nat) {s : State} (h : pendingWf s.pending) : pendingWf (controlWrite i s).pending := by
  by_cases hp : s.pending = []
  · rwa [controlWrite_idle i hp]
  · obtain ⟨k, hk, he⟩ := controlWrite_busy i hp
    rw [he, performWrite_pending]
    exact pendingWf_eraseIdx h k

/-- PENDING is in canonical form after the power-on reset. -/
theorem pendingWf_reset : pendingWf State.reset.pending := List.Pairwise.nil

end Sys2Proof.Machine
end

