-- ==== Sys2Proof/Laws/Step.lean ====
section
/-!
SUPPORT. Everything one step can do, once: the six steps of spec/20_memory.md R70 on the block, with the model's own
fields (logs 1, 2, 11) moved along.
-/
namespace Sys2Proof.Machine

/-- Every command's write set is in canonical form; a command without one keeps PENDING. -/
theorem pendingWf_commandWrites (i : Instr) {s : State} (h : pendingWf s.pending) : pendingWf (commandWrites i s) := by
  cases i with
  | nop => exact h
  | render n => exact h
  | baseFreqInc => exact pendingWf_shiftWrites _ _
  | baseFreqDec => exact pendingWf_shiftWrites _ _
  | voicesInc => exact pendingWf_resizeWrites _ _
  | voicesDec => exact pendingWf_resizeWrites _ _
  | _ => exact List.pairwise_singleton _ _

/-- exec keeps PENDING in canonical form. -/
theorem pendingWf_exec {i : Instr} {s t : State} (h : exec i s = .next t) (hw : pendingWf s.pending) :
    pendingWf t.pending := by
  obtain rfl | ⟨n, -, -, rfl⟩ | ⟨-, -, rfl⟩ := exec_cases h
  · exact hw
  · exact hw
  · exact pendingWf_commandWrites i hw

/-- The state with other values in the model's own fields that steer the interleaving. -/
def withOwn (sc : List Action) (ch : Nat) (s : State) : State := { s with script := sc, choices := ch }

theorem dropAction_eq (s : State) : dropAction s = withOwn s.script.tail s.choices s := rfl
theorem spendChoice_eq (s : State) : spendChoice s = withOwn s.script (s.choices + 1) s := rfl
theorem withOwn_self (s : State) : withOwn s.script s.choices s = s := rfl
theorem withOwn_withOwn (a b : List Action) (c d : Nat) (s : State) :
    withOwn a c (withOwn b d s) = withOwn a c s := rfl

@[simp] theorem withOwn_cfg (sc : List Action) (ch : Nat) (s : State) : (withOwn sc ch s).cfg = s.cfg := rfl
@[simp] theorem withOwn_table (sc : List Action) (ch : Nat) (s : State) : (withOwn sc ch s).table = s.table := rfl
@[simp] theorem withOwn_baseFreq (sc : List Action) (ch : Nat) (s : State) : (withOwn sc ch s).baseFreq = s.baseFreq := rfl
@[simp] theorem withOwn_oscWave (sc : List Action) (ch : Nat) (s : State) : (withOwn sc ch s).oscWave = s.oscWave := rfl
@[simp] theorem withOwn_sineShape (sc : List Action) (ch : Nat) (s : State) : (withOwn sc ch s).sineShape = s.sineShape := rfl
@[simp] theorem withOwn_activeVoices (sc : List Action) (ch : Nat) (s : State) : (withOwn sc ch s).activeVoices = s.activeVoices := rfl
@[simp] theorem withOwn_voices (sc : List Action) (ch : Nat) (s : State) : (withOwn sc ch s).voices = s.voices := rfl
@[simp] theorem withOwn_lfoFreq (sc : List Action) (ch : Nat) (s : State) : (withOwn sc ch s).lfoFreq = s.lfoFreq := rfl
@[simp] theorem withOwn_lfoDepth (sc : List Action) (ch : Nat) (s : State) : (withOwn sc ch s).lfoDepth = s.lfoDepth := rfl
@[simp] theorem withOwn_lfoPhase (sc : List Action) (ch : Nat) (s : State) : (withOwn sc ch s).lfoPhase = s.lfoPhase := rfl
@[simp] theorem withOwn_lfoWave (sc : List Action) (ch : Nat) (s : State) : (withOwn sc ch s).lfoWave = s.lfoWave := rfl
@[simp] theorem withOwn_error (sc : List Action) (ch : Nat) (s : State) : (withOwn sc ch s).error = s.error := rfl
@[simp] theorem withOwn_framesLeft (sc : List Action) (ch : Nat) (s : State) : (withOwn sc ch s).framesLeft = s.framesLeft := rfl
@[simp] theorem withOwn_pending (sc : List Action) (ch : Nat) (s : State) : (withOwn sc ch s).pending = s.pending := rfl
@[simp] theorem withOwn_out (sc : List Action) (ch : Nat) (s : State) : (withOwn sc ch s).out = s.out := rfl
@[simp] theorem withOwn_mfault (sc : List Action) (ch : Nat) (s : State) : (withOwn sc ch s).mfault = s.mfault := rfl
@[simp] theorem withOwn_reads (sc : List Action) (ch : Nat) (s : State) : (withOwn sc ch s).reads = s.reads := rfl
@[simp] theorem withOwn_script (sc : List Action) (ch : Nat) (s : State) : (withOwn sc ch s).script = sc := rfl
@[simp] theorem withOwn_choices (sc : List Action) (ch : Nat) (s : State) : (withOwn sc ch s).choices = ch := rfl

@[simp] theorem engBusy_withOwn (sc : List Action) (ch : Nat) (s : State) : engBusy (withOwn sc ch s) = engBusy s := rfl
@[simp] theorem ctrlBusy_withOwn (sc : List Action) (ch : Nat) (s : State) : ctrlBusy (withOwn sc ch s) = ctrlBusy s := rfl
@[simp] theorem shapeOk_withOwn (sc : List Action) (ch : Nat) (s : State) : shapeOk (withOwn sc ch s) = shapeOk s := rfl
@[simp] theorem blockPart_withOwn (sc : List Action) (ch : Nat) (s : State) : blockPart (withOwn sc ch s) = blockPart s := rfl
@[simp] theorem portBusy_withOwn (p : Port) (sc : List Action) (ch : Nat) (s : State) :
    portBusy p (withOwn sc ch s) = portBusy p s := by cases p <;> rfl

/-- A tick answers exactly on states of the instance's sizes. -/
theorem frameTick_next {s t : State} (h : frameTick s = .next t) : shapeOk s = true ∧ t = tickState s := by
  unfold frameTick at h
  split at h
  · exact ⟨‹_›, by simpa using h.symm⟩
  · cases h

/-- A free ControlWrite performs some pair. -/
theorem freeWrite_eq (s : State) : ∃ (i : Nat) (ch : Nat), freeWrite s = controlWrite i (withOwn s.script ch s) := by
  unfold freeWrite
  split
  · exact ⟨0, s.choices, rfl⟩
  · exact ⟨_, s.choices + 1, rfl⟩

/-- The block's own moves. -/
theorem ownMove_next {s t : State} (h : ownMove s = .next t) :
    (s.framesLeft ≠ 0#24 ∧ shapeOk s = true ∧ ∃ ch, t = tickState (withOwn s.script ch s)) ∨
    (s.pending ≠ [] ∧ ∃ i ch, t = controlWrite i (withOwn s.script ch s)) ∨
    (s.framesLeft = 0#24 ∧ s.pending = [] ∧ t = s) := by
  unfold ownMove at h
  split at h
  · rename_i he
    split at h
    · rename_i hc
      split at h
      · obtain ⟨h1, h2⟩ := frameTick_next h
        exact .inl ⟨by simpa using he, h1, _, h2⟩
      · obtain ⟨i, ch, hw⟩ := freeWrite_eq (spendChoice s)
        refine .inr (.inl ⟨by simpa using hc, i, ch, ?_⟩)
        have ht : freeWrite (spendChoice s) = t := by simpa using h
        rw [← ht, hw]; rfl
    · obtain ⟨h1, h2⟩ := frameTick_next h
      exact .inl ⟨by simpa using he, h1, s.choices, h2⟩
  · rename_i he
    split at h
    · rename_i hc
      obtain ⟨i, ch, hw⟩ := freeWrite_eq s
      refine .inr (.inl ⟨by simpa using hc, i, ch, ?_⟩)
      have ht : freeWrite s = t := by simpa using h
      rw [← ht, hw]
    · rename_i hc
      exact .inr (.inr ⟨by simpa using he, by simpa using hc, by simpa using h.symm⟩)

/-- Everything a step can do. -/
inductive StepCase (s t : State) : Prop where
  | tick (sc : List Action) (ch : Nat) (busy : s.framesLeft ≠ 0#24) (shape : shapeOk s = true)
      (live : ∀ draw rest, s.script ≠ .reset draw :: rest) (eq : t = tickState (withOwn sc ch s))
  | write (i : Nat) (sc : List Action) (ch : Nat) (busy : s.pending ≠ []) (eq : t = controlWrite i (withOwn sc ch s))
  | accept (p : Port) (w : Word) (sc : List Action)
      (head : s.script = (match p with | .engine => .engine w | .control => .control w) :: sc)
      (idle : portBusy p s = false)
      (eq : acceptWord p w (withOwn sc s.choices s) = .next t)
  | read (a : Addr) (sc : List Action) (eq : t = readStep a (withOwn sc s.choices s))
  | reset (draw : List F32) (rest : List Action) (head : s.script = .reset draw :: rest) (ok : configOk s.cfg = true)
      (eq : t = applyReset draw (withOwn rest s.choices s))
  | rest (sc : List Action) (eq : t = withOwn sc s.choices s)

theorem StepCase.of_ownMove {s t : State} (live : ∀ draw rest, s.script ≠ .reset draw :: rest)
    (h : ownMove s = .next t) : StepCase s t := by
  obtain ⟨hb, hs, ch, rfl⟩ | ⟨hb, i, ch, rfl⟩ | ⟨-, -, rfl⟩ := ownMove_next h
  · exact .tick _ ch hb hs live rfl
  · exact .write i _ ch hb rfl
  · exact .rest t.script rfl

theorem step_cases {s t : State} (h : step s = .next t) : StepCase s t := by
  unfold step scriptStep at h
  split at h
  · rename_i hs; exact .of_ownMove (by simp [hs]) h
  · rename_i a rest hs
    have offer : ∀ p w, s.script = (match p with | .engine => .engine w | .control => .control w) :: rest →
        offerWord p w s = .next t → StepCase s t := by
      intro p w hp h
      unfold offerWord at h
      split at h
      · exact .of_ownMove (by rw [hp]; cases p <;> simp) h
      · rw [dropAction_eq, hp] at h
        exact .accept p w rest hp (by simpa using ‹¬ portBusy p s = true›) h
    cases a with
    | engine w => exact offer .engine w hs h
    | control w => exact offer .control w hs h
    | tick =>
      simp only [runAction] at h
      split at h
      · obtain ⟨h1, h2⟩ := frameTick_next h
        exact .tick _ s.choices (by simpa using ‹engBusy s = true›) h1 (by simp [hs]) h2
      · exact .rest _ (by simpa [dropAction_eq] using h.symm)
    | write i =>
      simp only [runAction, Host.Outcome.next.injEq] at h
      by_cases hp : s.pending = []
      · exact .rest s.script.tail (by rw [← h]; exact controlWrite_idle i hp)
      · exact .write i _ s.choices hp h.symm
    | read a =>
      simp only [runAction, Host.Outcome.next.injEq] at h
      exact .read a _ h.symm
    | reset draw =>
      simp only [runAction, resetStep] at h
      split at h
      · refine .reset draw rest hs ‹_› ?_
        have := h.symm
        simp only [Host.Outcome.next.injEq] at this
        rw [this, dropAction_eq, hs]; rfl
      · cases h
    | waitIdle =>
      simp only [runAction] at h
      split at h
      · exact .of_ownMove (by simp [hs]) h
      · exact .rest _ (by simpa [dropAction_eq] using h.symm)

end Sys2Proof.Machine
end

