-- ==== Sys2Proof/Laws/Tick.lean ====
section
/-!
SUPPORT. What one frame tick does to each field of the state (spec/43_engine.md R200), once.
-/
namespace Sys2Proof.Machine

/-- The multiplier of a tick from s. -/
def tickMultiplier (s : State) : F32 := lfoMultiplier (lfoValue (latch s) s) s.lfoDepth

/-- The increment of a voice in a tick from s. -/
def tickInc (s : State) (v : Voice) : F32 := voiceInc v.freq (tickMultiplier s) s.cfg.sampleRate

/-- A voice after the tick. -/
def tickVoice (s : State) (v : Voice) : Voice := { v with phase := advance v.phase (tickInc s v) }

/-- The voice count is one the tick mixes (spec/42_oscillator_bank.md R177). -/
abbrev countOk (s : State) : Prop := 1 ≤ s.activeVoices.toNat ∧ s.activeVoices.toNat ≤ s.cfg.maxVoices

/-- The sample of a tick from s. -/
def tickSample (s : State) : F32 :=
  if countOk s then
    mixSamples ((s.voices.take s.activeVoices.toNat).map
      (fun x => waveValue s.table s.cfg.tableLog2 s.oscWave s.sineShape x.phase)) s.activeVoices.toNat
  else zero32

/-- The voice file after a tick from s. -/
def tickVoices (s : State) : List Voice :=
  if countOk s then (s.voices.take s.activeVoices.toNat).map (tickVoice s) ++ s.voices.drop s.activeVoices.toNat
  else s.voices

/-- The model faults a tick from s raises. -/
def tickFaults (s : State) : MFaults :=
  ((waveFaults s.lfoWave).union (advanceFaults s.lfoPhase (div32 s.lfoFreq s.cfg.sampleRate))).union
    (if countOk s then
      (waveFaults s.oscWave).union (advanceVoicesFaults s.voices ((s.voices.take s.activeVoices.toNat).map (tickInc s)))
    else onlyBadState)

theorem advanceVoices_take (g : Voice → F32) (vs : List Voice) (n : Nat) :
    advanceVoices vs ((vs.take n).map g)
      = (vs.take n).map (fun v => { v with phase := advance v.phase (g v) }) ++ vs.drop n := by
  induction vs generalizing n with
  | nil => simp [advanceVoices]
  | cons v vs ih =>
    cases n with
    | zero => simp [advanceVoices]
    | succ n => simpa [advanceVoices, List.map_take] using ih n

/-- An advance never raises BAD_STATE. -/
@[simp] theorem advanceFaults_badState (p inc : F32) : (advanceFaults p inc).badState = false := by
  unfold advanceFaults
  split
  · split <;> rfl
  · rfl

/-- The names that the advances of the first n slots raise, name by name. -/
theorem advanceVoicesFaults_take (g : Voice → F32) (vs : List Voice) (n : Nat) :
    advanceVoicesFaults vs ((vs.take n).map g) = {
      nonfinite := (vs.take n).any (fun v => (advanceFaults v.phase (g v)).nonfinite)
      phaseRange := (vs.take n).any (fun v => (advanceFaults v.phase (g v)).phaseRange)
      badState := false } := by
  induction vs generalizing n with
  | nil => simp [advanceVoicesFaults, noFaults]
  | cons v vs ih =>
    cases n with
    | zero => simp [advanceVoicesFaults, noFaults]
    | succ n => simp only [List.take_succ_cons, List.map_cons, advanceVoicesFaults, ih n, MFaults.union,
        advanceFaults_badState, List.any_cons, Bool.or_false]

/-- Everything a tick does. -/
theorem tickState_eq (s : State) : tickState s = { s with
    lfoPhase := advance s.lfoPhase (div32 s.lfoFreq s.cfg.sampleRate)
    voices := tickVoices s
    out := s.out ++ [{ left := tickSample s, right := tickSample s }]
    framesLeft := s.framesLeft - 1#24
    mfault := s.mfault.union (tickFaults s) } := by
  have hmap : ∀ n, (((s.voices.map (·.freq)).take n).map
      (fun f => voiceInc f (tickMultiplier s) s.cfg.sampleRate)) = (s.voices.take n).map (tickInc s) := by
    intro n; rw [← List.map_take, List.map_map]; rfl
  by_cases hc : countOk s
  · have hn : ¬ (s.activeVoices.toNat < 1 ∨ s.cfg.maxVoices < s.activeVoices.toNat) := by
      simp only [countOk] at hc; omega
    have hm : lfoMultiplier (lfoValue (latch s) s) (latch s).lfoDepth = tickMultiplier s := rfl
    have e1 : tickVoices s = (s.voices.take s.activeVoices.toNat).map (tickVoice s)
        ++ s.voices.drop s.activeVoices.toNat := if_pos hc
    have e2 : tickSample s = mixSamples ((s.voices.take s.activeVoices.toNat).map
        (fun x => waveValue s.table s.cfg.tableLog2 s.oscWave s.sineShape x.phase)) s.activeVoices.toNat := if_pos hc
    rw [e1, e2, tickFaults, if_pos hc]
    simp only [tickState, lfoTick, oscTick, emit, addFaults, latch, hn, if_false, union_assoc] at hm ⊢
    rw [hm, hmap, advanceVoices_take]
    rfl
  · have hn : s.activeVoices.toNat < 1 ∨ s.cfg.maxVoices < s.activeVoices.toNat := by
      simp only [countOk] at hc; omega
    have e1 : tickVoices s = s.voices := if_neg hc
    have e2 : tickSample s = zero32 := if_neg hc
    rw [e1, e2, tickFaults, if_neg hc]
    simp only [tickState, lfoTick, oscTick, emit, addFaults, latch, hn, if_true, union_assoc]
    rfl

/-! The tick's result field by field. -/

@[simp] theorem tickState_cfg (s : State) : (tickState s).cfg = s.cfg := by rw [tickState_eq]
@[simp] theorem tickState_table (s : State) : (tickState s).table = s.table := by rw [tickState_eq]
@[simp] theorem tickState_baseFreq (s : State) : (tickState s).baseFreq = s.baseFreq := by rw [tickState_eq]
@[simp] theorem tickState_oscWave (s : State) : (tickState s).oscWave = s.oscWave := by rw [tickState_eq]
@[simp] theorem tickState_sineShape (s : State) : (tickState s).sineShape = s.sineShape := by rw [tickState_eq]
@[simp] theorem tickState_activeVoices (s : State) : (tickState s).activeVoices = s.activeVoices := by rw [tickState_eq]
@[simp] theorem tickState_voices (s : State) : (tickState s).voices = tickVoices s := by rw [tickState_eq]
@[simp] theorem tickState_lfoFreq (s : State) : (tickState s).lfoFreq = s.lfoFreq := by rw [tickState_eq]
@[simp] theorem tickState_lfoDepth (s : State) : (tickState s).lfoDepth = s.lfoDepth := by rw [tickState_eq]
@[simp] theorem tickState_lfoPhase (s : State) :
    (tickState s).lfoPhase = advance s.lfoPhase (div32 s.lfoFreq s.cfg.sampleRate) := by rw [tickState_eq]
@[simp] theorem tickState_lfoWave (s : State) : (tickState s).lfoWave = s.lfoWave := by rw [tickState_eq]
@[simp] theorem tickState_error (s : State) : (tickState s).error = s.error := by rw [tickState_eq]
@[simp] theorem tickState_framesLeft (s : State) : (tickState s).framesLeft = s.framesLeft - 1#24 := by rw [tickState_eq]
@[simp] theorem tickState_pending (s : State) : (tickState s).pending = s.pending := by rw [tickState_eq]
@[simp] theorem tickState_out (s : State) :
    (tickState s).out = s.out ++ [{ left := tickSample s, right := tickSample s }] := by rw [tickState_eq]
@[simp] theorem tickState_mfault (s : State) : (tickState s).mfault = s.mfault.union (tickFaults s) := by rw [tickState_eq]
@[simp] theorem tickState_script (s : State) : (tickState s).script = s.script := by rw [tickState_eq]
@[simp] theorem tickState_reads (s : State) : (tickState s).reads = s.reads := by rw [tickState_eq]
@[simp] theorem tickState_choices (s : State) : (tickState s).choices = s.choices := by rw [tickState_eq]

/-- A tick writes no frequency and no ratio. -/
theorem tickVoices_map {α : Type} (g : Voice → α) (hg : ∀ v p, g { v with phase := p } = g v) (s : State) :
    (tickVoices s).map g = s.voices.map g := by
  unfold tickVoices
  split
  · have hm : ((s.voices.take s.activeVoices.toNat).map (tickVoice s)).map g
        = (s.voices.take s.activeVoices.toNat).map g := by
      rw [List.map_map]
      exact List.map_congr_left (fun v _ => hg v _)
    rw [List.map_append, hm, ← List.map_append, List.take_append_drop]
  · rfl

/-- A test that does not look at the phase holds of the same slots after the tick. -/
theorem tickVoices_all (g : Voice → Bool) (hg : ∀ v p, g { v with phase := p } = g v) (s : State) :
    (tickVoices s).all g = s.voices.all g := by
  have := congrArg (List.all · id) (tickVoices_map g hg s)
  simpa [List.all_map] using this

@[simp] theorem tickVoices_length (s : State) : (tickVoices s).length = s.voices.length := by
  have := congrArg List.length (tickVoices_map (fun _ => ()) (fun _ _ => rfl) s)
  simpa using this

end Sys2Proof.Machine
end

