-- ==== Sys2Proof/Laws/Own.lean ====
section
/-!
SUPPORT. The block's steps do not depend on the model's own fields `script` and `choices` (logs 1, 2) and carry them along.
-/
namespace Sys2Proof.Machine

theorem controlWrite_withOwn (i : Nat) (sc : List Action) (ch : Nat) (s : State) :
    controlWrite i (withOwn sc ch s) = withOwn sc ch (controlWrite i s) := by
  unfold controlWrite withOwn
  simp only
  split <;> rename_i h
  · rename_i w; cases w <;> rfl
  · rfl

theorem tickState_withOwn (sc : List Action) (ch : Nat) (s : State) :
    tickState (withOwn sc ch s) = withOwn sc ch (tickState s) := by
  simp only [tickState_eq]
  rfl

theorem applyReset_withOwn (d : List F32) (sc : List Action) (ch : Nat) (s : State) :
    applyReset d (withOwn sc ch s) = withOwn sc ch (applyReset d s) := rfl

theorem exec_withOwn {i : Instr} {s u : State} (sc : List Action) (ch : Nat) (h : exec i s = .next u) :
    exec i (withOwn sc ch s) = .next (withOwn sc ch u) := by
  by_cases hp : i.onPort .control = true
  · by_cases hq : s.pending = []
    · rw [exec_control hp hq] at h
      rw [exec_control (s := withOwn sc ch s) hp hq]
      simp only [Host.Outcome.next.injEq] at h ⊢
      rw [← h]
      cases i <;> rfl
    · have hb : portBusy .control s = true := by simp [portBusy, hq]
      rw [exec_busy hp hb] at h
      rw [exec_busy hp (by simpa using hb)]
      simp only [Host.Outcome.next.injEq] at h ⊢
      rw [h]
  · obtain ⟨n, rfl⟩ : ∃ n, i = .render n := by cases i <;> simp_all [Instr.onPort]
    by_cases hf : s.framesLeft = 0#24
    · rw [exec_render hf] at h
      rw [exec_render (s := withOwn sc ch s) hf]
      simp only [Host.Outcome.next.injEq] at h ⊢
      rw [← h]; rfl
    · have hb : portBusy .engine s = true := by simp [portBusy, hf]
      rw [exec_busy rfl hb] at h
      rw [exec_busy rfl (by simpa using hb)]
      simp only [Host.Outcome.next.injEq] at h ⊢
      rw [h]

theorem acceptWord_withOwn {p : Port} {w : Word} {s u : State} (sc : List Action) (ch : Nat)
    (h : acceptWord p w s = .next u) : acceptWord p w (withOwn sc ch s) = .next (withOwn sc ch u) := by
  obtain ⟨i, hd, he⟩ | ⟨c, hd, rfl⟩ := acceptWord_cases h
  · simp [acceptWord, hd, exec_withOwn sc ch he]
  · simp only [acceptWord, hd]; rfl

end Sys2Proof.Machine
end

