-- ==== Sys2Proof/Laws/PerInstr.lean ====
section
/-!
SUPPORT. The opcode map (spec/30_encoding.md R93), instruction by instruction: the row at a command's opcode has the
command's port column.
-/
namespace Sys2Proof.Laws.OpcodeRow

/-- The row of the command's opcode exists, and admits exactly the ports the command belongs to. -/
def Statement (i : Instr) : Prop :=
  ∃ c f, opcodeMap i.opcode = some (c, f) ∧ ∀ p, c.admits p = i.onPort p

theorem nop : Statement .nop := ⟨_, _, rfl, fun p => by cases p <;> rfl⟩
theorem lfoFreqInc : Statement .lfoFreqInc := ⟨_, _, rfl, fun p => by cases p <;> rfl⟩
theorem lfoFreqDec : Statement .lfoFreqDec := ⟨_, _, rfl, fun p => by cases p <;> rfl⟩
theorem lfoDepthInc : Statement .lfoDepthInc := ⟨_, _, rfl, fun p => by cases p <;> rfl⟩
theorem lfoDepthDec : Statement .lfoDepthDec := ⟨_, _, rfl, fun p => by cases p <;> rfl⟩
theorem baseFreqInc : Statement .baseFreqInc := ⟨_, _, rfl, fun p => by cases p <;> rfl⟩
theorem baseFreqDec : Statement .baseFreqDec := ⟨_, _, rfl, fun p => by cases p <;> rfl⟩
theorem voicesInc : Statement .voicesInc := ⟨_, _, rfl, fun p => by cases p <;> rfl⟩
theorem voicesDec : Statement .voicesDec := ⟨_, _, rfl, fun p => by cases p <;> rfl⟩
theorem oscWaveNext : Statement .oscWaveNext := ⟨_, _, rfl, fun p => by cases p <;> rfl⟩
theorem lfoWaveNext : Statement .lfoWaveNext := ⟨_, _, rfl, fun p => by cases p <;> rfl⟩
theorem setOscWave (w : BitVec 2) : Statement (.setOscWave w) := ⟨_, _, rfl, fun p => by cases p <;> rfl⟩
theorem setLfoWave (w : BitVec 2) : Statement (.setLfoWave w) := ⟨_, _, rfl, fun p => by cases p <;> rfl⟩
theorem setSineShape (s : BitVec 1) : Statement (.setSineShape s) := ⟨_, _, rfl, fun p => by cases p <;> rfl⟩
theorem clrErr : Statement .clrErr := ⟨_, _, rfl, fun p => by cases p <;> rfl⟩
theorem render (n : BitVec 24) : Statement (.render n) := ⟨_, _, rfl, fun p => by cases p <;> rfl⟩

end Sys2Proof.Laws.OpcodeRow
end

