-- ==== Sys2Proof/Laws/Sine.lean ====
section
/-!
SUPPORT. The executed check of a table against the sine is R121(a) of spec/40_phase_and_wavetable.md on real numbers, both
ways.
-/
namespace Sys2Proof.Machine

/-- o says how x compares with y. -/
def Compares (o : Ordering) (x y : ℝ) : Prop := (o = .lt ↔ x < y) ∧ (o = .gt ↔ y < x)

theorem Compares.of_lt {x y : ℝ} (h : x < y) : Compares .lt x y := by simp [Compares, h, h.le]
theorem Compares.of_gt {x y : ℝ} (h : y < x) : Compares .gt x y := by simp [Compares, h, h.le]

theorem Compares.swap {o : Ordering} {x y u v : ℝ} (h : Compares o u v) (hl : x < y ↔ v < u) (hg : y < x ↔ u < v) :
    Compares o.swap x y := by
  obtain ⟨h1, h2⟩ := h
  cases o <;> simp_all [Compares]

theorem Compares.of_iff {o : Ordering} {x y u v : ℝ} (h : Compares o u v) (hl : x < y ↔ u < v) (hg : y < x ↔ v < u) :
    Compares o x y := ⟨h.1.trans hl.symm, h.2.trans hg.symm⟩

/-- The angle of j / 2^m turns. -/
noncomputable def turns (m j : Nat) : ℝ := 2 * Real.pi * (j : ℝ) / 2 ^ m

theorem turns_succ (m j : Nat) : turns m j = 2 * turns (m + 1) j := by
  unfold turns
  rw [pow_succ]
  field_simp

theorem cos_turns_mod (m j : Nat) : Real.cos (turns m j) = Real.cos (turns m (j % 2 ^ m)) := by
  have h : turns m j = turns m (j % 2 ^ m) + (j / 2 ^ m : Nat) * (2 * Real.pi) := by
    have e : (j : ℝ) = (j % 2 ^ m : Nat) + (2 : ℝ) ^ m * (j / 2 ^ m : Nat) := by
      exact_mod_cast (Nat.mod_add_div j (2 ^ m)).symm
    unfold turns
    rw [e]
    field_simp
  rw [h, Real.cos_add_nat_mul_two_pi]

/-- `cosNonneg` is the sign of the cosine. -/
theorem cosNonneg_iff (m j : Nat) : cosNonneg m j = true ↔ 0 ≤ Real.cos (turns m j) := by
  rw [cos_turns_mod]
  have hr : j % 2 ^ m < 2 ^ m := Nat.mod_lt _ (by positivity)
  unfold cosNonneg
  generalize j % 2 ^ m = r at hr ⊢
  have hp : (0 : ℝ) < 2 ^ m := by positivity
  have hpi := Real.pi_pos
  have e : turns m r = 2 * Real.pi * ((r : ℝ) / 2 ^ m) := by unfold turns; ring
  have hr' : (r : ℝ) / 2 ^ m < 1 := by rw [div_lt_one hp]; exact_mod_cast hr
  have h0 : 0 ≤ (r : ℝ) / 2 ^ m := by positivity
  have q1 : 4 * r ≤ 2 ^ m ↔ (r : ℝ) / 2 ^ m ≤ 1 / 4 := by
    rw [div_le_iff₀ hp, ← Nat.cast_le (α := ℝ)]
    push_cast
    constructor <;> intro h <;> linarith
  have q3 : 3 * 2 ^ m ≤ 4 * r ↔ 3 / 4 ≤ (r : ℝ) / 2 ^ m := by
    rw [le_div_iff₀ hp, ← Nat.cast_le (α := ℝ)]
    push_cast
    constructor <;> intro h <;> linarith
  rw [Bool.or_eq_true, decide_eq_true_eq, decide_eq_true_eq, q1, q3, e]
  generalize (r : ℝ) / 2 ^ m = x at *
  constructor
  · rintro (h | h)
    · exact Real.cos_nonneg_of_mem_Icc ⟨by nlinarith, by nlinarith⟩
    · rw [← Real.cos_sub_two_pi]
      exact Real.cos_nonneg_of_mem_Icc ⟨by nlinarith, by nlinarith⟩
  · intro h
    by_contra hc
    push Not at hc
    exact absurd (Real.cos_neg_of_pi_div_two_lt_of_lt (by nlinarith [hc.1]) (by nlinarith [hc.2])) (not_lt.mpr h)

/-- The comparison is exact. -/
theorem compareCos_spec (m j : Nat) (n : Int) (d : Nat) (hd : 0 < d) :
    Compares (compareCos m j n d) ((n : ℝ) / d) (Real.cos (turns m j)) := by
  induction m generalizing n d with
  | zero =>
    have hd' : (0 : ℝ) < d := by exact_mod_cast hd
    have hc : Real.cos (turns 0 j) = 1 := by
      rw [cos_turns_mod]; simp [turns, Nat.mod_one]
    have hl : (n : ℝ) / d < 1 ↔ n < d := by rw [div_lt_one hd']; exact_mod_cast Iff.rfl
    have hg : 1 < (n : ℝ) / d ↔ (d : Int) < n := by rw [one_lt_div hd']; exact_mod_cast Iff.rfl
    rw [hc]
    exact ⟨by rw [hl]; exact compare_lt_iff_lt, by rw [hg]; exact compare_gt_iff_gt⟩
  | succ m ih =>
    have hd' : (0 : ℝ) < d := by exact_mod_cast hd
    have h1 := Real.cos_le_one (turns (m + 1) j)
    have h2 := Real.neg_one_le_cos (turns (m + 1) j)
    have hs := cosNonneg_iff (m + 1) j
    have hsq : Real.cos (turns m j) = 2 * Real.cos (turns (m + 1) j) ^ 2 - 1 := by
      rw [turns_succ, Real.cos_two_mul]
    have hr : ((2 * n ^ 2 - (d : Int) ^ 2 : Int) : ℝ) / (d ^ 2 : Nat) = 2 * ((n : ℝ) / d) ^ 2 - 1 := by
      push_cast
      field_simp
    have hi := ih (2 * n ^ 2 - (d : Int) ^ 2) (d ^ 2) (by positivity)
    rw [hr, hsq] at hi
    have hn0 : ((n : ℝ) / d < 0) ↔ n < 0 := by rw [div_lt_iff₀ hd', zero_mul]; exact_mod_cast Iff.rfl
    have hng : 1 < (n : ℝ) / d ↔ (d : Int) < n := by rw [one_lt_div hd']; exact_mod_cast Iff.rfl
    have hnl : (n : ℝ) / d < -1 ↔ n < -(d : Int) := by
      rw [div_lt_iff₀ hd', neg_one_mul]; exact_mod_cast Iff.rfl
    unfold compareCos
    generalize (n : ℝ) / d = x at *
    generalize Real.cos (turns (m + 1) j) = c at *
    split
    · rename_i h; exact .of_gt (by have := hng.mpr h; linarith)
    · split
      · rename_i h; exact .of_lt (by have := hnl.mpr h; linarith)
      · split
        · rename_i h
          have hc := hs.mp h
          split
          · rename_i hn; exact .of_lt (lt_of_lt_of_le (hn0.mpr hn) hc)
          · rename_i hn
            have hx : 0 ≤ x := by rw [← not_lt, hn0]; exact hn
            refine hi.of_iff ?_ ?_
            · constructor <;> intro h <;> nlinarith
            · constructor <;> intro h <;> nlinarith
        · rename_i h
          have hc : c < 0 := by rw [← not_le, ← hs]; exact h
          split
          · rename_i hn
            have hx : 0 ≤ x := by rw [← not_lt, hn0]; omega
            exact .of_gt (lt_of_lt_of_le hc hx)
          · rename_i hn
            have hx : x < 0 := hn0.mpr (by omega)
            refine hi.swap ?_ ?_
            · constructor <;> intro h <;> nlinarith
            · constructor <;> intro h <;> nlinarith

/-- The angle `sineNear` compares at. -/
theorem cos_turns_sine (l i : Nat) :
    Real.cos (turns (l + 2) (4 * i + 3 * 2 ^ l)) = Real.sin (2 * Real.pi * (i : ℝ) / 2 ^ l) := by
  have h : turns (l + 2) (4 * i + 3 * 2 ^ l) = 2 * Real.pi * (i : ℝ) / 2 ^ l - Real.pi / 2 + 2 * Real.pi := by
    unfold turns
    rw [pow_add]
    push_cast
    field_simp
    ring
  rw [h, Real.cos_add_two_pi, Real.cos_sub_pi_div_two]

/-- One entry's check is its distance to the sine. -/
theorem sineNear_iff (l i : Nat) (x : F32) : sineNear l i x = true ↔
    |((realValue x : ℚ) : ℝ) - Real.sin (2 * Real.pi * (i : ℝ) / 2 ^ l)| ≤ 1 / 100000 := by
  have hx : ((realValue x : ℚ) : ℝ) = (units32 x : ℝ) / 2 ^ 149 := by simp [realValue]
  have hlo := compareCos_spec (l + 2) (4 * i + 3 * 2 ^ l) (100000 * units32 x - 2 ^ 149) (100000 * 2 ^ 149) (by positivity)
  have hhi := compareCos_spec (l + 2) (4 * i + 3 * 2 ^ l) (100000 * units32 x + 2 ^ 149) (100000 * 2 ^ 149) (by positivity)
  rw [cos_turns_sine] at hlo hhi
  have elo : ((100000 * units32 x - 2 ^ 149 : Int) : ℝ) / (100000 * 2 ^ 149 : Nat) = (units32 x : ℝ) / 2 ^ 149 - 1 / 100000 := by
    push_cast
    field_simp
    ring
  have ehi : ((100000 * units32 x + 2 ^ 149 : Int) : ℝ) / (100000 * 2 ^ 149 : Nat) = (units32 x : ℝ) / 2 ^ 149 + 1 / 100000 := by
    push_cast
    field_simp
    ring
  rw [elo] at hlo
  rw [ehi] at hhi
  unfold sineNear
  rw [Bool.and_eq_true, bne_iff_ne, bne_iff_ne, ne_eq, ne_eq, hlo.2, hhi.1, not_lt, not_lt, hx, abs_le]
  constructor <;> rintro ⟨a, b⟩ <;> constructor <;> linarith

/-- The executed check of a table of N = 2^l entries is R121(a). -/
theorem tableNear_iff {l : Nat} {table : List F32} (h : table.length = 2 ^ l) :
    tableNear l table = true ↔ tableNearSine table := by
  have hc : (table.length : ℝ) = 2 ^ l := by rw [h]; push_cast; rfl
  unfold tableNear tableNearSine
  simp only [List.all_eq_true, hc, ← sineNear_iff]
  constructor
  · intro hall i hi
    exact hall (table[i], i) (by rw [List.mk_mem_zipIdx_iff_getElem?]; exact List.getElem?_eq_getElem hi)
  · rintro hall ⟨x, i⟩ hp
    rw [List.mk_mem_zipIdx_iff_getElem?] at hp
    obtain ⟨hi, rfl⟩ := List.getElem?_eq_some_iff.mp hp
    exact hall i hi

end Sys2Proof.Machine
end

