-- ==== Sys2Proof/Tests/Slice0.lean ====
section
/-!
SUPPORT. The model's own tests, and a witness for the hypotheses of each statement. Expected values are the spec's: the
vectors PW, LF, OB, EN, PS, DC, RB of spec/95_test_vectors.md, on its instance and detune draw with the four table entries
TEX[0], TEX[64], TEX[128], TEX[192] as a table of N = 4.
-/
namespace Sys2Proof.Machine

set_option Elab.async false

/-- The vectors' instance with N = 4. -/
def testConfig : Config :=
  { fallbackConfig with tableLog2 := 2, tableValue := [0x00000000#32, 0x3F800000#32, 0x250D3132#32, 0xBF800000#32] }

/-- The vectors' draw DR. -/
def testDraw : List F32 := [0x3F800000#32, 0x3F8147AE#32, 0x3F7D70A4#32, 0x3F80A3D7#32, 0x3F7EB852#32]

/-- The vectors' start: the state after reset with the draw DR. -/
def testState : State := applyReset testDraw { State.reset with cfg := testConfig }

/-- The test state with a script. -/
def scripted (l : List Action) : State := { testState with script := l }

def nextOf (r : Result) : Option State :=
  match r with
  | .next t => some t
  | .fault _ => none
  | .refused _ => none

/-- PENDING after a command from a state. -/
def pendingAfter (i : Instr) (s : State) : Option (List Write) := (nextOf (exec i s)).map (·.pending)

/-! ## Syntax and decoding -/

theorem test_wellFormed_refuses_osc_wave_3 : (Instr.setOscWave 3#2).wellFormed = false := by decide
theorem test_wellFormed_refuses_lfo_wave_3 : (Instr.setLfoWave 3#2).wellFormed = false := by decide
theorem test_wellFormed_waves : [0#2, 1#2, 2#2].all (fun w => (Instr.setOscWave w).wellFormed) = true := by decide
theorem test_ports : Instr.nop.onPort .engine = true ∧ (Instr.render 1#24).onPort .control = false ∧
    Instr.clrErr.onPort .engine = false := by decide

/-- Words built field by field from R90 and R93: OPC above ARG. -/
theorem test_decode_form_z :
    decode .control (0x00#8 ++ 0#24) = .ok .nop ∧ decode .control (0x01#8 ++ 0#24) = .ok .lfoFreqInc ∧
    decode .control (0x02#8 ++ 0#24) = .ok .lfoFreqDec ∧ decode .control (0x03#8 ++ 0#24) = .ok .lfoDepthInc ∧
    decode .control (0x04#8 ++ 0#24) = .ok .lfoDepthDec ∧ decode .control (0x05#8 ++ 0#24) = .ok .baseFreqInc ∧
    decode .control (0x06#8 ++ 0#24) = .ok .baseFreqDec ∧ decode .control (0x07#8 ++ 0#24) = .ok .voicesInc ∧
    decode .control (0x08#8 ++ 0#24) = .ok .voicesDec ∧ decode .control (0x09#8 ++ 0#24) = .ok .oscWaveNext ∧
    decode .control (0x0A#8 ++ 0#24) = .ok .lfoWaveNext ∧ decode .control (0x0E#8 ++ 0#24) = .ok .clrErr ∧
    decode .engine (0x00#8 ++ 0#24) = .ok .nop := by decide

theorem test_decode_forms_w_s_n :
    decode .control (0x0B#8 ++ 0#22 ++ 0b10#2) = .ok (.setOscWave 2#2) ∧
    decode .control (0x0C#8 ++ 0#22 ++ 0b01#2) = .ok (.setLfoWave 1#2) ∧
    decode .control (0x0D#8 ++ 0#23 ++ 0b1#1) = .ok (.setSineShape 1#1) ∧
    decode .engine (0x80#8 ++ 0xBB80#24) = .ok (.render 48000#24) := by decide

theorem test_decode_table_word : decodeTableWord 32 0x8000BB80 = some (.render 48000#24) ∧
    decodeTableWord 32 0x0B000003 = none ∧ decodeTableWord 32 0x0E000000 = some .clrErr := by decide

/-- DC-1 to DC-11 and DC-14: the cause of each word. -/
theorem test_decode_causes :
    decode .control 0x0B000003#32 = .error .badWave ∧ decode .control 0x0B000007#32 = .error .reservedArg ∧
    decode .engine 0x0B000003#32 = .error .wrongPort ∧ decode .engine 0x7F000000#32 = .error .illegalOpcode ∧
    decode .control 0x81000000#32 = .error .illegalOpcode ∧ decode .control 0x80000010#32 = .error .wrongPort ∧
    decode .engine 0x05000000#32 = .error .wrongPort ∧ decode .control 0x01000001#32 = .error .reservedArg ∧
    decode .control 0x0D000002#32 = .error .reservedArg ∧ decode .engine 0x00000001#32 = .error .reservedArg ∧
    decode .control 0x0E000001#32 = .error .reservedArg ∧ decode .control 0x0F000000#32 = .error .illegalOpcode := by
  decide

theorem test_assemble : assemble (.command "SET_OSC_WAVE" (.wave .sawtooth)) = some 0x0B000001#32 ∧
    assemble .tick = some 0x80000001#32 ∧ assemble (.command "RENDER" (.count 16777216)) = none ∧
    assemble (.word 0x7F000000#32) = some 0x7F000000#32 := by decide

/-! ## Numbers and waveforms -/

/-- f32(0.9) + f32(0.3), f32(0.1) - f32(0.3), PW-6's sums before the wrap; and OB-1's product and quotient. -/
theorem test_arithmetic : mul32 0x43700000#32 0x3F4CCCCD#32 = 0x43400000#32 ∧
    div32 0x43400000#32 0x473B8000#32 = 0x3B83126F#32 ∧ sub32 0x43660000#32 0x43700000#32 = 0xC1200000#32 ∧
    add32 0x43726666#32 0x41200000#32 = 0x437C6666#32 := by decide +kernel

/-- PW-1, PW-3, PW-7 (N = 256). -/
theorem test_tableIndex : [1, 2, 3].map (tableIndex 8 0x3ECCCCCD#32) = [102, 204, 51] ∧
    [1, 2, 3].map (tableIndex 8 0x3F7FFFFF#32) = [255, 255, 255] ∧
    [1, 2, 3].map (tableIndex 8 0x3BD55555#32) = [1, 3, 5] := by decide +kernel

/-- PW-6, PW-8. -/
theorem test_advance : advance 0x3F666666#32 0x3E99999A#32 = 0x3E4CCCD0#32 ∧
    advance 0x3DCCCCCD#32 0xBE99999A#32 = 0x3F4CCCCC#32 ∧ advance 0x3F7FFFFF#32 0x3F7FFFFF#32 = 0x3F7FFFFE#32 ∧
    advance 0x00000000#32 0xB3000000#32 = 0x00000000#32 ∧ advance 0x00000000#32 0xB3000001#32 = 0x3F7FFFFF#32 := by
  decide +kernel

/-- PW-9. -/
theorem test_advance_faults : (advanceFaults 0x3F000000#32 0x3FC00000#32).phaseRange = true ∧
    (advanceFaults 0x00000000#32 0x7F800000#32).nonfinite = true := by decide +kernel

/-- PW-11 to PW-13. -/
theorem test_saw_square : saw 0x3E800000#32 = 0xBF000000#32 ∧ saw 0x3F7FFFFF#32 = 0x3F7FFFFE#32 ∧
    saw 0x32800000#32 = 0xBF800000#32 ∧ saw 0x32C00000#32 = 0xBF7FFFFF#32 ∧ square 0x3EFFFFFF#32 = 0xBF800000#32 ∧
    square 0x3F000000#32 = 0x3F800000#32 := by decide +kernel

/-- PW-15, whose three entries TEX[64], TEX[128], TEX[192] are entries 1, 2, 3 of the test table. -/
theorem test_harmonicSine : harmonicSine testConfig.tableValue 2 0x3E800000#32 = 0x24AAAAAB#32 := by decide +kernel

/-- LF-6, LF-12. -/
theorem test_multiplier : lfoMultiplier 0xBF800000#32 0x3E4CCCCD#32 = 0x3F4CCCCD#32 ∧
    lfoMultiplier 0x3F800000#32 0x3E4CCCCD#32 = 0x3F99999A#32 ∧ lfoMultiplier 0xBF800000#32 0x40000000#32 = 0xBF800000#32 := by
  decide +kernel

/-- OB-4, OB-6, OB-10 (this spec's rule). -/
theorem test_mix : mixSamples [0xBF4CCCCD#32, 0x00000000#32, 0x3F4CCCCC#32] 3 = 0xB2AAAAAB#32 ∧
    mixSamples [0x3F800000#32, 0x3F800000#32, 0xBF800000#32] 3 = 0x3EAAAAAB#32 ∧
    mixSamples (List.replicate 5 0x3F4CCCCF#32) 5 = 0x3F4CCCCF#32 := by decide +kernel

/-! ## Commands -/

theorem test_reset_voices : testState.voices.map (·.freq)
    = [0x43700000#32, 0x43726666#32, 0x436D999A#32, 0x43713333#32, 0x436ECCCD#32] := by decide +kernel

theorem test_nop : nextOf (exec .nop testState) = some testState := by decide +kernel

/-- EN-4. -/
theorem test_render : (nextOf (exec (.render 48000#24) testState)).map (fun t => (t.framesLeft, statusWord t))
    = some (48000#24, 0x200#32) := by decide +kernel

/-- PS-1, PS-2. -/
theorem test_lfoFreqInc : pendingAfter .lfoFreqInc testState = some [.lfoFreq 0x41300000#32] ∧
    pendingAfter .lfoFreqInc { testState with lfoFreq := 0x41A00000#32 } = some [.lfoFreq 0x41A00000#32] := by
  decide +kernel

/-- PS-3. -/
theorem test_lfoFreqDec : pendingAfter .lfoFreqDec testState = some [.lfoFreq 0x41100000#32] ∧
    pendingAfter .lfoFreqDec { testState with lfoFreq := 0x00000000#32 } = some [.lfoFreq 0x00000000#32] := by
  decide +kernel

/-- PS-4, its first and its 18th step. -/
theorem test_lfoDepthInc : pendingAfter .lfoDepthInc testState = some [.lfoDepth 0x3E99999A#32] ∧
    pendingAfter .lfoDepthInc { testState with lfoDepth := 0x3FF33336#32 } = some [.lfoDepth 0x40000000#32] := by
  decide +kernel

/-- PS-6. -/
theorem test_lfoDepthDec : pendingAfter .lfoDepthDec testState = some [.lfoDepth 0x3DCCCCCD#32] ∧
    pendingAfter .lfoDepthDec { testState with lfoDepth := 0x3DCCCCCD#32 } = some [.lfoDepth 0x00000000#32] := by
  decide +kernel

/-- PS-7. -/
theorem test_baseFreqInc : (pendingAfter .baseFreqInc testState).map (fun l => (l.length, l.take 3))
    = some (6, [.baseFreq 0x437A0000#32, .voiceFreq 0 0x437A0000#32, .voiceFreq 1 0x437C6666#32]) := by decide +kernel

/-- PS-8. -/
theorem test_baseFreqDec : pendingAfter .baseFreqDec testState
    = some [.baseFreq 0x43660000#32, .voiceFreq 0 0x43660000#32, .voiceFreq 1 0x43686666#32,
        .voiceFreq 2 0x4363999A#32, .voiceFreq 3 0x43673333#32, .voiceFreq 4 0x4364CCCD#32] := by decide +kernel

/-- PS-12. -/
theorem test_voicesInc : pendingAfter .voicesInc { testState with baseFreq := 0x43660000#32 }
    = some [.activeVoices 4#4, .voiceFreq 0 0x43660000#32, .voiceFreq 1 0x43684CCD#32, .voiceFreq 2 0x4363B333#32,
        .voiceFreq 3 0x43672666#32] := by decide +kernel

/-- PS-17. -/
theorem test_voicesDec : pendingAfter .voicesDec { testState with activeVoices := 1#4 }
    = some [.activeVoices 1#4, .voiceFreq 0 0x43700000#32] := by decide +kernel

/-- PS-13, and R231's fault on the code 3. -/
theorem test_oscWaveNext : [0#2, 1#2, 2#2].map (fun w => pendingAfter .oscWaveNext { testState with oscWave := w })
      = [some [.oscWave 1#2], some [.oscWave 2#2], some [.oscWave 0#2]] ∧
    (nextOf (exec .oscWaveNext { testState with oscWave := 3#2 })).map (·.mfault) = some onlyBadState := by
  decide +kernel

/-- PS-14. -/
theorem test_lfoWaveNext : pendingAfter .lfoWaveNext testState = some [.lfoWave 2#2] := by decide +kernel

/-- PS-15. -/
theorem test_set_commands : pendingAfter (.setOscWave 1#2) testState = some [.oscWave 1#2] ∧
    pendingAfter (.setLfoWave 2#2) testState = some [.lfoWave 2#2] ∧
    pendingAfter (.setSineShape 1#1) testState = some [.sineShape 1#1] := by decide +kernel

/-- PS-16: the clear is performed by the write, not by the acceptance. -/
theorem test_clrErr : (nextOf (exec .clrErr testState)).map (fun t => (t.error == testState.error, t.pending))
      = some (true, [.errGroup]) ∧
    statusWord (controlWrite 0 { testState with pending := [.errGroup], error :=
      { err := true, ovf := true, port := .control, cause := 4#4, badCmd := 0x0B000003#32 } }) = 0#32 := by decide +kernel

/-! ## Steps -/

/-- EN-1: one frame from reset; the slots 3 and 4 do not move (OB-8). -/
theorem test_tick : (nextOf (step { testState with framesLeft := 1#24 })).map
      (fun t => (t.out, t.voices.map (·.phase), t.lfoPhase, t.framesLeft))
    = some ([{ left := 0#32, right := 0#32 }],
        [0x3B83126F#32, 0x3B8461FA#32, 0x3B81C2E3#32, 0#32, 0#32], 0x395A740E#32, 0#24) := by decide +kernel

/-- OB-11. -/
theorem test_tick_no_voice : (nextOf (step { testState with framesLeft := 1#24, activeVoices := 0#4 })).map
      (fun t => (t.out, t.mfault)) = some ([{ left := 0#32, right := 0#32 }], onlyBadState) := by decide +kernel

/-- DC-1, DC-7. -/
theorem test_rejected : (nextOf (step (scripted [.control 0x0B000003#32]))).map (fun t => (statusWord t, t.error.badCmd))
      = some (0x41#32, 0x0B000003#32) ∧
    (nextOf (step (scripted [.engine 0x05000000#32]))).map statusWord = some 0x25#32 := by decide +kernel

/-- DC-12: the second error sets ERR_OVF only. -/
theorem test_rejected_twice : (nextOf (step { scripted [.engine 0x05000000#32] with
      error := { err := true, ovf := false, port := .control, cause := 4#4, badCmd := 0x0B000003#32 } })).map
      (fun t => (statusWord t, t.error.badCmd)) = some (0x43#32, 0x0B000003#32) := by decide +kernel

/-- RB-1 to RB-5. -/
theorem test_readback : [0x00010#20, 0x00014#20, 0x00024#20, 0x0000C#20, 0x00050#20, 0x00058#20, 0x0004C#20,
      0x00090#20].map (memRead testState)
    = [0x43700000#32, 0x300#32, 1#32, 0x473B8000#32, 0x43726666#32, 0x3F8147AE#32, 0#32, 0#32] := by decide +kernel

/-- RB-6 on the test table, RB-7, RB-8. -/
theorem test_readback_window : [0x01004#20, 0x0100C#20, 0x01010#20, 0x00002#20, 0x00011#20, 0x00028#20, 0x00FFC#20,
      0xFFFFC#20].map (memRead testState)
    = [0x3F800000#32, 0xBF800000#32, 0#32, 0#32, 0#32, 0#32, 0#32, 0#32] := by decide +kernel

/-- A stored frame is little-endian, L first (R67). -/
theorem test_frame_bytes : frameBytes { left := 0x3F800000#32, right := 0xBF000001#32 }
    = [0x00#8, 0x00#8, 0x80#8, 0x3F#8, 0x01#8, 0x00#8, 0x00#8, 0xBF#8] := by decide

/-- A word placed after the power-on reset runs in the next step. -/
theorem test_withFetchWord : (nextOf (step (State.reset.withFetchWord 32 0x80000005))).map (·.framesLeft) = some 5#24 ∧
    (nextOf (step (State.reset.withFetchWord 32 0x0B000002))).map (·.pending) = some [.oscWave 2#2] ∧
    (nextOf (step (State.reset.withFetchWord 32 0x0F000000))).map (·.error.cause) = some 1#4 := by decide +kernel

/-- Every row of the opcode table with its operand 0: decoded, and run as the first step after the power-on reset. -/
theorem test_every_command_runs_after_reset : ([0x00, 0x01, 0x02, 0x03, 0x04, 0x05, 0x06, 0x07, 0x08, 0x09, 0x0A, 0x0B, 0x0C,
    0x0D, 0x0E, 0x80] : List Nat).all (fun opc => (decodeTableWord 32 (opc * 2 ^ 24)).isSome &&
      (nextOf (step (State.reset.withFetchWord 32 (opc * 2 ^ 24)))).isSome) = true := by decide +kernel

theorem test_launch : admitted testState = true ∧ launch testState = testState ∧
    (launch { testState with activeVoices := 0#4 }).mfault = onlyBadState := by decide +kernel

/-- R121(a): 1.0 and 1 - 2^-17 are within 1e-5 of sin(π/2), 1 - 2^-16 is not; the launch check and the reset see it. -/
theorem test_table_near_sine : [0x3F800000#32, 0x3F7FFF80#32, 0x3F7FFF00#32].map (sineNear 2 1) = [true, true, false] ∧
    (let table := testConfig.tableValue.set 1 0x3F7FFF00#32
     (launch { testState with table := table }).mfault = onlyBadState ∧
     configOk { testConfig with tableValue := table } = false) := by decide +kernel

/-- R239 (d), R266: a VOICE_FREQ of 0.0 is marked when it is written, a positive one is not. -/
theorem test_voice_freq_write_marks : [0x00000000#32, 0x43700000#32].map
      (fun v => (controlWrite 0 { testState with pending := [.voiceFreq 4 v] }).mfault) = [onlyBadState, noFaults] := by
  decide +kernel

/-- R130: a tick on the wave code 3 adds BAD_STATE and nothing else; a tick on the codes of reset adds nothing. -/
theorem test_tick_faults : [3#2, 0#2].map (fun w =>
      (nextOf (frameTick { testState with oscWave := w, lfoWave := w })).map (·.mfault))
    = [some onlyBadState, some noFaults] := by decide +kernel

theorem test_isaString : isaString testConfig = "WOB-v1/N=4/V=5/SR=48000" := by decide +kernel

/-! ## Witnesses: each shows values that meet a statement's hypotheses together, one for each clause at its bounds. -/

/-- A state with both ports busy. -/
def busyState : State := { testState with framesLeft := 1#24, pending := [.lfoFreq 0x41300000#32, .voiceFreq 4 0x43700000#32] }

def rejectedOnce : ErrRecord := { err := true, ovf := false, port := .engine, cause := 1#4, badCmd := 0x7F000000#32 }

theorem witness_DecodeInvertsEncode : (Instr.setLfoWave 2#2).wellFormed = true ∧ (Instr.setLfoWave 2#2).onPort .control = true ∧
    (Instr.render 0xFFFFFF#24).wellFormed = true ∧ (Instr.render 0xFFFFFF#24).onPort .engine = true := by decide

theorem witness_AcceptedWordsAreEncodings : decode .engine 0x80FFFFFF#32 = .ok (.render 0xFFFFFF#24) := by decide

/-- Opcodes and arguments on both sides of every bound of the statement. -/
theorem witness_RejectionCauseIsFirstFailingCheck :
    (0x0FFFFFFF#32).toNat = 0x0F * 2 ^ 24 + 0xFFFFFF ∧ decode .control 0x0FFFFFFF#32 = .error .illegalOpcode ∧
    decode .engine 0x7F000000#32 = .error .illegalOpcode ∧ decode .control 0x81000000#32 = .error .illegalOpcode ∧
    decode .control 0x80FFFFFF#32 = .error .wrongPort ∧ decode .engine 0x01000000#32 = .error .wrongPort ∧
    decode .engine 0x0EFFFFFF#32 = .error .wrongPort ∧ decode .control 0x0A000001#32 = .error .reservedArg ∧
    decode .control 0x0B000004#32 = .error .reservedArg ∧ decode .control 0x0C000007#32 = .error .reservedArg ∧
    decode .control 0x0D000002#32 = .error .reservedArg ∧ decode .control 0x0E000001#32 = .error .reservedArg ∧
    decode .control 0x0B000003#32 = .error .badWave ∧ decode .control 0x0C000003#32 = .error .badWave ∧
    decode .control 0x0C000002#32 = .ok (.setLfoWave 2#2) ∧ decode .control 0x0D000001#32 = .ok (.setSineShape 1#1) ∧
    decode .engine 0x00000000#32 = .ok .nop := by decide

theorem witness_StepRunsDecodedCommand :
    (scripted [.engine 0x80000002#32]).script = .engine 0x80000002#32 :: [] ∧
    (scripted [.engine 0x80000002#32]).framesLeft = 0#24 ∧ decode .engine 0x80000002#32 = .ok (.render 2#24) ∧
    (scripted [.control 0x07000000#32]).pending = [] ∧ decode .control 0x07000000#32 = .ok .voicesInc := by decide +kernel

theorem witness_RejectedWordIsRecorded :
    (scripted [.control 0x0B000003#32]).script = .control 0x0B000003#32 :: [] ∧
    portBusy .control (scripted [.control 0x0B000003#32]) = false ∧ decode .control 0x0B000003#32 = .error .badWave ∧
    (scripted [.control 0x0B000003#32]).error.err = false ∧
    portBusy .engine { scripted [.engine 0x05000000#32] with error := rejectedOnce } = false ∧
    decode .engine 0x05000000#32 = .error .wrongPort ∧
    ({ scripted [.engine 0x05000000#32] with error := rejectedOnce } : State).error.err = true := by decide +kernel

theorem witness_BusyPortHoldsWord :
    portBusy .engine { scripted [.engine 0#32] with framesLeft := 1#24 } = true ∧
    (nextOf (step { scripted [.engine 0#32] with framesLeft := 1#24 })).isSome = true ∧
    portBusy .control { scripted [.control 0#32] with pending := [.errGroup] } = true ∧
    (nextOf (step { scripted [.control 0#32] with pending := [.errGroup] })).isSome = true := by decide +kernel

theorem witness_EveryStepIsAtomic : (nextOf (step { testState with framesLeft := 1#24 })).isSome = true ∧
    (nextOf (step { testState with pending := [.errGroup] })).isSome = true ∧
    (nextOf (step (scripted [.read 0x40#20]))).isSome = true ∧
    (nextOf (step (scripted [.reset testDraw]))).isSome = true := by decide +kernel

/-- Each kind of atomic step has an instance. -/
theorem witness_EveryAtomicStepCanComeNext :
    AtomicStep testState { testState with framesLeft := 2#24 } ∧ AtomicStep busyState (tickState busyState) ∧
    AtomicStep busyState (controlWrite 1 busyState) ∧ AtomicStep testState testState ∧
    AtomicStep busyState (applyReset testDraw busyState) :=
  ⟨.issue .engine 0x80000002#32 _ _ (by decide +kernel) (exec_render (by decide +kernel)), .tick _ _ (by decide +kernel) (if_pos (by decide +kernel)),
    .write 1 _ (by decide +kernel), .read _, .reset testDraw _ _ (if_pos (by decide +kernel))⟩

/-- An idle state: the hypotheses of IdleBlockKeepsItsState and of every statement about an accepted command. -/
theorem witness_idle : testState.script = [] ∧ testState.framesLeft = 0#24 ∧ testState.pending = [] ∧
    shapeOk testState = true := by decide +kernel

theorem witness_WaveNextIsPending : testState.oscWave ≠ 3#2 ∧ testState.lfoWave ≠ 3#2 ∧
    ({ testState with oscWave := 3#2, lfoWave := 3#2 } : State).pending = [] := by decide +kernel

theorem witness_OneFieldCommandsEndState : testState.pending = [] ∧ testState.oscWave ≠ 3#2 ∧ testState.lfoWave ≠ 3#2 := by
  decide +kernel

theorem witness_BaseFreqCommandsEndState : testState.pending = [] ∧
    ([5, 0, 9, 1, 1, 0] : List Nat).length = testState.voices.length + 1 ∧
    baseFreqUp testState = clamp32 (add32 testState.baseFreq testState.cfg.baseFreqStep) testState.cfg.baseFreqMin
      testState.cfg.baseFreqMax := by decide +kernel

/-- Both commands, at both ends of the voice count. -/
theorem witness_VoiceCommandsEndState : testState.voices.length = testState.cfg.maxVoices ∧
    5 = min ((5#4).toNat + 1) testState.cfg.maxVoices ∧ 5 ≤ testState.cfg.maxVoices ∧
    1 = max ((1#4).toNat - 1) 1 ∧ 1 ≤ testState.cfg.maxVoices ∧ ([3, 0] : List Nat).length = 1 + 1 := by decide +kernel

theorem witness_CommandOnBusyPortWaits : busyState.pending ≠ [] ∧ busyState.framesLeft ≠ 0#24 ∧
    Instr.clrErr.onPort .control = true ∧ (Instr.render 1#24).onPort .engine = true := by decide +kernel

theorem witness_PendingWritesCommute : pendingWf busyState.pending ∧
    ([1, 0] : List Nat).length = busyState.pending.length := by decide +kernel

/-- A tie: half the least subnormal, between 0 and 1 units. -/
theorem witness_RoundingIsNearestEven : roundMag binary32 1 2 < binary32.inf ∧ 1 < binary32.inf ∧
    1 ≠ roundMag binary32 1 2 ∧
    ((magUnits binary32 (roundMag binary32 1 2) * 2 : Int) - 1).natAbs = ((magUnits binary32 1 * 2 : Int) - 1).natAbs := by
  decide +kernel

/-- Clause by clause: sums, exact zero sums of each sign, products, quotients, at the least and greatest magnitudes. -/
theorem witness_OperationsRoundOnce : isFinite32 0x7F7FFFFF#32 = true ∧ isFinite32 0x80000001#32 = true ∧
    units32 0x7F7FFFFF#32 + units32 0x80000001#32 ≠ 0 ∧ units32 0x80000000#32 + units32 0x80000000#32 = 0 ∧
    units32 0x80000000#32 - units32 0x00000000#32 = 0 ∧ units32 0x7F7FFFFF#32 - units32 0x80000001#32 ≠ 0 ∧
    units32 0x7F7FFFFF#32 * units32 0x80000001#32 ≠ 0 ∧ units32 0x80000001#32 ≠ 0 := by decide +kernel

theorem witness_finite : isFinite32 0x7F7FFFFF#32 = true ∧ isFinite32 0xFF7FFFFF#32 = true ∧
    isFinite32 0x80000000#32 = true := by decide +kernel

/-- Below, inside, above, and at infinity. -/
theorem witness_ClampHoldsItsBounds : le32 0x42480000#32 0x44160000#32 = true ∧ isNaN32 0x42200000#32 = false ∧
    lt32 0x42200000#32 0x42480000#32 = true ∧ lt32 0x44160000#32 0x7F800000#32 = true ∧ isNaN32 0x7F800000#32 = false ∧
    le32 0x42480000#32 0x42480000#32 = true ∧ le32 0x42480000#32 0x44160000#32 = true := by decide +kernel

/-- The hypotheses of SteppedValuesStayInBounds and of LfoFreqDecNeverNegativeZero. -/
theorem witness_SteppedValuesStayInBounds : configOk testState.cfg = true ∧ isFinite32 testState.lfoFreq = true ∧
    isFinite32 testState.lfoDepth = true ∧ isFinite32 testState.baseFreq = true := by decide +kernel

theorem witness_AdvanceKeepsUnitInterval : inUnit 0x3F7FFFFF#32 = true ∧ inUnit 0x80000000#32 = true ∧
    isFinite32 0x3F7FFFFF#32 = true ∧ (units32 0x3F7FFFFF#32).natAbs < 2 ^ 149 ∧
    isFinite32 0xBF7FFFFF#32 = true ∧ (units32 0xBF7FFFFF#32).natAbs < 2 ^ 149 := by decide +kernel

theorem witness_AdvanceFaultsAreExact : isFinite32 (add32 0x7F7FFFFF#32 0x7F7FFFFF#32) = false ∧
    isFinite32 (add32 0x3F000000#32 0x3FC00000#32) = true ∧ inUnit (advance 0x3F000000#32 0x3FC00000#32) = false := by
  decide +kernel

theorem witness_TableIndexIsFloor : inUnit 0x00000000#32 = true ∧ inUnit 0x3F7FFFFF#32 = true := by decide +kernel

theorem witness_SamplesAndMixInRange : testConfig.tableValue.length = 2 ^ 2 ∧
    testConfig.tableValue.all tableEntryOk = true ∧ inUnit 0x3F7FFFFF#32 = true ∧ (2#2 : BitVec 2) ≠ 3#2 ∧
    1 ≤ (List.replicate 15 negOne32).length ∧ (List.replicate 15 negOne32).length ≤ 15 ∧
    (List.replicate 15 negOne32).all tableEntryOk = true := by decide +kernel

theorem witness_EqualSamplesMixToThemselves : isFinite32 0x80000000#32 = true ∧ isFinite32 0x7F7FFFFF#32 = true ∧
    (1 ≤ 1 ∧ 1 ≤ 15) ∧ (1 ≤ 15 ∧ 15 ≤ 15) := by decide +kernel

theorem witness_DepthZeroMultiplierIsOne : isFinite32 0xBF800000#32 = true ∧ eq32 0x00000000#32 0x00000000#32 = true ∧
    eq32 0x80000000#32 0x00000000#32 = true := by decide +kernel

theorem witness_MultiplierInModulationRange : between32 negOne32 one32 0xBF800000#32 = true ∧
    between32 negOne32 one32 0x3F800000#32 = true ∧ between32 depthMin depthMax 0x00000000#32 = true ∧
    between32 depthMin depthMax 0x40000000#32 = true := by decide +kernel

theorem witness_LfoPhaseStaysBounded : configOk testConfig = true ∧
    between32 lfoFreqMin testConfig.lfoFreqMax 0x41A00000#32 = true ∧
    between32 lfoFreqMin testConfig.lfoFreqMax 0x00000000#32 = true ∧ inUnit 0x3F7FFFFF#32 = true := by decide +kernel

theorem witness_ShiftRoundsAtMostHalfUlp : isFinite32 0x447FFFFF#32 = true ∧ isFinite32 0x80000001#32 = true ∧
    (units32 0x447FFFFF#32 + units32 0x80000001#32).natAbs < 1024 * 2 ^ 149 := by decide +kernel

/-- One voice, and all of them. -/
theorem witness_FrameTickResult : shapeOk testState = true ∧ 1 ≤ (1#4).toNat ∧ (5#4).toNat ≤ testState.cfg.maxVoices := by
  decide +kernel

theorem witness_TickWithBadVoiceCount : shapeOk testState = true ∧ (0#4).toNat < 1 ∧
    testState.cfg.maxVoices < (6#4).toNat := by decide +kernel

/-- Two states that differ in what a tick does not read. -/
theorem witness_TickReadsOnlyItsFields :
    let u : State := { testState with baseFreq := 0x42480000#32, error := rejectedOnce, pending := [.errGroup],
                                      voices := testState.voices.take 3 ++ (testState.voices.drop 3).map (fun v => { v with freq := 0#32 }) }
    (nextOf (frameTick testState)).isSome = true ∧ (nextOf (frameTick u)).isSome = true ∧ testState ≠ u ∧
    testState.cfg = u.cfg ∧ testState.table = u.table ∧ testState.lfoFreq = u.lfoFreq ∧ testState.lfoDepth = u.lfoDepth ∧
    testState.lfoPhase = u.lfoPhase ∧ testState.lfoWave = u.lfoWave ∧ testState.oscWave = u.oscWave ∧
    testState.sineShape = u.sineShape ∧ testState.activeVoices = u.activeVoices ∧
    (testState.voices.take testState.activeVoices.toNat).map (fun x => (x.freq, x.phase))
      = (u.voices.take u.activeVoices.toNat).map (fun x => (x.freq, x.phase)) := by decide +kernel

theorem witness_Invariant : Invariant testState where
  config := by decide +kernel
  shape := by decide +kernel
  table := by decide +kernel
  pendingForm := by decide +kernel
  pendingLegal := by decide +kernel
  baseFreq := by decide +kernel
  oscWave := by decide +kernel
  lfoWave := by decide +kernel
  voicesLow := by decide +kernel
  voicesHigh := by decide +kernel
  lfoFreq := by decide +kernel
  lfoDepth := by decide +kernel
  detune := by decide +kernel
  freqs := .inl (by decide +kernel)
  phases := .inl (by decide +kernel)

/-- The hypotheses of StepKeepsInvariant and InvariantStatesAlwaysStep, together. -/
theorem witness_StepKeepsInvariant : Invariant testState ∧ testState.mfault = noFaults ∧ step testState = .next testState :=
  ⟨witness_Invariant, rfl, by simp [step, scriptStep, ownMove, testState, applyReset, engBusy, ctrlBusy, State.reset]⟩

theorem witness_TickRaisesNoFault : Invariant testState ∧ phasesInUnit testState = true ∧
    (∀ x ∈ testState.voices.take testState.activeVoices.toNat, isFinite32 x.freq = true ∧ 0 < units32 x.freq ∧
      2 * (3 * units32 x.freq) ≤ units32 testState.cfg.sampleRate) :=
  ⟨witness_Invariant, by decide +kernel, by decide +kernel⟩

/-- A step of each kind for the whole-machine rules: one that emits, one that does not, one that clears the error
group, one that records a rejected word. -/
theorem witness_whole_machine_rules :
    (nextOf (step { testState with framesLeft := 1#24 })).map (fun t => t.out.length) = some 1 ∧
    (nextOf (step (scripted [.write 7]))).map (fun t => t.out == testState.out) = some true ∧
    (nextOf (step { testState with error := rejectedOnce, pending := [.errGroup] })).map (·.error) = some noError ∧
    (nextOf (step (scripted [.engine 0x7F000000#32]))).map (·.error) = some rejectedOnce ∧
    (∀ draw rest, (scripted [.write 7]).script ≠ .reset draw :: rest) := by
  refine ⟨by decide +kernel, by decide +kernel, by decide +kernel, by decide +kernel, fun _ _ h => ?_⟩
  simp [scripted] at h

theorem witness_ResetStepValues : (scripted [.reset testDraw]).script = .reset testDraw :: [] ∧
    configOk testState.cfg = true ∧ testDraw.length = testState.cfg.maxVoices ∧
    (∀ d ∈ testDraw, inDetuneRange testState.cfg d = true) :=
  ⟨rfl, witness_Invariant.config, rfl, List.all_eq_true.mp (by decide +kernel)⟩

theorem witness_IllFormedInstanceIsRefused :
    ({ scripted [.reset testDraw] with cfg := { testConfig with maxVoices := 0 } } : State).script = .reset testDraw :: [] ∧
    configOk { testConfig with maxVoices := 0 } = false ∧
    configOk { testConfig with detuneMax := 0x3F800000#32 } = false := by decide +kernel

theorem witness_ResetStateIsAdmitted : configOk fallbackConfig = true ∧ configOk testConfig = true ∧
    ({ testConfig with maxVoices := 2 } : Config).maxVoices < 3 := by decide +kernel

theorem witness_ReadChangesNothing : (scripted [.read 0x44#20]).script = .read 0x44#20 :: [] ∧ (0x45#20).toNat % 4 ≠ 0 :=
  ⟨rfl, by decide⟩

/-- Each clause of the map at the ends of its range, on the test instance (5 slots, 4 table entries). -/
theorem witness_ReadbackMap : shapeOk testState = true ∧ testState.cfg.tableLog2 ≤ 16 ∧ testState.cfg.maxVoices ≤ 15 ∧
    4 < testState.voices.length ∧ 3 < testState.table.length ∧ (0xFFFFF#20).toNat % 4 ≠ 0 ∧
    0x28 ≤ (0x28#20).toNat ∧ (0x3F#20).toNat < 0x40 ∧
    0x40 + 16 * testState.cfg.maxVoices ≤ (0x90#20).toNat ∧ (0xFFF#20).toNat < 0x1000 ∧
    (0x4C#20).toNat % 16 = 12 ∧ (0x13C#20).toNat < 0x140 ∧ (0x13C#20).toNat % 16 = 12 ∧
    0x1000 + 4 * testState.table.length ≤ (0x1010#20).toNat := by decide +kernel

theorem witness_ClrErrReturnsFromError : testState.pending = [] ∧ decode .control 0x0B000003#32 = .error .badWave ∧
    (scripted [.control 0x0B000003#32, .control 0x0E000000#32, .write 0]).script
      = .control 0x0B000003#32 :: .control 0x0E000000#32 :: .write 0 :: [] := by decide +kernel

end Sys2Proof.Machine
end

section
/-!
PROOFS. Numbers (spec/00_scope.md R13): rounding to nearest even with its limit at infinity, one rounding per binary32
operation, comparisons, and exact widening.
-/
namespace Sys2Proof.Machine

/-! ## Rounding to nearest, ties to even -/

/-- n / d lies at or below the midpoint of its rounded value and a greater one. -/
theorem two_mul_le_of_roundRaw_lt (f : Format) {n d m : Nat} (hd : 0 < d) (h : roundRaw f n d < m) :
    2 * n ≤ magUnits f (roundRaw f n d) * d + magUnits f m * d := by
  have hnear := roundRaw_nearest f n d m hd
  have hlt : magUnits f (roundRaw f n d) * d < magUnits f m * d :=
    Nat.mul_lt_mul_of_pos_right ((magUnits_lt_iff f).mpr h) hd
  simp only [← Nat.cast_mul] at hnear
  omega

/-- n / d lies at or above the midpoint of its rounded value and a smaller one. -/
theorem le_two_mul_of_lt_roundRaw (f : Format) {n d m : Nat} (hd : 0 < d) (h : m < roundRaw f n d) :
    magUnits f (roundRaw f n d) * d + magUnits f m * d ≤ 2 * n := by
  have hnear := roundRaw_nearest f n d m hd
  have hlt : magUnits f m * d < magUnits f (roundRaw f n d) * d :=
    Nat.mul_lt_mul_of_pos_right ((magUnits_lt_iff f).mpr h) hd
  simp only [← Nat.cast_mul] at hnear
  omega

theorem even_two_pow_frac {f : Format} (hf : 0 < f.frac) : 2 ^ f.frac % 2 = 0 := by
  rw [Nat.pow_mod, Nat.mod_self, Nat.zero_pow hf, Nat.zero_mod]

/-- The value of the rounded pattern over the quotient's denominator: `roundSig` steps of one last place. -/
theorem magUnits_roundRaw_mul (f : Format) {n d : Nat} (hd : 0 < d) :
    magUnits f (roundRaw f n d) * d = roundSig f n d * (d * 2 ^ roundExp f n d) := by
  rw [magUnits_roundRaw f n d hd]
  ring

/-- The rounded pattern's value is at most half a last place away. -/
theorem roundRaw_within_half_step (f : Format) {n d : Nat} (hd : 0 < d) :
    2 * (magUnits f (roundRaw f n d) * d) ≤ 2 * n + d * 2 ^ roundExp f n d ∧
    2 * n ≤ 2 * (magUnits f (roundRaw f n d) * d) + d * 2 ^ roundExp f n d := by
  rw [magUnits_roundRaw_mul f hd]
  exact roundHalfEven_bounds n (d * 2 ^ roundExp f n d) (by positivity)

/-- Exactly half a last place away the pattern is even. -/
theorem roundRaw_even_of_half_step (f : Format) {n d : Nat} (hd : 0 < d) (hf : 0 < f.frac)
    (h : 2 * n = 2 * (magUnits f (roundRaw f n d) * d) + d * 2 ^ roundExp f n d ∨
      2 * (magUnits f (roundRaw f n d) * d) = 2 * n + d * 2 ^ roundExp f n d) : roundRaw f n d % 2 = 0 := by
  rw [magUnits_roundRaw_mul f hd] at h
  have hsig : roundSig f n d % 2 = 0 := roundHalfEven_tie n (d * 2 ^ roundExp f n d) h (by positivity)
  rw [roundRaw, Nat.add_mod, Nat.mul_mod, even_two_pow_frac hf, hsig, Nat.mul_zero, Nat.zero_mod]

/-- Where n / d is above its pattern's value, every greater value is a last place or more above that value. -/
theorem add_step_le_of_roundRaw_lt (f : Format) {n d m : Nat} (hd : 0 < d) (hm : roundRaw f n d < m)
    (hn : magUnits f (roundRaw f n d) * d < n) :
    magUnits f (roundRaw f n d) * d + d * 2 ^ roundExp f n d ≤ magUnits f m * d := by
  rw [magUnits_roundRaw_mul f hd] at hn ⊢
  have hsig : roundSig f n d < 2 * 2 ^ f.frac :=
    Nat.lt_of_mul_lt_mul_right (hn.trans (roundExp_bounds f n d hd).1)
  have hsucc : (roundSig f n d + 1) * 2 ^ roundExp f n d ≤ magUnits f m := by
    rw [← magUnits_add f _ _ hsig ((roundSig_bounds f n d hd).2.imp_right Nat.le_succ_of_le), magUnits_le_iff]
    exact hm
  calc roundSig f n d * (d * 2 ^ roundExp f n d) + d * 2 ^ roundExp f n d
      = (roundSig f n d + 1) * 2 ^ roundExp f n d * d := by ring
    _ ≤ magUnits f m * d := Nat.mul_le_mul_right d hsucc

/-- Where n / d is below its pattern's value, every smaller value is a last place or more below that value: the
significand is then above its least one, so the one before it has the same exponent. -/
theorem add_step_le_of_lt_roundRaw (f : Format) {n d m : Nat} (hd : 0 < d) (hm : m < roundRaw f n d)
    (hn : n < magUnits f (roundRaw f n d) * d) :
    magUnits f m * d + d * 2 ^ roundExp f n d ≤ magUnits f (roundRaw f n d) * d := by
  rw [magUnits_roundRaw_mul f hd] at hn ⊢
  obtain ⟨r, hr⟩ : ∃ r, roundSig f n d = r + 1 :=
    Nat.exists_eq_succ_of_ne_zero (fun h => by simp [h] at hn)
  have hle : r + 1 ≤ 2 * 2 ^ f.frac := hr ▸ (roundSig_bounds f n d hd).1
  have hnorm : roundExp f n d = 0 ∨ 2 ^ f.frac ≤ r := by
    refine (roundExp_bounds f n d hd).2.imp_right fun h => ?_
    have hlt := Nat.lt_of_mul_lt_mul_right (h.trans_lt hn)
    omega
  have hpred : magUnits f m ≤ r * 2 ^ roundExp f n d := by
    rw [← magUnits_add f _ r (by omega) hnorm, magUnits_le_iff]
    rw [roundRaw] at hm
    omega
  calc magUnits f m * d + d * 2 ^ roundExp f n d
      ≤ r * 2 ^ roundExp f n d * d + d * 2 ^ roundExp f n d := Nat.add_le_add_right (Nat.mul_le_mul_right d hpred) _
    _ = (r + 1) * (d * 2 ^ roundExp f n d) := by ring
    _ = roundSig f n d * (d * 2 ^ roundExp f n d) := by rw [hr]

/-- Where n / d is the midpoint of its pattern's value and another one, that pattern is even: the other value is a last
place or more away, so the quotient is half a last place away. -/
theorem roundRaw_even_of_midpoint (f : Format) {n d m : Nat} (hd : 0 < d) (hf : 0 < f.frac) (hne : m ≠ roundRaw f n d)
    (hmid : 2 * n = magUnits f (roundRaw f n d) * d + magUnits f m * d) : roundRaw f n d % 2 = 0 := by
  have hhalf := roundRaw_within_half_step f (n := n) hd
  rcases Nat.lt_or_gt_of_ne hne with hlt | hgt
  · have hv := Nat.mul_lt_mul_of_pos_right ((magUnits_lt_iff f).mpr hlt) hd
    have hstep := add_step_le_of_lt_roundRaw f hd hlt (by omega)
    exact roundRaw_even_of_half_step f hd hf (.inr (by omega))
  · have hv := Nat.mul_lt_mul_of_pos_right ((magUnits_lt_iff f).mpr hgt) hd
    have hstep := add_step_le_of_roundRaw_lt f hd hgt (by omega)
    exact roundRaw_even_of_half_step f hd hf (.inl (by omega))

/-- A finite result is the pattern before the limit at infinity. -/
theorem roundMag_eq_roundRaw {f : Format} {n d : Nat} (h : roundMag f n d < f.inf) : roundMag f n d = roundRaw f n d := by
  rw [roundMag_eq] at h ⊢
  omega

theorem roundMag_eq_inf_iff {f : Format} {n d : Nat} : roundMag f n d = f.inf ↔ f.inf ≤ roundRaw f n d := by
  rw [roundMag_eq]
  exact min_eq_right_iff

/-- A finite result nearest to n / d; on a tie with another value it is even. -/
theorem roundMag_nearest_even {f : Format} {n d m : Nat} (hd : 0 < d) (hf : 0 < f.frac) (h : roundMag f n d < f.inf) :
    ((magUnits f (roundMag f n d) * d : Int) - n).natAbs ≤ ((magUnits f m * d : Int) - n).natAbs ∧
    (m ≠ roundMag f n d →
      ((magUnits f (roundMag f n d) * d : Int) - n).natAbs = ((magUnits f m * d : Int) - n).natAbs →
      roundMag f n d % 2 = 0) := by
  rw [roundMag_eq_roundRaw h]
  refine ⟨roundRaw_nearest f n d m hd, fun hne htie => roundRaw_even_of_midpoint f hd hf hne ?_⟩
  have hvne : magUnits f (roundRaw f n d) * d ≠ magUnits f m * d := fun he =>
    hne ((magUnits_inj f).mp (Nat.eq_of_mul_eq_mul_right hd he)).symm
  simp only [← Nat.cast_mul] at htie
  omega

/-- The values of infinity's pattern and of the greatest finite one, summed: twice the limit of the range. -/
theorem magUnits_inf_add_pred (f : Format) (he : 2 ≤ f.expTop) :
    magUnits f f.inf + magUnits f (f.inf - 1) = (2 ^ (f.frac + 2) - 1) * 2 ^ (f.expTop - 2) := by
  have hF : 0 < 2 ^ f.frac := by positivity
  have hinf : f.inf = (f.expTop - 2) * 2 ^ f.frac + 2 * 2 ^ f.frac := by
    rw [Format.inf, ← Nat.add_mul, Nat.sub_add_cancel he]
  have hpred : f.inf - 1 = (f.expTop - 2) * 2 ^ f.frac + (2 * 2 ^ f.frac - 1) := by omega
  rw [hpred, hinf, magUnits_add f _ _ le_rfl (by omega), magUnits_add f _ _ (by omega) (by omega), ← Nat.add_mul, pow_add]
  congr 1
  omega

/-- Infinity exactly from half a last place above the greatest finite value on. At the limit itself the greatest finite
pattern would be a tie with infinity's, and it is odd. -/
theorem roundMag_eq_inf_iff_le {f : Format} {n d : Nat} (hd : 0 < d) (hf : 0 < f.frac) (he : 2 ≤ f.expTop) :
    roundMag f n d = f.inf ↔ (2 ^ (f.frac + 2) - 1) * 2 ^ (f.expTop - 2) * d ≤ 2 * n := by
  rw [roundMag_eq_inf_iff, ← magUnits_inf_add_pred f he, Nat.add_mul]
  have hpos : 0 < f.inf := Nat.mul_pos (by omega) (by positivity)
  have heven : f.inf % 2 = 0 := by rw [Format.inf, Nat.mul_mod, even_two_pow_frac hf, Nat.mul_zero, Nat.zero_mod]
  constructor
  · intro h
    have hlow := le_two_mul_of_lt_roundRaw f hd (show f.inf - 1 < roundRaw f n d by omega)
    have hinf := Nat.mul_le_mul_right d ((magUnits_le_iff f).mpr h)
    omega
  · intro h
    by_contra hlt
    have hfin : roundRaw f n d ≤ f.inf - 1 := by omega
    have hup := two_mul_le_of_roundRaw_lt f hd (show roundRaw f n d < f.inf by omega)
    have hle := Nat.mul_le_mul_right d ((magUnits_le_iff f).mpr hfin)
    have htop : roundRaw f n d = f.inf - 1 := by
      rw [← magUnits_inj f]
      exact Nat.eq_of_mul_eq_mul_right hd (by omega)
    have hodd := roundRaw_even_of_midpoint f (n := n) (m := f.inf) hd hf (by omega) (by omega)
    omega

/-- Settles O23: the rounding before the limit at infinity is a nearest one and even on a tie; both formats have a fraction
bit and a finite exponent field, and infinity's threshold follows from the tie it would be. -/
theorem roundingIsNearestEven : Obligations.RoundingIsNearestEven := by
  intro f n d hformat hd
  obtain ⟨hf, he⟩ : 0 < f.frac ∧ 2 ≤ f.expTop := by
    rcases hformat with rfl | rfl <;> decide
  exact ⟨fun m hfin _ => roundMag_nearest_even hd hf hfin, roundMag_le_inf f n d, roundMag_eq_inf_iff_le hd hf he⟩

/-! ## One rounding per operation -/

/-- A rounding of a quotient that is not zero is one bit pattern. -/
theorem IsRounding32.eq_pack32 {e : Int} {d : Nat} {x : F32} (h : IsRounding32 e d x) (h0 : e ≠ 0) :
    x = pack32 (decide (e < 0), roundMag binary32 e.natAbs d) := by
  obtain ⟨hmag, hneg, hpos⟩ := h
  have hsign : (unpack32 x).1 = decide (e < 0) := by
    rcases lt_or_gt_of_ne h0 with h | h
    · rw [hneg h, decide_eq_true h]
    · rw [hpos h, decide_eq_false h.le.not_gt]
  rw [← pack32_unpack32 x, ← hsign, ← hmag]

theorem not_isNaNF_of_finite {f : Format} {a : Fp} (h : isFiniteF f a = true) : isNaNF f a = false := by
  simp only [isFiniteF, decide_eq_true_eq] at h
  exact decide_eq_false h.le.not_gt

theorem not_isInfF_of_finite {f : Format} {a : Fp} (h : isFiniteF f a = true) : isInfF f a = false := by
  simp only [isFiniteF, decide_eq_true_eq] at h
  exact beq_eq_false_iff_ne.mpr h.ne

theorem units_nonpos_of_sign {f : Format} {a : Fp} (hs : a.1 = true) : units f a ≤ 0 := by
  rw [units, if_pos hs]
  omega

/-- A pattern whose sign is set and whose value is not below zero is -0.0. -/
theorem eq_negZero_of_sign {f : Format} {a : Fp} (hs : a.1 = true) (h : 0 ≤ units f a) : a = (true, 0) := by
  obtain ⟨s, m⟩ := a
  obtain rfl : s = true := hs
  have hm : magUnits f m = 0 := by
    rw [units_eq, if_pos rfl] at h
    omega
  rw [(magUnits_eq_zero f).mp hm]

/-- The sign of an exact zero sum: -0.0 only where both operands are. -/
theorem addF_of_sum_zero {f : Format} {a b : Fp} (ha : isFiniteF f a = true) (hb : isFiniteF f b = true)
    (h : units f a + units f b = 0) : addF f a b = (decide (a = (true, 0) ∧ b = (true, 0)), 0) := by
  have hmag : roundMag f 0 1 = 0 := Nat.le_zero.mp (roundMag_le f one_pos (Nat.zero_le _))
  have hsign : (a.1 && b.1) = decide (a = (true, 0) ∧ b = (true, 0)) := by
    rw [Bool.eq_iff_iff, Bool.and_eq_true, decide_eq_true_iff]
    constructor
    · rintro ⟨hsa, hsb⟩
      have hua := units_nonpos_of_sign (f := f) hsa
      have hub := units_nonpos_of_sign (f := f) hsb
      exact ⟨eq_negZero_of_sign hsa (f := f) (by omega), eq_negZero_of_sign hsb (f := f) (by omega)⟩
    · rintro ⟨rfl, rfl⟩
      exact ⟨rfl, rfl⟩
  simp only [addF, not_isNaNF_of_finite ha, not_isNaNF_of_finite hb, not_isInfF_of_finite ha, not_isInfF_of_finite hb,
    Bool.or_self, Bool.false_eq_true, if_false, h, if_true, Int.natAbs_zero, hmag, hsign]

theorem unpack32_eq_iff {a : F32} {x : Fp} (hx : x.2 < 2 ^ 31) : unpack32 a = x ↔ a = pack32 x :=
  ⟨fun h => by rw [← h, pack32_unpack32], fun h => by rw [h, unpack32_pack32 hx]⟩

theorem unpack32_eq_negZero_iff {a : F32} : unpack32 a = (true, 0) ↔ a = 0x80000000#32 :=
  unpack32_eq_iff (x := (true, 0)) (by decide)

theorem negF_unpack32_eq_negZero_iff {a : F32} : negF (unpack32 a) = (true, 0) ↔ a = 0#32 := by
  rw [show a = 0#32 ↔ unpack32 a = (false, 0) from (unpack32_eq_iff (x := (false, 0)) (by decide)).symm]
  simp [negF, Prod.ext_iff]

theorem pack32_zero (s : Bool) : pack32 (s, 0) = if s then 0x80000000#32 else 0#32 := by
  cases s <;> rfl

theorem add32_of_sum_zero {a b : F32} (ha : isFinite32 a = true) (hb : isFinite32 b = true)
    (h : units32 a + units32 b = 0) :
    add32 a b = if a = 0x80000000#32 ∧ b = 0x80000000#32 then 0x80000000#32 else 0#32 := by
  rw [add32, addF_of_sum_zero ha hb h, pack32_zero]
  simp only [decide_eq_true_iff, unpack32_eq_negZero_iff]

theorem sub32_of_difference_zero {a b : F32} (ha : isFinite32 a = true) (hb : isFinite32 b = true)
    (h : units32 a - units32 b = 0) :
    sub32 a b = if a = 0x80000000#32 ∧ b = 0#32 then 0x80000000#32 else 0#32 := by
  have hsum : units binary32 (unpack32 a) + units binary32 (negF (unpack32 b)) = 0 := by
    rw [units_negF, ← sub_eq_add_neg]
    exact h
  rw [sub32, addF_of_sum_zero ha (b := negF (unpack32 b)) hb hsum, pack32_zero]
  simp only [decide_eq_true_iff, unpack32_eq_negZero_iff, negF_unpack32_eq_negZero_iff]

/-- The quotient's sign is the product's, its magnitude the quotient of the magnitudes. -/
theorem div32_eq_pack32 {a b : F32} (ha : isFinite32 a = true) (hb : isFinite32 b = true)
    (h : units32 a * units32 b ≠ 0) :
    div32 a b = pack32 (decide (units32 a * units32 b < 0),
      roundMag binary32 ((units32 a).natAbs * 2 ^ 149) (units32 b).natAbs) := by
  obtain ⟨ha0, hb0⟩ := mul_ne_zero_iff.mp h
  have hsign0 : (units32 b).sign ≠ 0 := mt Int.sign_eq_zero_iff_zero.mp hb0
  have hpow : (0 : Int) < 2 ^ 149 := by decide
  have hneg : units32 a * (units32 b).sign * 2 ^ 149 < 0 ↔ units32 a * units32 b < 0 := by
    rw [← Int.sign_eq_neg_one_iff_neg, ← Int.sign_eq_neg_one_iff_neg]
    simp only [Int.sign_mul, Int.sign_sign, Int.sign_eq_one_of_pos hpow, mul_one]
  have hmag : (units32 a * (units32 b).sign * 2 ^ 149).natAbs = (units32 a).natAbs * 2 ^ 149 := by
    rw [Int.natAbs_mul, Int.natAbs_mul, Int.natAbs_sign_of_ne_zero hb0, Nat.mul_one, Int.natAbs_pow]
    rfl
  rw [(div32_rounds ha hb hb0).eq_pack32 (mul_ne_zero (mul_ne_zero ha0 hsign0) hpow.ne'), hmag, decide_eq_decide.mpr hneg]

/-- Settles O24: each operation is one rounding of the exact result, which fixes the pattern of a result that is not zero;
an exact zero sum takes its sign from the operands'. -/
theorem operationsRoundOnce : Obligations.OperationsRoundOnce := by
  intro a b ha hb
  refine ⟨?_, add32_of_sum_zero ha hb, ?_, sub32_of_difference_zero ha hb, ?_, ?_⟩
  · rintro e rfl h0
    exact (add32_rounds ha hb).eq_pack32 h0
  · rintro e rfl h0
    exact (sub32_rounds ha hb).eq_pack32 h0
  · rintro e rfl h0
    exact (mul32_rounds ha hb).eq_pack32 h0
  · rintro - e rfl h0
    exact div32_eq_pack32 ha hb h0

/-! ## Comparisons -/

/-- Settles O25: finite values are no NaN, and patterns are ordered as their values. -/
theorem comparisonsAreReal : Obligations.ComparisonsAreReal := by
  intro a b ha hb
  have hna := not_isNaN32_of_finite ha
  have hnb := not_isNaN32_of_finite hb
  exact ⟨lt32_eq hna hnb, le32_eq hna hnb, eq32_eq hna hnb⟩

/-! ## Exact widening -/

/-- Twice a value of the format is a value of it: the significand doubles, or the exponent grows by one. -/
theorem exists_magUnits_eq_two_mul (f : Format) (m : Nat) : ∃ m', magUnits f m' = 2 * magUnits f m := by
  obtain ⟨k, r, -, hr, hk, hval⟩ := exists_magUnits f m
  rcases Nat.lt_or_ge r (2 ^ f.frac) with hlt | hge
  · obtain rfl : k = 0 := by omega
    exact ⟨0 * 2 ^ f.frac + 2 * r, by rw [magUnits_add f 0 (2 * r) (by omega) (.inl rfl), hval]; ring⟩
  · exact ⟨(k + 1) * 2 ^ f.frac + r, by rw [magUnits_add f (k + 1) r hr.le (.inr hge), hval]; ring⟩

theorem exists_magUnits_eq_mul_two_pow (f : Format) (m e : Nat) : ∃ m', magUnits f m' = magUnits f m * 2 ^ e := by
  induction e with
  | zero => exact ⟨m, by simp⟩
  | succ e ih =>
    obtain ⟨p, hp⟩ := ih
    obtain ⟨q, hq⟩ := exists_magUnits_eq_two_mul f p
    exact ⟨q, by rw [hq, hp]; ring⟩

/-- Every finite binary32 magnitude is one of binary64, whose fraction has room for its significand. -/
theorem exists_magUnits_binary64 {m : Nat} (hm : m < binary32.inf) :
    ∃ m' < binary64.inf, magUnits binary64 m' = magUnits binary32 m * 2 ^ 925 := by
  obtain ⟨k, r, -, hr, -, hval⟩ := exists_magUnits binary32 m
  have hsig : r < 2 ^ binary64.frac := hr.trans (by decide)
  obtain ⟨p, hp⟩ := exists_magUnits_eq_mul_two_pow binary64 r (k + 925)
  have hvalue : magUnits binary64 p = magUnits binary32 m * 2 ^ 925 := by
    rw [hp, magUnits_small binary64 hsig, hval, pow_add, Nat.mul_assoc]
  refine ⟨p, ?_, hvalue⟩
  rw [← magUnits_lt_iff binary64, hvalue]
  calc magUnits binary32 m * 2 ^ 925 < infUnits32 * 2 ^ 925 :=
        Nat.mul_lt_mul_of_pos_right ((magUnits_lt_iff binary32).mpr hm) (by positivity)
    _ = 2 ^ (1 + 23 + 253 + 925) := by rw [infUnits32_eq, pow_add, pow_add, pow_add, pow_one]
    _ ≤ 2 ^ (1 + 52 + 2045) := pow_le_pow_right₀ one_le_two (by decide)
    _ = 2 * 2 ^ 52 * 2 ^ 2045 := by rw [pow_add, pow_add, pow_one]
    _ = magUnits binary64 binary64.inf := (magUnits_add binary64 2045 (2 * 2 ^ 52) le_rfl (.inr (by decide))).symm

/-- The widened pattern of a finite one: its sign, and the magnitude of the same value. -/
theorem widenF_of_finite {a : Fp} (ha : isFiniteF binary32 a = true) :
    ∃ m < binary64.inf, widenF a = (a.1, m) ∧ magUnits binary64 m = magUnits binary32 a.2 * 2 ^ 925 := by
  obtain ⟨m, hm, hval⟩ := exists_magUnits_binary64 (by simpa [isFiniteF] using ha)
  have hround : roundMag binary64 (magUnits binary32 a.2 * 2 ^ (binary64.scale - binary32.scale)) 1 = m :=
    roundMag_exact binary64 one_pos hm.le (by rw [Nat.mul_one, hval, scale32, scale64])
  refine ⟨m, hm, ?_, hval⟩
  simp only [widenF, not_isNaNF_of_finite ha, not_isInfF_of_finite ha, Bool.false_eq_true, if_false, hround]

/-- Settles O26: the value of a finite binary32 is a value of binary64, and rounding is exact there. -/
theorem wideningIsExact : Obligations.WideningIsExact := by
  intro a ha
  obtain ⟨m, hm, hwiden, hval⟩ := widenF_of_finite (a := unpack32 a) ha
  have hunpack : unpack64 (to64 a) = ((unpack32 a).1, m) := by
    rw [to64, hwiden, unpack64_pack64 (hm.trans (by rw [inf64]; decide))]
  rw [hunpack]
  refine ⟨decide_eq_true hm, ?_⟩
  simp only [units32, units, hval]
  split
  · rw [Nat.cast_mul, Nat.cast_pow, neg_mul]; rfl
  · rw [Nat.cast_mul, Nat.cast_pow]; rfl

end Sys2Proof.Machine
end

section
/-!
PROOFS. The reset of an ill-formed instance (spec/00_scope.md R10; log 5).
-/
namespace Sys2Proof.Machine

/-- A step takes the action at the head of the script. -/
theorem step_eq_runAction {s : State} {a : Action} {rest : List Action} (h : s.script = a :: rest) :
    step s = runAction a s := by
  rw [step, scriptStep, h]

theorem resetStep_of_illFormed {s : State} (draw : List F32) (h : configOk s.cfg = false) :
    resetStep draw s = .refused .illFormedConfig := by
  rw [resetStep, h, if_neg Bool.false_ne_true]

/-- Settles O53: taking the reset off the script leaves the configuration, which the reset step refuses. -/
theorem illFormedInstanceIsRefused : Obligations.IllFormedInstanceIsRefused := by
  intro s draw rest hscript hcfg
  rw [step_eq_runAction hscript]
  exact resetStep_of_illFormed (s := dropAction s) draw hcfg

end Sys2Proof.Machine
end

section
/-!
PROOFS. Who writes which field of the state (spec/10_state.md R47, R51, R265): what each kind of step leaves unchanged, and
the order of the pending writes (spec/20_memory.md R72).
-/
namespace Sys2Proof.Machine

/-! ## The pending writes land in any order -/

/-- Performing pairs reads nothing of PENDING. -/
theorem foldl_performWrite_withPending (ws ps : List Write) (s : State) :
    ws.foldl (fun u w => performWrite w u) { s with pending := ps }
      = { ws.foldl (fun u w => performWrite w u) s with pending := ps } := by
  induction ws generalizing s with
  | nil => rfl
  | cons w ws ih => simp only [List.foldl_cons, performWrite_withPending, ih]

/-- Settles O22, by induction on the order: the pair performed first can be moved to the front of the others. -/
theorem pendingWritesCommute : Obligations.PendingWritesCommute := by
  intro s order
  induction order generalizing s with
  | nil =>
    intro _ hlen
    have hnil : s.pending = [] := List.length_eq_zero_iff.mp hlen.symm
    simp only [hnil, List.foldl_nil]
    rw [← hnil]
  | cons i order ih =>
    intro hwf hlen
    have hbusy : s.pending ≠ [] := by
      rintro h
      simp [h] at hlen
    obtain ⟨k, hk, hwrite⟩ := controlWrite_busy i hbusy
    rw [performWrite_withPending] at hwrite
    have hlen' : order.length = (s.pending.eraseIdx k).length := by
      rw [List.length_eraseIdx_of_lt hk, ← hlen]
      rfl
    rw [List.foldl_cons, hwrite, ih _ (pendingWf_eraseIdx hwf k) hlen', foldl_performWrite_withPending,
      foldl_performWrite_eraseIdx s.pending hwf k hk]

/-! ## What the steps leave unchanged -/

/-- A pair writes no field of a voice but its frequency. -/
theorem performWrite_voices_map {α : Type} (g : Voice → α) (hg : ∀ v f, g { v with freq := f } = g v) (w : Write)
    (s : State) : (performWrite w s).voices.map g = s.voices.map g := by
  cases w with
  | voiceFreq k v =>
    apply List.ext_getElem
    · simp [performWrite]
    · intro n _ _
      simp only [performWrite, List.getElem_map, List.getElem_modify]
      split
      · exact hg _ _
      · rfl
  | _ => rfl

/-- Everything a ControlWrite can do: nothing, or perform a pair of PENDING, where only other pairs stay. -/
theorem controlWrite_cases (i : Nat) (s : State) : controlWrite i s = s ∨
    ∃ w ∈ s.pending, ∃ ps, ps.Sublist s.pending ∧ controlWrite i s = performWrite w { s with pending := ps } := by
  by_cases h : s.pending = []
  · exact .inl (controlWrite_idle i h)
  · obtain ⟨k, hk, he⟩ := controlWrite_busy i h
    exact .inr ⟨s.pending[k], List.getElem_mem hk, _, List.eraseIdx_sublist .., he⟩

/-- What a ControlWrite writes: parameter fields, the error fields, PENDING and MFAULT. -/
theorem controlWrite_frame (i : Nat) (s : State) :
    (controlWrite i s).cfg = s.cfg ∧ (controlWrite i s).table = s.table ∧ (controlWrite i s).out = s.out ∧
    (controlWrite i s).lfoPhase = s.lfoPhase ∧
    ∀ {α : Type} (g : Voice → α), (∀ v f, g { v with freq := f } = g v) →
      (controlWrite i s).voices.map g = s.voices.map g := by
  obtain he | ⟨w, -, ps, -, he⟩ := controlWrite_cases i s <;> rw [he]
  · exact ⟨rfl, rfl, rfl, rfl, fun _ _ => rfl⟩
  · exact ⟨performWrite_cfg .., performWrite_table .., performWrite_out .., performWrite_lfoPhase ..,
      fun g hg => performWrite_voices_map g hg ..⟩

/-- A ControlWrite keeps the error fields, or clears them whole by the pair of CLR_ERR (R236). -/
theorem controlWrite_error (i : Nat) (s : State) :
    (controlWrite i s).error = s.error ∨ (controlWrite i s).error = noError ∧ .errGroup ∈ s.pending := by
  obtain he | ⟨w, hmem, ps, -, he⟩ := controlWrite_cases i s <;> rw [he]
  · exact .inl rfl
  · cases w with
    | errGroup => exact .inr ⟨rfl, hmem⟩
    | _ => exact .inl rfl

/-- A command's own step writes PENDING, FRAMES_LEFT and MFAULT only. -/
theorem exec_frame {i : Instr} {s t : State} (h : exec i s = .next t) :
    t = { s with pending := t.pending, framesLeft := t.framesLeft, mfault := t.mfault } := by
  obtain rfl | ⟨n, -, -, rfl⟩ | ⟨-, -, rfl⟩ := exec_cases h <;> rfl

/-- The acceptance of a word writes the error fields besides those of its command. -/
theorem acceptWord_frame {p : Port} {w : Word} {s t : State} (h : acceptWord p w s = .next t) :
    t = { s with pending := t.pending, framesLeft := t.framesLeft, mfault := t.mfault, error := t.error } := by
  obtain ⟨i, -, he⟩ | ⟨c, -, rfl⟩ := acceptWord_cases h
  · rw [exec_frame he]
  · rfl

/-- The acceptance of a word keeps the error fields, or records the word's rejection (R262). -/
theorem acceptWord_error {p : Port} {w : Word} {s t : State} (h : acceptWord p w s = .next t) :
    t.error = s.error ∨ ∃ c, decode p w = .error c ∧ t.error = recordError s.error p c w := by
  obtain ⟨i, -, he⟩ | ⟨c, hd, rfl⟩ := acceptWord_cases h
  · exact .inl (by rw [exec_frame he])
  · exact .inr ⟨c, hd, rfl⟩

/-- A step keeps OUT, or it is no reset and a tick. -/
theorem step_tick_or_out {s t : State} (h : step s = .next t) :
    t.out = s.out ∨ (s.framesLeft ≠ 0#24 ∧ shapeOk s = true ∧ (∀ draw rest, s.script ≠ .reset draw :: rest) ∧
      ∃ sc ch, t = tickState (withOwn sc ch s)) := by
  cases step_cases h with
  | tick sc ch busy shape live eq => exact .inr ⟨busy, shape, live, sc, ch, eq⟩
  | write i sc ch busy eq =>
    obtain ⟨-, -, hout, -, -⟩ := controlWrite_frame i (withOwn sc ch s)
    exact .inl (by rw [eq, hout, withOwn_out])
  | accept p w sc head idle eq => exact .inl (by rw [acceptWord_frame eq, withOwn_out])
  | read a sc eq => exact .inl (by rw [eq, readStep_out, withOwn_out])
  | reset draw rest head ok eq => exact .inl (by rw [eq, applyReset_out, withOwn_out])
  | rest sc eq => exact .inl (by rw [eq, withOwn_out])

/-- Settles O49: only a tick appends to OUT, and it runs on the block alone. -/
theorem outGrowsOnlyByTicks : Obligations.OutGrowsOnlyByTicks := by
  intro s t h
  refine (step_tick_or_out h).imp_right ?_
  rintro ⟨hbusy, hshape, hlive, sc, ch, rfl⟩
  rw [tickState_withOwn]
  exact ⟨hbusy, hlive, ⟨tickState s, if_pos hshape, blockPart_withOwn ..⟩, tickState_framesLeft s, tickSample s,
    tickState_out s⟩

/-- Settles O50, by the kinds of steps: a tick writes the phases and no parameter, every other step no phase. -/
theorem fieldsHaveTheirWriters : Obligations.FieldsHaveTheirWriters := by
  intro s t h hlive
  cases step_cases h with
  | tick sc ch busy shape live eq =>
    subst eq
    rw [tickState_withOwn]
    have hvoices {α : Type} (g : Voice → α) (hg : ∀ v p, g { v with phase := p } = g v) :
        (tickState s).voices.map g = s.voices.map g := by
      rw [tickState_voices, tickVoices_map g hg]
    have hout : (tickState s).out ≠ s.out := by simp
    exact ⟨tickState_cfg s, tickState_table s, hvoices _ fun _ _ => rfl, fun h => absurd h hout, fun _ =>
      ⟨tickState_baseFreq s, tickState_oscWave s, tickState_sineShape s, tickState_activeVoices s,
        hvoices _ fun _ _ => rfl, tickState_lfoFreq s, tickState_lfoDepth s, tickState_lfoWave s, tickState_pending s,
        tickState_error s⟩⟩
  | write i sc ch busy eq =>
    obtain ⟨hcfg, htable, hout, hphase, hvoices⟩ := controlWrite_frame i (withOwn sc ch s)
    subst eq
    exact ⟨hcfg, htable, hvoices _ fun _ _ => rfl, fun _ => ⟨hphase, hvoices _ fun _ _ => rfl⟩, fun hne => absurd hout hne⟩
  | accept p w sc head idle eq =>
    rw [acceptWord_frame eq]
    exact ⟨rfl, rfl, rfl, fun _ => ⟨rfl, rfl⟩, fun hne => absurd rfl hne⟩
  | read a sc eq =>
    subst eq
    exact ⟨rfl, rfl, rfl, fun _ => ⟨rfl, rfl⟩, fun hne => absurd rfl hne⟩
  | reset draw rest head ok eq => exact absurd head (hlive draw rest)
  | rest sc eq =>
    subst eq
    exact ⟨rfl, rfl, rfl, fun _ => ⟨rfl, rfl⟩, fun hne => absurd rfl hne⟩

/-- Settles O51, by the kinds of steps. -/
theorem errorFieldsHaveThreeWriters : Obligations.ErrorFieldsHaveThreeWriters := by
  intro s t h
  cases step_cases h with
  | tick sc ch busy shape live eq => exact .inl (by rw [eq, tickState_error, withOwn_error])
  | write i sc ch busy eq =>
    subst eq
    exact (controlWrite_error i (withOwn sc ch s)).imp_right fun ⟨hclear, hmem⟩ => .inl ⟨hclear, .inl hmem⟩
  | accept p w sc head idle eq =>
    exact (acceptWord_error eq).imp_right fun ⟨c, hd, he⟩ => .inr ⟨p, w, c, sc, head, hd, idle, he⟩
  | read a sc eq => exact .inl (by rw [eq, readStep_error, withOwn_error])
  | reset draw rest head ok eq => exact .inr (.inl ⟨by rw [eq]; rfl, .inr ⟨draw, rest, head⟩⟩)
  | rest sc eq => exact .inl (by rw [eq, withOwn_error])

end Sys2Proof.Machine
end

section
/-!
PROOFS. What a tick reads (spec/10_state.md R24, spec/42_oscillator_bank.md R175).
-/
namespace Sys2Proof.Machine

/-- The multiplier is taken from the table, the LFO fields and the instance. -/
theorem tickMultiplier_congr {s u : State} (hcfg : s.cfg = u.cfg) (htable : s.table = u.table)
    (hwave : s.lfoWave = u.lfoWave) (hphase : s.lfoPhase = u.lfoPhase) (hdepth : s.lfoDepth = u.lfoDepth) :
    tickMultiplier s = tickMultiplier u := by
  simp only [tickMultiplier, lfoValue, latch, hcfg, htable, hwave, hphase, hdepth]

/-- The frequency and the phase of the voices that a tick advances. -/
def activeParts (s : State) : List (F32 × F32) :=
  (s.voices.take s.activeVoices.toNat).map (fun x => (x.freq, x.phase))

/-- The sample as a function of the active phases. -/
theorem tickSample_eq_activeParts (s : State) : tickSample s = if countOk s then
    mixSamples ((activeParts s).map fun x => waveValue s.table s.cfg.tableLog2 s.oscWave s.sineShape x.2)
      s.activeVoices.toNat else zero32 := by
  rw [tickSample, activeParts, List.map_map]
  rfl

/-- The active voices after a tick, as a function of their frequencies and phases before it. -/
theorem tickVoices_activeParts {s : State} (hshape : shapeOk s = true) :
    ((tickVoices s).take s.activeVoices.toNat).map (fun x => (x.freq, x.phase)) = if countOk s then
      (activeParts s).map fun x => (x.1, advance x.2 (voiceInc x.1 (tickMultiplier s) s.cfg.sampleRate))
    else activeParts s := by
  unfold tickVoices activeParts
  split
  · rename_i hcount
    have hlen : s.voices.length = s.cfg.maxVoices := by
      simp only [shapeOk, Bool.and_eq_true, decide_eq_true_eq] at hshape
      exact hshape.1
    have hactive : ((s.voices.take s.activeVoices.toNat).map (tickVoice s)).length = s.activeVoices.toNat := by
      rw [List.length_map, List.length_take, hlen]
      exact min_eq_left hcount.2
    rw [List.take_left' hactive, List.map_map, List.map_map]
    rfl
  · rfl

/-- Settles O42: the sample, the LFO phase and the active voices after a tick are functions of what the two states agree
on. -/
theorem tickReadsOnlyItsFields : Obligations.TickReadsOnlyItsFields := by
  intro s u t t' hs hu hcfg htable hfreq hdepth hphase hlfoWave hoscWave hshape hcount hvoices
  obtain ⟨hsShape, rfl⟩ := frameTick_next hs
  obtain ⟨huShape, rfl⟩ := frameTick_next hu
  have hparts : activeParts s = activeParts u := hvoices
  have hmult := tickMultiplier_congr hcfg htable hlfoWave hphase hdepth
  have hsample : tickSample s = tickSample u := by
    simp only [tickSample_eq_activeParts, countOk, hparts, hcfg, htable, hoscWave, hshape, hcount]
  refine ⟨?_, ?_, ?_⟩
  · simp only [tickState_out, List.getLast?_concat, hsample]
  · simp only [tickState_lfoPhase, hphase, hfreq, hcfg]
  · rw [tickState_voices, tickState_voices, tickVoices_activeParts hsShape, tickVoices_activeParts huShape]
    simp only [countOk, hparts, hmult, hcfg, hcount]

end Sys2Proof.Machine
end

section
/-!
PROOFS. Every step keeps the invariant (spec/10_state.md R49, spec/44_parameter_surface.md R239,
spec/40_phase_and_wavetable.md R127): one lemma for each kind of step.
-/
namespace Sys2Proof.Machine

/-! ## Values that commands write are legal -/

/-- Every command a form spells is well formed, its wave operand not 3. -/
def SpellsWellFormed : Form → Prop
  | .z i => i.wellFormed = true
  | .w mk => ∀ w, w ≠ 3#2 → (mk w).wellFormed = true
  | .s mk => ∀ v, (mk v).wellFormed = true
  | .n mk => ∀ n, (mk n).wellFormed = true

theorem opcodeMap_spellsWellFormed {opc : BitVec 8} {c : PortClass} {f : Form} (h : opcodeMap opc = some (c, f)) :
    SpellsWellFormed f := by
  unfold opcodeMap at h
  split at h <;> cases h <;> simp [SpellsWellFormed, Instr.wellFormed]

theorem decodeForm_wellFormed {f : Form} {arg : BitVec 24} {i : Instr} (hf : SpellsWellFormed f)
    (h : decodeForm f arg = .ok i) : i.wellFormed = true := by
  cases f with
  | z j =>
    simp only [decodeForm] at h
    split at h <;> cases h
    exact hf
  | w mk =>
    simp only [decodeForm] at h
    split at h
    · cases h
    · split at h <;> cases h
      exact hf _ ‹_›
  | s mk =>
    simp only [decodeForm] at h
    split at h <;> cases h
    exact hf _
  | n mk =>
    cases h
    exact hf _

/-- A command that a port accepts has no wave code 3 (R96). -/
theorem wellFormed_of_decode {p : Port} {w : Word} {i : Instr} (h : decode p w = .ok i) : i.wellFormed = true := by
  unfold decode at h
  split at h
  · cases h
  · split at h
    · exact decodeForm_wellFormed (opcodeMap_spellsWellFormed ‹_›) h
    · cases h

/-- A clamped number lies within the bounds (R221). -/
theorem between32_clamp32 {x lo hi : F32} (hx : isNaN32 x = false) (hb : le32 lo hi = true) :
    between32 lo hi (clamp32 x lo hi) = true := by
  obtain ⟨hlo, hhi, hle⟩ := le32_iff.mp hb
  rw [between32_iff, clamp32, lt32_eq hx hlo, lt32_eq hhi hx]
  simp only [decide_eq_true_eq]
  split
  · exact ⟨hlo, hhi, hlo, le_rfl, hle⟩
  · split
    · exact ⟨hlo, hhi, hhi, hle, le_rfl⟩
    · exact ⟨hlo, hhi, hx, by omega, by omega⟩

/-- A clamped sum of finite values lies within the bounds. -/
theorem between32_clamp32_add32 {a b lo hi : F32} (ha : isFinite32 a = true) (hb : isFinite32 b = true)
    (h : le32 lo hi = true) : between32 lo hi (clamp32 (add32 a b) lo hi) = true :=
  between32_clamp32 (add32_rounds ha hb).not_nan h

/-- A clamped difference of finite values lies within the bounds. -/
theorem between32_clamp32_sub32 {a b lo hi : F32} (ha : isFinite32 a = true) (hb : isFinite32 b = true)
    (h : le32 lo hi = true) : between32 lo hi (clamp32 (sub32 a b) lo hi) = true :=
  between32_clamp32 (sub32_rounds ha hb).not_nan h

theorem nextWaveCode_ne_three (w : BitVec 2) : nextWaveCode w ≠ 3#2 := by
  revert w
  decide

/-- The VOICE_FREQ pairs of existing slots are legal, whatever their values (R239 (d)). -/
theorem voiceFreqWrites_legal {c : Config} (g : Voice → F32) {vs : List Voice} (h : vs.length ≤ c.maxVoices) :
    (voiceFreqWrites g vs).all (writeLegal c) = true := by
  rw [List.all_eq_true]
  intro w hw
  obtain ⟨k, hk, rfl⟩ := List.mem_mapIdx.mp hw
  exact decide_eq_true (hk.trans_le h)

/-- The pairs of a base-frequency command are legal where its new value is. -/
theorem shiftWrites_legal {s : State} {new : F32} (hlen : s.voices.length = s.cfg.maxVoices)
    (hnew : between32 s.cfg.baseFreqMin s.cfg.baseFreqMax new = true) :
    (shiftWrites s new).all (writeLegal s.cfg) = true := by
  rw [shiftWrites, List.all_cons, voiceFreqWrites_legal _ hlen.le, Bool.and_true]
  exact hnew

/-- The pairs of a voice-count command are legal where its new count is. -/
theorem resizeWrites_legal {s : State} {c : Nat} (hlen : s.voices.length = s.cfg.maxVoices)
    (hmax : s.cfg.maxVoices ≤ 15) (hlow : 1 ≤ c) (hhigh : c ≤ s.cfg.maxVoices) :
    (resizeWrites s c).all (writeLegal s.cfg) = true := by
  have hslots : (s.voices.take c).length ≤ s.cfg.maxVoices := (List.length_take_le' ..).trans hlen.le
  have hcount : (BitVec.ofNat 4 c).toNat = c := by
    rw [BitVec.toNat_ofNat]
    exact Nat.mod_eq_of_lt (by omega)
  rw [resizeWrites, List.all_cons, reDeriveWrites, voiceFreqWrites_legal _ hslots, Bool.and_true]
  simp only [writeLegal, hcount, hlow, hhigh, decide_true, Bool.and_self]

theorem Invariant.voices_length {s : State} (h : Invariant s) : s.voices.length = s.cfg.maxVoices := by
  have hshape := h.shape
  simp only [shapeOk, Bool.and_eq_true, decide_eq_true_eq] at hshape
  exact hshape.1

/-- The write set of a command is legal in a state of the invariant (R238, R239). -/
theorem Invariant.commandWrites_legal {s : State} (h : Invariant s) {i : Instr} (hi : i.wellFormed = true) :
    (commandWrites i s).all (writeLegal s.cfg) = true := by
  obtain ⟨hlfoBounds, hbaseBounds, hdepthBounds⟩ := configOk_bounds h.config
  obtain ⟨hbaseStep, hlfoStep, hdepthStep⟩ := configOk_steps h.config
  obtain ⟨hbaseMin, hbaseMax, hlfoMax⟩ := configOk_bounds_finite h.config
  obtain ⟨-, -, hvoicesMin, hvoicesMax, -, -⟩ := configOk_sizes h.config
  have hlow := h.voicesLow
  have hhigh := h.voicesHigh
  have hlfoFreq := isFinite32_of_between32 (by decide) hlfoMax h.lfoFreq
  have hlfoDepth := isFinite32_of_between32 (by decide) (by decide) h.lfoDepth
  have hbaseFreq := isFinite32_of_between32 hbaseMin hbaseMax h.baseFreq
  have single {w : Write} (hw : writeLegal s.cfg w = true) : [w].all (writeLegal s.cfg) = true := by
    rw [List.all_cons, hw]; rfl
  cases i with
  | nop | render n => exact h.pendingLegal
  | lfoFreqInc => exact single (between32_clamp32_add32 hlfoFreq hlfoStep hlfoBounds)
  | lfoFreqDec => exact single (between32_clamp32_sub32 hlfoFreq hlfoStep hlfoBounds)
  | lfoDepthInc => exact single (between32_clamp32_add32 hlfoDepth hdepthStep hdepthBounds)
  | lfoDepthDec => exact single (between32_clamp32_sub32 hlfoDepth hdepthStep hdepthBounds)
  | baseFreqInc => exact shiftWrites_legal h.voices_length (between32_clamp32_add32 hbaseFreq hbaseStep hbaseBounds)
  | baseFreqDec => exact shiftWrites_legal h.voices_length (between32_clamp32_sub32 hbaseFreq hbaseStep hbaseBounds)
  | voicesInc =>
    exact resizeWrites_legal h.voices_length hvoicesMax (by unfold voiceCountUp; omega) (by unfold voiceCountUp; omega)
  | voicesDec =>
    exact resizeWrites_legal h.voices_length hvoicesMax (by unfold voiceCountDown; omega)
      (by unfold voiceCountDown; omega)
  | oscWaveNext | lfoWaveNext => exact single (bne_iff_ne.mpr (nextWaveCode_ne_three _))
  | setOscWave w | setLfoWave w => exact single hi
  | setSineShape v | clrErr => exact single rfl

/-! ## The kinds of steps -/

/-- The model's own fields are outside the invariant. -/
theorem Invariant.withOwn {s : State} (h : Invariant s) (sc : List Action) (ch : Nat) : Invariant (withOwn sc ch s) :=
  { h with }

/-- A set of legal pairs in canonical form may become PENDING. -/
theorem Invariant.withPending {s : State} (h : Invariant s) {ws : List Write} (hwf : pendingWf ws)
    (hlegal : ws.all (writeLegal s.cfg) = true) : Invariant { s with pending := ws } :=
  { h with pendingForm := hwf, pendingLegal := hlegal }

/-- A fault set records that an advance left [0, 1) (R126). -/
def MarksPhase (f : MFaults) : Prop := f.nonfinite = true ∨ f.phaseRange = true

@[simp] theorem marksPhase_union {a b : MFaults} : MarksPhase (a.union b) ↔ MarksPhase a ∨ MarksPhase b := by
  simp only [MarksPhase, MFaults.union, Bool.or_eq_true]
  tauto

/-- More model faults keep the invariant. -/
theorem Invariant.addFaults {s : State} (h : Invariant s) (f : MFaults) : Invariant (addFaults f s) :=
  { h with
    freqs := h.freqs.imp_right fun hb => by simp [MFaults.union, hb]
    phases := h.phases.imp_right fun hm => marksPhase_union.mpr (.inl hm) }

/-- A test that does not look at the frequency holds of the same slots after a write. -/
theorem performWrite_voices_all (g : Voice → Bool) (hg : ∀ v f, g { v with freq := f } = g v) (w : Write) (s : State) :
    (performWrite w s).voices.all g = s.voices.all g := by
  have hmap := congrArg (List.all · id) (performWrite_voices_map g hg w s)
  simpa only [List.all_map, Function.id_comp] using hmap

theorem shapeOk_performWrite (w : Write) (s : State) : shapeOk (performWrite w s) = shapeOk s := by
  have hlen := congrArg List.length (performWrite_voices_map (fun _ => ()) (fun _ _ => rfl) w s)
  simp only [List.length_map] at hlen
  rw [shapeOk, hlen, performWrite_cfg, performWrite_table, shapeOk]

theorem phasesInUnit_performWrite (w : Write) (s : State) : phasesInUnit (performWrite w s) = phasesInUnit s := by
  rw [phasesInUnit, performWrite_lfoPhase, performWrite_voices_all _ fun _ _ => rfl, phasesInUnit]

/-- A write of a VOICE_FREQ that is not positive sets BAD_STATE (log 28), any other one leaves the slots positive. -/
theorem performWrite_voiceFreq_freqs (k : Nat) (v : F32) {s : State}
    (h : s.voices.all (fun x => pos32 x.freq) = true ∨ s.mfault.badState = true) :
    (performWrite (.voiceFreq k v) s).voices.all (fun x => pos32 x.freq) = true ∨
    (performWrite (.voiceFreq k v) s).mfault.badState = true := by
  by_cases hv : pos32 v = true
  · refine h.imp (fun hall => ?_) fun hb => by simp [MFaults.union, hb]
    rw [List.all_eq_true] at hall ⊢
    intro x hx
    obtain ⟨n, hn, rfl⟩ := List.getElem_of_mem hx
    simp only [performWrite, List.getElem_modify]
    split
    · exact hv
    · exact hall _ (List.getElem_mem _)
  · exact .inr (by simp [MFaults.union, writeFaults, hv])

/-- A legal write keeps the invariant. -/
theorem Invariant.performWrite {s : State} (h : Invariant s) {w : Write} (hw : writeLegal s.cfg w = true) :
    Invariant (performWrite w s) := by
  cases w with
  | baseFreq v => exact { h with baseFreq := hw }
  | oscWave v => exact { h with oscWave := bne_iff_ne.mp hw }
  | sineShape v => exact { h with }
  | activeVoices v =>
    obtain ⟨hlow, hhigh⟩ := Bool.and_eq_true_iff.mp hw
    exact { h with voicesLow := of_decide_eq_true hlow, voicesHigh := of_decide_eq_true hhigh }
  | lfoFreq v => exact { h with lfoFreq := hw }
  | lfoDepth v => exact { h with lfoDepth := hw }
  | lfoWave v => exact { h with lfoWave := bne_iff_ne.mp hw }
  | errGroup => exact { h with }
  | voiceFreq k v =>
    exact { h with
      shape := (shapeOk_performWrite ..).trans h.shape
      detune := (performWrite_voices_all _ (fun _ _ => rfl) ..).trans h.detune
      freqs := performWrite_voiceFreq_freqs k v h.freqs
      phases := (h.addFaults (freqFaults v)).phases.imp_left (phasesInUnit_performWrite (.voiceFreq k v) s).trans }

/-- A ControlWrite keeps the invariant: the pair it performs is a legal one. -/
theorem Invariant.controlWrite {s : State} (h : Invariant s) (i : Nat) : Invariant (controlWrite i s) := by
  obtain he | ⟨w, hw, ps, hps, he⟩ := controlWrite_cases i s <;> rw [he]
  · exact h
  · have hlegal := List.all_eq_true.mp h.pendingLegal
    have hrest : ps.all (writeLegal s.cfg) = true := List.all_eq_true.mpr fun x hx => hlegal x (hps.subset hx)
    exact (h.withPending (h.pendingForm.sublist hps) hrest).performWrite (hlegal w hw)

/-- The acceptance of a word keeps the invariant. -/
theorem Invariant.acceptWord {s t : State} (h : Invariant s) {p : Port} {w : Word}
    (hw : acceptWord p w s = .next t) : Invariant t := by
  obtain ⟨i, hd, he⟩ | ⟨c, -, rfl⟩ := acceptWord_cases hw
  · obtain rfl | ⟨n, -, -, rfl⟩ | ⟨-, -, rfl⟩ := exec_cases he
    · exact h
    · exact { h with }
    · have hlegal := h.commandWrites_legal (wellFormed_of_decode hd)
      exact (h.withPending (pendingWf_commandWrites i h.pendingForm) hlegal).addFaults (commandFaults i s)
  · exact { h with }

/-- An advance gives a phase in [0, 1), or its model fault says that it does not (R126, R127). -/
theorem inUnit_advance_or_marksPhase (p inc : F32) :
    inUnit (advance p inc) = true ∨ MarksPhase (advanceFaults p inc) := by
  unfold advance advanceFaults
  split
  · split
    · exact .inl ‹_›
    · exact .inr (.inr rfl)
  · exact .inr (.inl rfl)

/-- The advances of the first n slots leave their phases in [0, 1), or a model fault says that one does not. -/
theorem inUnit_tickVoice_or_marksPhase (s : State) (vs : List Voice) (n : Nat) :
    (∀ v ∈ vs.take n, inUnit (tickVoice s v).phase = true) ∨
    MarksPhase (advanceVoicesFaults vs ((vs.take n).map (tickInc s))) := by
  induction vs generalizing n with
  | nil => simp
  | cons v vs ih =>
    cases n with
    | zero => simp
    | succ n =>
      simp only [List.take_succ_cons, List.map_cons, advanceVoicesFaults, marksPhase_union, List.forall_mem_cons]
      obtain hv | hm := inUnit_advance_or_marksPhase v.phase (tickInc s v)
      · exact (ih n).imp (⟨hv, ·⟩) .inr
      · exact .inr (.inl hm)

/-- A tick with a good voice count keeps every phase in [0, 1), or a model fault says that it does not. -/
theorem phasesInUnit_tickState_or_marksPhase {s : State} (hcount : countOk s) (h : phasesInUnit s = true) :
    phasesInUnit (tickState s) = true ∨ MarksPhase (tickFaults s) := by
  obtain ⟨-, hvoices⟩ := Bool.and_eq_true_iff.mp h
  rw [List.all_eq_true] at hvoices
  simp only [tickFaults, if_pos hcount, marksPhase_union]
  obtain hlfo | hm := inUnit_advance_or_marksPhase s.lfoPhase (div32 s.lfoFreq s.cfg.sampleRate)
  · obtain hactive | hm := inUnit_tickVoice_or_marksPhase s s.voices s.activeVoices.toNat
    · left
      rw [phasesInUnit, tickState_lfoPhase, hlfo, tickState_voices, tickVoices, if_pos hcount, Bool.true_and,
        List.all_append, List.all_map, Bool.and_eq_true, List.all_eq_true, List.all_eq_true]
      exact ⟨hactive, fun v hv => hvoices v (List.mem_of_mem_drop hv)⟩
    · exact .inr (.inr (.inr hm))
  · exact .inr (.inl (.inr hm))

/-- A tick keeps the invariant. -/
theorem Invariant.tickState {s : State} (h : Invariant s) : Invariant (tickState s) := by
  have hphases : phasesInUnit (Machine.tickState s) = true ∨ MarksPhase (Machine.tickState s).mfault := by
    rw [tickState_mfault, marksPhase_union]
    obtain hin | hm := h.phases
    · exact (phasesInUnit_tickState_or_marksPhase ⟨h.voicesLow, h.voicesHigh⟩ hin).imp_right .inr
    · exact .inr (.inl hm)
  rw [tickState_eq] at hphases ⊢
  exact { h with
    shape := by rw [shapeOk, tickVoices_length]; exact h.shape
    detune := (tickVoices_all _ (fun _ _ => rfl) s).trans h.detune
    freqs := h.freqs.imp (tickVoices_all _ (fun _ _ => rfl) s).trans fun hb => by simp [MFaults.union, hb]
    phases := hphases }

/-- The reset frequency 240.0 times a ratio of a well-formed instance is finite and above 0 (R295): the exact product is at
least the ratio and below 512.0. -/
theorem pos32_mul32_resetBaseFreq {c : Config} (hc : configOk c = true) {d : F32} (hd : inDetuneRange c d = true) :
    pos32 (mul32 resetBaseFreq d) = true := by
  obtain ⟨-, -, hmax⟩ := configOk_detune hc
  simp only [inDetuneRange, Bool.and_eq_true, decide_eq_true_eq] at hd
  obtain ⟨⟨hfin, hlow⟩, hhigh⟩ := hd
  have hone : oneUnits32 = 2 ^ 149 := by decide
  have hbase : units32 resetBaseFreq = 240 * 2 ^ 149 := by decide
  have htop : units32 0x44000000#32 = 512 * 2 ^ 149 := by decide
  have hround := mul32_rounds (a := resetBaseFreq) (by decide) hfin
  have hge : units32 d ≤ units32 (mul32 resetBaseFreq d) :=
    hround.ge (by decide) d (not_isNaN32_of_finite hfin) (by rw [hbase]; push_cast; omega)
  have hle : units32 (mul32 resetBaseFreq d) ≤ 512 * 2 ^ 149 :=
    htop ▸ hround.le (by decide) 0x44000000#32 (by decide) (by rw [hbase, htop]; push_cast; omega)
  simp only [pos32, Bool.and_eq_true, decide_eq_true_eq]
  exact ⟨isFinite32_of_small (by omega), by omega⟩

theorem between32_of_within32 {lo hi x : F32} (hlo : isFinite32 lo = true) (hhi : isFinite32 hi = true)
    (h : within32 lo hi x = true) : between32 lo hi x = true := by
  simp only [within32, Bool.and_eq_true, decide_eq_true_eq] at h
  obtain ⟨⟨hx, hlow⟩, hhigh⟩ := h
  exact between32_iff.mpr ⟨not_isNaN32_of_finite hlo, not_isNaN32_of_finite hhi, not_isNaN32_of_finite hx, hlow, hhigh⟩

/-- The reset values of a well-formed instance lie within its bounds (R10 (f)). -/
theorem configOk_resetValues {c : Config} (h : configOk c = true) :
    between32 c.baseFreqMin c.baseFreqMax resetBaseFreq = true ∧ between32 lfoFreqMin c.lfoFreqMax resetLfoFreq = true := by
  obtain ⟨hmin, hmax, hlfo⟩ := configOk_bounds_finite h
  simp only [configOk, resetValuesOk, Bool.and_eq_true] at h
  obtain ⟨-, ⟨⟨hbase, -⟩, -⟩, hlfoReset⟩ := h
  exact ⟨between32_of_within32 hmin hmax hbase, between32_of_within32 (by decide) hlfo hlfoReset⟩

@[simp] theorem resetVoices_length (c : Config) (draw : List F32) : (resetVoices c draw).length = c.maxVoices := by
  simp [resetVoices]

/-- A slot after a reset is one of the slots from an admissible draw. -/
theorem exists_of_mem_resetVoices {c : Config} (hc : configOk c = true) {draw : List F32} {v : Voice}
    (h : v ∈ resetVoices c draw) :
    ∃ d, inDetuneRange c d = true ∧ v = { freq := mul32 resetBaseFreq d, phase := zero32, detune := d } := by
  obtain ⟨k, -, rfl⟩ := List.mem_map.mp h
  exact ⟨_, inDetuneRange_admitDraw hc _, rfl⟩

/-- The reset of a well-formed instance establishes the invariant from every state. -/
theorem invariant_applyReset {s : State} (hc : configOk s.cfg = true) (draw : List F32) :
    Invariant (applyReset draw s) := by
  obtain ⟨-, -, hvoicesMin, -, htable, -⟩ := configOk_sizes hc
  obtain ⟨hbase, hlfo⟩ := configOk_resetValues hc
  have hvoices (g : Voice → Bool) (hg : ∀ d, inDetuneRange s.cfg d = true →
      g { freq := mul32 resetBaseFreq d, phase := zero32, detune := d } = true) :
      (resetVoices s.cfg draw).all g = true := by
    rw [List.all_eq_true]
    intro v hv
    obtain ⟨d, hd, rfl⟩ := exists_of_mem_resetVoices hc hv
    exact hg d hd
  have hzero : inUnit zero32 = true := by decide
  have hphases : phasesInUnit (applyReset draw s) = true := by
    rw [phasesInUnit, applyReset_lfoPhase, hzero, applyReset_voices, hvoices _ fun _ _ => hzero]
    rfl
  exact {
    config := hc
    shape := by
      simp only [shapeOk, applyReset_voices, resetVoices_length, applyReset_table, applyReset_cfg, resetTable, htable,
        decide_true, Bool.and_self]
    table := rfl
    pendingForm := List.Pairwise.nil
    pendingLegal := rfl
    baseFreq := hbase
    oscWave := (by decide : resetOscWave ≠ 3#2)
    lfoWave := (by decide : resetLfoWave ≠ 3#2)
    voicesLow := (by decide : 1 ≤ resetActiveVoices.toNat)
    voicesHigh := hvoicesMin
    lfoFreq := hlfo
    lfoDepth := (by decide : between32 depthMin depthMax resetLfoDepth = true)
    detune := hvoices _ fun d hd => hd
    freqs := .inl (hvoices _ fun d hd => pos32_mul32_resetBaseFreq hc hd)
    phases := .inl hphases }

/-- Settles O46, by the kinds of steps. -/
theorem stepKeepsInvariant : Obligations.StepKeepsInvariant := by
  intro s t h hstep
  cases step_cases hstep with
  | tick sc ch busy shape live eq => exact eq ▸ (h.withOwn sc ch).tickState
  | write i sc ch busy eq => exact eq ▸ (h.withOwn sc ch).controlWrite i
  | accept p w sc head idle eq => exact (h.withOwn sc s.choices).acceptWord eq
  | read a sc eq => exact eq ▸ { h.withOwn sc s.choices with }
  | reset draw rest head ok eq => exact eq ▸ invariant_applyReset (s := withOwn rest s.choices s) ok draw
  | rest sc eq => exact eq ▸ h.withOwn sc s.choices

end Sys2Proof.Machine
end

section
/-!
PROOFS. The readback words by their fields (spec/10_state.md R35, R43, spec/20_memory.md R63).
-/
namespace Sys2Proof.Machine

/-- A concatenation as a number. -/
theorem toNat_append_eq {m n : Nat} (x : BitVec m) (y : BitVec n) : (x ++ y).toNat = x.toNat * 2 ^ n + y.toNat := by
  rw [BitVec.toNat_append, ← Nat.shiftLeft_add_eq_or_of_lt y.isLt, Nat.shiftLeft_eq]

/-- Settles O59: each word is a concatenation of its fields and zeros, and a well-formed instance's sizes fit theirs. -/
theorem controlWordFields : Obligations.ControlWordFields := by
  intro s hlog hvoices
  have hlog' : (BitVec.ofNat 5 s.cfg.tableLog2).toNat = s.cfg.tableLog2 := by
    rw [BitVec.toNat_ofNat]
    exact Nat.mod_eq_of_lt (by omega)
  have hvoices' : (BitVec.ofNat 4 s.cfg.maxVoices).toNat = s.cfg.maxVoices := by
    rw [BitVec.toNat_ofNat]
    exact Nat.mod_eq_of_lt (by omega)
  refine ⟨?_, ?_, ?_⟩
  · simp only [oscCtrlWord, toNat_append_eq, BitVec.toNat_ofNat]
    omega
  · simp only [lfoCtrlWord, toNat_append_eq, BitVec.toNat_ofNat]
    omega
  · simp only [configWord, toNat_append_eq, hlog', hvoices', BitVec.toNat_ofNat]
    omega

theorem getLsbD_portBit_zero (p : Port) : (portBit p).getLsbD 0 = true ↔ p = .engine := by
  cases p <;> decide

/-- Settles O58: the bits by their places in the concatenation of the fields, the busy bits by R40 and R41. -/
theorem statusBits : Obligations.StatusBits := by
  intro s
  have hctrl : ctrlBusy s = true ↔ s.pending ≠ [] := ctrlBusy_eq_true s
  have heng : engBusy s = true ↔ 0 < s.framesLeft.toNat := by
    rw [engBusy_eq_true, Nat.pos_iff_ne_zero, ne_eq, ne_eq, BitVec.toNat_eq, BitVec.toNat_ofNat, Nat.zero_mod]
  have hcause : (statusWord s).extractLsb' 4 4 = s.error.cause := by
    apply BitVec.eq_of_getLsbD_eq
    intro i hi
    have hplace : ¬ 4 + i < 1 ∧ ¬ 4 + i - 1 < 1 ∧ ¬ 4 + i - 1 - 1 < 1 ∧ ¬ 4 + i - 1 - 1 - 1 < 1 ∧
      4 + i - 1 - 1 - 1 - 1 = i := by omega
    simp only [BitVec.getLsbD_extractLsb', statusWord, BitVec.getLsbD_append, hplace, hi, if_false, if_true, decide_true,
      Bool.true_and]
  have hrest : ∀ i, 10 ≤ i → (statusWord s).getLsbD i = false := by
    intro i hi
    have hplace : ¬ i < 1 ∧ ¬ i - 1 < 1 ∧ ¬ i - 1 - 1 < 1 ∧ ¬ i - 1 - 1 - 1 < 1 ∧ ¬ i - 1 - 1 - 1 - 1 < 4 ∧
      ¬ i - 1 - 1 - 1 - 1 - 4 < 1 ∧ ¬ i - 1 - 1 - 1 - 1 - 4 - 1 < 1 := by omega
    simp only [statusWord, BitVec.getLsbD_append, hplace, if_false, BitVec.getLsbD_zero]
  refine ⟨?_, ?_, ?_, ?_, hcause, ?_, ?_, hrest⟩
  all_goals simp only [statusWord, BitVec.getLsbD_append, BitVec.getLsbD_ofBool, Nat.reduceSub, Nat.reduceLT, if_true,
    if_false, decide_true, Bool.true_and]
  · exact getLsbD_portBit_zero _
  · rfl
  · exact hctrl
  · exact heng

end Sys2Proof.Machine
end

section
/-!
PROOFS. The power-on state (spec/10_state.md R56, spec/00_scope.md R9).
-/
namespace Sys2Proof.Machine

theorem configOk_fallbackConfig : configOk fallbackConfig = true := by decide

/-- The power-on instance is well formed, with the decided values of R9. -/
theorem currentConfig_decided : configOk currentConfig = true ∧ currentConfig.sampleRate = 0x473B8000#32 ∧
    currentConfig.maxVoices = 5 ∧ currentConfig.baseFreqMin = 0x42480000#32 ∧
    currentConfig.baseFreqMax = 0x44160000#32 := by
  unfold currentConfig
  split
  · exact ⟨‹_›, rfl, rfl, rfl, rfl⟩
  · exact ⟨configOk_fallbackConfig, rfl, rfl, rfl, rfl⟩

/-- Settles O55: the fixed values by evaluation, the instance's by `currentConfig_decided`, the slots' as those of every
reset. -/
theorem powerOnResetValues : Obligations.PowerOnResetValues := by
  obtain ⟨hok, hrate, hmax, hmin, hmaxFreq⟩ := currentConfig_decided
  have hlen : State.reset.voices.length = 5 := (resetVoices_length _ _).trans hmax
  have hslots : ∀ v ∈ State.reset.voices, inDetuneRange State.reset.cfg v.detune = true ∧
      v.freq = mul32 0x43700000#32 v.detune ∧ v.phase = 0#32 := by
    intro v hv
    obtain ⟨d, hd, rfl⟩ := exists_of_mem_resetVoices hok hv
    exact ⟨hd, rfl, rfl⟩
  exact ⟨rfl, rfl, rfl, rfl, rfl, rfl, rfl, rfl, rfl, rfl, rfl, rfl, rfl, rfl, rfl, hlen, hslots, hok, hrate, hmax, hmin,
    hmaxFreq⟩

end Sys2Proof.Machine
end

section
/-!
PROOFS. The steps of the machine and the atomic steps of the block (spec/20_memory.md R70) are the same, in both directions.
-/
namespace Sys2Proof.Machine

/-! ## Every machine step is atomic -/

theorem frameTick_of_shapeOk {s : State} (h : shapeOk s = true) : frameTick s = .next (tickState s) := if_pos h

theorem resetStep_of_configOk {s : State} (draw : List F32) (h : configOk s.cfg = true) :
    resetStep draw s = .next (applyReset draw s) := if_pos h

/-- Settles O8, by the kinds of steps: each runs on the block whatever the model's own fields hold, and a step that moves
nothing is a read. -/
theorem everyStepIsAtomic : Obligations.EveryStepIsAtomic := by
  intro s t h
  cases step_cases h with
  | tick sc ch busy shape live eq =>
    exact ⟨tickState s, .tick s _ ((engBusy_eq_true s).mpr busy) (frameTick_of_shapeOk shape), by
      rw [eq, tickState_withOwn, blockPart_withOwn]⟩
  | write i sc ch busy eq =>
    exact ⟨controlWrite i s, .write i s ((ctrlBusy_eq_true s).mpr busy), by
      rw [eq, controlWrite_withOwn, blockPart_withOwn]⟩
  | accept p w sc head idle eq =>
    have haccept := acceptWord_withOwn s.script s.choices eq
    rw [withOwn_withOwn, withOwn_self] at haccept
    exact ⟨_, .issue p w s _ idle haccept, (blockPart_withOwn ..).symm⟩
  | read a sc eq => exact ⟨s, .read s, by rw [eq]; rfl⟩
  | reset draw rest head ok eq =>
    exact ⟨applyReset draw s, .reset draw s _ (resetStep_of_configOk draw ok), by
      rw [eq, applyReset_withOwn, blockPart_withOwn]⟩
  | rest sc eq => exact ⟨s, .read s, by rw [eq, blockPart_withOwn]⟩

/-! ## Every atomic step can come next -/

/-- The action that offers a word on a port. -/
def offerAction : Port → Word → Action
  | .control => .control
  | .engine => .engine

theorem runAction_offerAction (p : Port) (w : Word) (s : State) : runAction (offerAction p w) s = offerWord p w s := by
  cases p <;> rfl

/-- The state with an action placed before its script. -/
def withNext (a : Action) (s : State) : State := { s with script := a :: s.script }

@[simp] theorem dropAction_withNext (a : Action) (s : State) : dropAction (withNext a s) = s := rfl
@[simp] theorem engBusy_withNext (a : Action) (s : State) : engBusy (withNext a s) = engBusy s := rfl
@[simp] theorem portBusy_withNext (p : Port) (a : Action) (s : State) : portBusy p (withNext a s) = portBusy p s := by
  cases p <;> rfl

theorem step_withNext (a : Action) (s : State) : step (withNext a s) = runAction a (withNext a s) := rfl

/-- A word offered next on an idle port is accepted. -/
theorem step_withNext_offerAction {p : Port} {s : State} (w : Word) (idle : portBusy p s = false) :
    step (withNext (offerAction p w) s) = acceptWord p w s := by
  rw [step_withNext, runAction_offerAction, offerWord, portBusy_withNext, idle, if_neg Bool.false_ne_true, dropAction_withNext]

/-- A tick that comes next on a busy engine is taken. -/
theorem step_withNext_tick {s : State} (busy : engBusy s = true) : step (withNext .tick s) = frameTick s := by
  rw [step_withNext, runAction, engBusy_withNext, if_pos busy, dropAction_withNext]

/-- A reset answers exactly for well-formed instances. -/
theorem resetStep_next {draw : List F32} {s t : State} (h : resetStep draw s = .next t) :
    configOk s.cfg = true ∧ t = applyReset draw s := by
  unfold resetStep at h
  split at h
  · exact ⟨‹_›, (Host.Outcome.next.inj h).symm⟩
  · cases h

theorem controlWrite_script (i : Nat) (s : State) : (controlWrite i s).script = s.script := by
  obtain he | ⟨w, -, ps, -, he⟩ := controlWrite_cases i s
  · rw [he]
  · rw [he, performWrite_script]

/-- The block's steps leave the script to the machine. -/
theorem AtomicStep.script_eq {s u : State} (h : AtomicStep s u) : u.script = s.script := by
  cases h with
  | issue p w _ _ idle eq => rw [acceptWord_frame eq]
  | tick _ _ busy eq =>
    obtain ⟨-, rfl⟩ := frameTick_next eq
    exact tickState_script s
  | write i _ busy => exact controlWrite_script i s
  | read => rfl
  | reset draw _ _ eq =>
    obtain ⟨-, rfl⟩ := resetStep_next eq
    exact applyReset_script s draw

/-- Settles O9: each atomic step has an action that takes it when it stands next in the script. -/
theorem everyAtomicStepCanComeNext : Obligations.EveryAtomicStepCanComeNext := by
  intro s u h
  have hscript := h.script_eq
  cases h with
  | issue p w _ _ idle eq => exact ⟨offerAction p w, u, (step_withNext_offerAction w idle).trans eq, rfl, hscript⟩
  | tick _ _ busy eq => exact ⟨.tick, u, (step_withNext_tick busy).trans eq, rfl, hscript⟩
  | write i _ busy => exact ⟨.write i, _, rfl, rfl, hscript⟩
  | read => exact ⟨.read 0#20, readStep 0#20 s, rfl, rfl, readStep_script s _⟩
  | reset draw _ _ eq => exact ⟨.reset draw, u, eq, rfl, hscript⟩

end Sys2Proof.Machine
end

section
/-!
PROOFS. The readback port (spec/20_memory.md R61 to R65, R68, R69): the word at each part of the address space.
-/
namespace Sys2Proof.Machine

/-! ## Sizes -/

theorem shapeOk_sizes {s : State} (h : shapeOk s = true) :
    s.voices.length = s.cfg.maxVoices ∧ s.table.length = tableSize s.cfg := by
  simpa only [shapeOk, Bool.and_eq_true, decide_eq_true_eq] using h

theorem tableSize_le {c : Config} (h : c.tableLog2 ≤ 16) : tableSize c ≤ 2 ^ 16 := Nat.pow_le_pow_right (by decide) h

/-- A number that fits the address space is its own address. -/
theorem toNat_ofNat_addr {n : Nat} (h : n < 2 ^ 20) : (BitVec.ofNat 20 n).toNat = n := by
  rw [BitVec.toNat_ofNat, Nat.mod_eq_of_lt h]

/-! ## The windows of the map -/

section windows
variable {s : State} {a : Addr}

theorem memRead_misaligned (h : a.toNat % 4 ≠ 0) : memRead s a = 0#32 := if_pos h

/-- A read gives 0 as soon as it does so at aligned addresses. -/
theorem memRead_eq_zero (h : a.toNat % 4 = 0 → memRead s a = 0#32) : memRead s a = 0#32 :=
  (em (a.toNat % 4 = 0)).elim h memRead_misaligned

theorem memRead_register (haligned : a.toNat % 4 = 0) (hhigh : a.toNat < 0x40) :
    memRead s a = registerWord s a.toNat := by
  rw [memRead, if_neg (not_not.mpr haligned), if_pos hhigh]

theorem memRead_voiceWindow (haligned : a.toNat % 4 = 0) (hlow : 0x40 ≤ a.toNat) (hhigh : a.toNat < 0x140) :
    memRead s a = voiceWord s ((a.toNat - 0x40) / 16) ((a.toNat - 0x40) % 16 / 4) := by
  rw [memRead, if_neg (not_not.mpr haligned), if_neg (not_lt.mpr hlow), if_pos hhigh]

theorem memRead_tableWindow (haligned : a.toNat % 4 = 0) (hlow : 0x1000 ≤ a.toNat) :
    memRead s a = tableWord s ((a.toNat - 0x1000) / 4) := by
  rw [memRead, if_neg (not_not.mpr haligned), if_neg (by omega), if_neg (by omega), if_neg (not_lt.mpr hlow)]

/-- Between the voice window and the table window the map is empty (R69). -/
theorem memRead_gap (hlow : 0x140 ≤ a.toNat) (hhigh : a.toNat < 0x1000) : memRead s a = 0#32 :=
  memRead_eq_zero fun haligned => by
    rw [memRead, if_neg (not_not.mpr haligned), if_neg (by omega), if_neg (not_lt.mpr hlow), if_pos hhigh]

/-- The word j of the slot k stands at 0x40 + 4 j + 16 k. -/
theorem memRead_slot {k j : Nat} (ha : a.toNat = 0x40 + 4 * j + 16 * k) (hk : k < 16) (hj : j < 4) :
    memRead s a = voiceWord s k j := by
  have hslot : (a.toNat - 0x40) / 16 = k := by omega
  have hword : (a.toNat - 0x40) % 16 / 4 = j := by omega
  rw [memRead_voiceWindow (by omega) (by omega) (by omega), hslot, hword]

end windows

/-! ## The words in the windows -/

/-- Past the last register the register file reads 0. -/
theorem registerWord_past (s : State) {n : Nat} (h : 0x24 < n) : registerWord s n = 0#32 := by
  unfold registerWord
  iterate 10 rw [if_neg (by omega)]

/-- The words of a slot that exists. -/
theorem voiceWord_of_lt {s : State} {k : Nat} (hmax : k < s.cfg.maxVoices) (h : k < s.voices.length) :
    voiceWord s k 0 = s.voices[k].freq ∧ voiceWord s k 1 = s.voices[k].phase ∧ voiceWord s k 2 = s.voices[k].detune := by
  simp [voiceWord, hmax, List.getElem?_eq_getElem h]

/-- Slots at and beyond MAX_VOICES read 0. -/
theorem voiceWord_past {s : State} {k : Nat} (h : s.cfg.maxVoices ≤ k) (j : Nat) : voiceWord s k j = 0#32 :=
  if_neg (not_lt.mpr h)

/-- The fourth word of every slot reads 0. -/
theorem voiceWord_three (s : State) (k : Nat) : voiceWord s k 3 = 0#32 := by
  unfold voiceWord
  split
  · split <;> rfl
  · rfl

theorem tableWord_of_lt {s : State} {i : Nat} (hsize : i < tableSize s.cfg) (h : i < s.table.length) :
    tableWord s i = s.table[i] := by
  rw [tableWord, if_pos hsize, List.getD_eq_getElem _ _ h]

/-- Past its end the table window reads 0. -/
theorem tableWord_past {s : State} {i : Nat} (h : tableSize s.cfg ≤ i) : tableWord s i = 0#32 := if_neg (not_lt.mpr h)

/-! ## The parts of the map that read 0 -/

/-- From the first slot that does not exist to the table window the map reads 0. -/
theorem memRead_pastSlots {s : State} {a : Addr} (hlow : 0x40 + 16 * s.cfg.maxVoices ≤ a.toNat)
    (hhigh : a.toNat < 0x1000) : memRead s a = 0#32 := by
  obtain hwindow | hgap := Nat.lt_or_ge a.toNat 0x140
  · refine memRead_eq_zero fun haligned => ?_
    rw [memRead_voiceWindow haligned (by omega) hwindow]
    exact voiceWord_past (by omega) _
  · exact memRead_gap hgap hhigh

/-- Past the last table entry the map reads 0. -/
theorem memRead_pastTable {s : State} {a : Addr} (h : 0x1000 + 4 * tableSize s.cfg ≤ a.toNat) : memRead s a = 0#32 :=
  memRead_eq_zero fun haligned => by
    rw [memRead_tableWindow haligned (by omega)]
    exact tableWord_past (by omega)

/-! ## The obligations -/

/-- Settles O57: the registers at their addresses, the slots and the table by their windows, and the parts that read 0. -/
theorem readbackMap : Obligations.ReadbackMap := by
  intro s hshape hlog hmax
  obtain ⟨hvoices, htable⟩ := shapeOk_sizes hshape
  have hsize := tableSize_le hlog
  refine ⟨rfl, rfl, rfl, rfl, rfl, rfl, rfl, rfl, rfl, rfl, ?slots, ?table, fun _ => memRead_misaligned, ?registers,
    fun _ => memRead_pastSlots, ?fourth, ?pastTable⟩
  case slots =>
    intro k hk
    obtain ⟨hfreq, hphase, hdetune⟩ := voiceWord_of_lt (hvoices ▸ hk) hk
    have hslot (j : Nat) (hj : j < 4) : memRead s (BitVec.ofNat 20 (0x40 + 4 * j + 16 * k)) = voiceWord s k j :=
      memRead_slot (toNat_ofNat_addr (by omega)) (by omega) hj
    exact ⟨(hslot 0 (by decide)).trans hfreq, (hslot 1 (by decide)).trans hphase, (hslot 2 (by decide)).trans hdetune⟩
  case table =>
    intro i hi
    have haddr : (BitVec.ofNat 20 (0x1000 + 4 * i)).toNat = 0x1000 + 4 * i := toNat_ofNat_addr (by omega)
    have hentry : (0x1000 + 4 * i - 0x1000) / 4 = i := by omega
    rw [memRead_tableWindow (by omega) (by omega), haddr, hentry, tableWord_of_lt (by omega) hi]
  case registers =>
    intro a hlow hhigh
    exact memRead_eq_zero fun haligned => by rw [memRead_register haligned hhigh, registerWord_past s (by omega)]
  case fourth =>
    intro a hlow hhigh hword
    rw [memRead_slot (k := (a.toNat - 0x40) / 16) (j := 3) (by omega) (by omega) (by decide), voiceWord_three]
  case pastTable =>
    intro a h
    exact memRead_pastTable (htable ▸ h)

/-- Settles O56: the step is `readStep` at the state without the action. -/
theorem readChangesNothing : Obligations.ReadChangesNothing := by
  intro s a rest hscript
  refine ⟨?_, memRead_misaligned⟩
  rw [step_eq_runAction hscript, runAction, readStep, dropAction, hscript]
  rfl

end Sys2Proof.Machine
end

section
/-!
PROOFS. The decoder and the encoder agree (spec/30_encoding.md R90, R93, R94, R102): what each operand form reads back, what
each row of the opcode map spells, and the two directions of the round trip.
-/
namespace Sys2Proof

/-! ## What each operand form accepts (R94) -/

theorem decodeForm_z_eq_ok_iff {j i : Instr} {arg : BitVec 24} : decodeForm (.z j) arg = .ok i ↔ arg = 0#24 ∧ j = i := by
  by_cases hreserved : arg = 0#24 <;> simp [decodeForm, hreserved]

/-- The `m` bits of ARG above its low `k` are 0 exactly when ARG is those low bits, widened (R94). -/
theorem reserved_eq_zero_iff {arg : BitVec 24} {k m : Nat} (h : k + m = 24) :
    arg.extractLsb' k m = 0#m ↔ arg = (arg.extractLsb' 0 k).setWidth 24 := by
  have hlt : arg.toNat / 2 ^ k < 2 ^ m := Nat.div_lt_of_lt_mul (by rw [← pow_add, h]; exact arg.isLt)
  have hmod : arg.toNat % 2 ^ k < 2 ^ 24 := (Nat.mod_le _ _).trans_lt arg.isLt
  simp only [← BitVec.toNat_inj, BitVec.extractLsb'_toNat, BitVec.toNat_setWidth, Nat.shiftRight_eq_div_pow,
    BitVec.toNat_ofNat, pow_zero, Nat.div_one, Nat.zero_mod, Nat.mod_eq_of_lt hlt, Nat.mod_eq_of_lt hmod]
  rw [Nat.div_eq_zero_iff_lt (Nat.two_pow_pos k), eq_comm, Nat.mod_eq_iff_lt (Nat.two_pow_pos k).ne']

/-- The low bits of a widened operand are the operand. -/
theorem operand_setWidth {k : Nat} (h : k ≤ 24) (v : BitVec k) : (v.setWidth 24).extractLsb' 0 k = v := by
  rw [← BitVec.setWidth_eq_extractLsb' h, BitVec.setWidth_setWidth_of_le _ h, BitVec.setWidth_eq]

theorem decodeForm_w_eq_ok_iff {mk : BitVec 2 → Instr} {i : Instr} {arg : BitVec 24} :
    decodeForm (.w mk) arg = .ok i ↔ ∃ v, v ≠ 3#2 ∧ arg = v.setWidth 24 ∧ mk v = i := by
  simp only [decodeForm, ne_eq, reserved_eq_zero_iff (k := 2) (m := 22) rfl]
  constructor
  · intro h
    split at h
    · cases h
    · next hreserved =>
      split at h <;> cases h
      next hbad => exact ⟨_, hbad, not_not.mp hreserved, rfl⟩
  · rintro ⟨v, hv, rfl, rfl⟩
    simp [operand_setWidth, hv]

theorem decodeForm_s_eq_ok_iff {mk : BitVec 1 → Instr} {i : Instr} {arg : BitVec 24} :
    decodeForm (.s mk) arg = .ok i ↔ ∃ v, arg = v.setWidth 24 ∧ mk v = i := by
  simp only [decodeForm, ne_eq, reserved_eq_zero_iff (k := 1) (m := 23) rfl]
  constructor
  · intro h
    split at h <;> cases h
    next hreserved => exact ⟨_, not_not.mp hreserved, rfl⟩
  · rintro ⟨v, rfl, rfl⟩
    simp [operand_setWidth]

theorem decodeForm_n_eq_ok_iff {mk : BitVec 24 → Instr} {i : Instr} {arg : BitVec 24} :
    decodeForm (.n mk) arg = .ok i ↔ mk arg = i := by
  simp [decodeForm]

theorem decode_eq_ok_iff {p : Port} {w : Word} {i : Instr} : decode p w = .ok i ↔
    ∃ c f, opcodeMap (opcField w) = some (c, f) ∧ c.admits p = true ∧ decodeForm f (argField w) = .ok i := by
  unfold decode
  cases opcodeMap (opcField w) with
  | none => simp
  | some row =>
    obtain ⟨c, f⟩ := row
    cases hport : c.admits p <;> simp [hport]

/-! ## What each row of the opcode map spells (R93) -/

/-- The command has this opcode, this ARG and the ports of this class. -/
def Instr.HasRow (i : Instr) (opc : BitVec 8) (c : PortClass) (arg : BitVec 24) : Prop :=
  i.opcode = opc ∧ (∀ p, i.onPort p = c.admits p) ∧ i.arg = arg

/-- Every command that the form spells has the row's opcode and ports, and its operand as ARG. -/
def SpellsRow (opc : BitVec 8) (c : PortClass) : Form → Prop
  | .z i => i.HasRow opc c 0#24
  | .w mk => ∀ v, (mk v).HasRow opc c (v.setWidth 24)
  | .s mk => ∀ v, (mk v).HasRow opc c (v.setWidth 24)
  | .n mk => ∀ n, (mk n).HasRow opc c n

theorem opcodeMap_spellsRow {opc : BitVec 8} {c : PortClass} {f : Form} (h : opcodeMap opc = some (c, f)) :
    SpellsRow opc c f := by
  unfold opcodeMap at h
  split at h <;> cases h <;> simp [SpellsRow, Instr.HasRow, Instr.opcode, Instr.onPort, Instr.arg, PortClass.admits]

theorem decodeForm_hasRow {opc : BitVec 8} {c : PortClass} {f : Form} {arg : BitVec 24} {i : Instr}
    (hf : SpellsRow opc c f) (h : decodeForm f arg = .ok i) : i.HasRow opc c arg := by
  cases f with
  | z j =>
    obtain ⟨rfl, rfl⟩ := decodeForm_z_eq_ok_iff.mp h
    exact hf
  | w mk =>
    obtain ⟨v, -, rfl, rfl⟩ := decodeForm_w_eq_ok_iff.mp h
    exact hf v
  | s mk =>
    obtain ⟨v, rfl, rfl⟩ := decodeForm_s_eq_ok_iff.mp h
    exact hf v
  | n mk =>
    obtain rfl := decodeForm_n_eq_ok_iff.mp h
    exact hf arg

/-- The row of a command's opcode reads the command back from its ARG. -/
theorem exists_row_of_wellFormed {i : Instr} (h : i.wellFormed = true) :
    ∃ c f, opcodeMap i.opcode = some (c, f) ∧ decodeForm f i.arg = .ok i := by
  cases i with
  | setOscWave w => exact ⟨_, _, rfl, decodeForm_w_eq_ok_iff.mpr ⟨w, bne_iff_ne.mp h, rfl, rfl⟩⟩
  | setLfoWave w => exact ⟨_, _, rfl, decodeForm_w_eq_ok_iff.mpr ⟨w, bne_iff_ne.mp h, rfl, rfl⟩⟩
  | setSineShape s => exact ⟨_, _, rfl, decodeForm_s_eq_ok_iff.mpr ⟨s, rfl, rfl⟩⟩
  | render n => exact ⟨_, _, rfl, decodeForm_n_eq_ok_iff.mpr rfl⟩
  | _ => exact ⟨_, _, rfl, decodeForm_z_eq_ok_iff.mpr ⟨rfl, rfl⟩⟩

/-! ## The obligations -/

/-- Settles O1: the row of the command's opcode admits the port and reads the operand back. -/
theorem decodeInvertsEncode : Obligations.DecodeInvertsEncode := by
  intro i p hwf hport
  obtain ⟨c, f, hrow, hform⟩ := exists_row_of_wellFormed hwf
  obtain ⟨-, hports, -⟩ := decodeForm_hasRow (opcodeMap_spellsRow hrow) hform
  rw [decode_eq_ok_iff, opcField_encode, argField_encode]
  exact ⟨c, f, hrow, hports p ▸ hport, hform⟩

/-- Settles O2: the command has the opcode and the ports of the word's row, and the word's ARG. -/
theorem acceptedWordsAreEncodings : Obligations.AcceptedWordsAreEncodings := by
  intro p w i h
  obtain ⟨c, f, hrow, hadmits, hform⟩ := decode_eq_ok_iff.mp h
  obtain ⟨hopcode, hports, harg⟩ := decodeForm_hasRow (opcodeMap_spellsRow hrow) hform
  exact ⟨Machine.wellFormed_of_decode h, (hports p).trans hadmits, encode_eq_of_fields hopcode harg⟩

/-- Settles O3: the assembler and the decoder evaluated on the fixed rows of R106. -/
theorem encodingExamplesDecode : Obligations.EncodingExamplesDecode := by
  unfold Obligations.EncodingExamplesDecode
  decide

end Sys2Proof
end

section
/-!
PROOFS. Phases and table lookups (spec/40_phase_and_wavetable.md R123 to R127): the phase interval, the model faults of
Advance, and the index as a floor.
-/
namespace Sys2Proof.Machine

/-! ## The phase interval -/

theorem isFinite32_of_inUnit {r : F32} (h : inUnit r = true) : isFinite32 r = true := by
  obtain ⟨-, hlow, hhigh⟩ := inUnit_iff.mp h
  exact isFinite32_of_small (by omega)

/-- The greatest binary32 below 1.0 is 1 - 2^-24. -/
theorem units32_le_pred_one {x : F32} (h : units32 x < 2 ^ 149) : units32 x ≤ 2 ^ 149 - 2 ^ 125 := by
  rw [← units32_one, units32, units32, ← ordF_lt_iff] at h
  have hone : ordF (unpack32 0x3F800000#32) = ordF (unpack32 0x3F7FFFFF#32) + 1 := by decide
  calc units32 x ≤ units32 0x3F7FFFFF#32 := (ordF_le_iff binary32 _ _).mp (by omega)
    _ = 2 ^ 149 - 2 ^ 125 := by decide

/-- A rounding stays below 1.0 where the exact value is at most 1 - 2^-24. -/
theorem IsRounding32.lt_one {e : Int} {x : F32} (h : IsRounding32 e 1 x) (he : e ≤ 2 ^ 149 - 2 ^ 125) :
    units32 x < 2 ^ 149 := by
  have hpred : units32 0x3F7FFFFF#32 = 2 ^ 149 - 2 ^ 125 := by decide
  have hle := h.le one_pos 0x3F7FFFFF#32 (by decide) (by rw [hpred]; omega)
  omega

theorem IsRounding32.nonneg {e : Int} {d : Nat} {x : F32} (h : IsRounding32 e d x) (hd : 0 < d) (he : 0 ≤ e) :
    0 ≤ units32 x := by
  simpa using h.ge hd 0x00000000#32 (by decide) (by simpa using he)

/-- The greatest sum of two values below 1.0, 2 - 2^-23, is a binary32. -/
theorem IsRounding32.le_pred_two {e : Int} {d : Nat} {x : F32} (h : IsRounding32 e d x) (hd : 0 < d)
    (he : e ≤ (2 ^ 150 - 2 ^ 126) * d) : units32 x ≤ 2 ^ 150 - 2 ^ 126 := by
  have hpred : units32 0x3FFFFFFF#32 = 2 ^ 150 - 2 ^ 126 := by decide
  exact hpred ▸ h.le hd 0x3FFFFFFF#32 (by decide) (by rwa [hpred])

/-! ## Advance -/

theorem isFinite32_one : isFinite32 one32 = true := by decide

/-- The wrap brings a sum in [-1, 2 - 2^-23] into [0, 1): each of its corrections is one rounded operation. -/
theorem inUnit_wrapPhase {s : F32} (hs : isFinite32 s = true) (hlow : -2 ^ 149 ≤ units32 s)
    (hhigh : units32 s ≤ 2 ^ 150 - 2 ^ 126) : inUnit (wrapPhase s) = true := by
  have hone : units32 one32 = 2 ^ 149 := units32_one
  have hnan := not_isNaN32_of_finite hs
  have hle1 (x : F32) (hx : isNaN32 x = false) : le32 one32 x = decide (2 ^ 149 ≤ units32 x) := by
    rw [le32_eq (by decide) hx, hone]
  have hlt0 : lt32 s zero32 = decide (units32 s < 0) := by
    rw [lt32_eq hnan (by decide), zero32, units32_zero]
  rw [wrapPhase, hle1 s hnan, hlt0]
  simp only [decide_eq_true_eq]
  split
  · have hsub := sub32_rounds hs isFinite32_one
    rw [hone] at hsub
    exact inUnit_iff.mpr ⟨hsub.not_nan, hsub.nonneg one_pos (by omega), hsub.lt_one (by omega)⟩
  · split
    · have hadd := add32_rounds hs isFinite32_one
      rw [hone] at hadd
      rw [hle1 _ hadd.not_nan]
      simp only [decide_eq_true_eq]
      split
      · decide
      · exact inUnit_iff.mpr ⟨hadd.not_nan, hadd.nonneg one_pos (by omega), by omega⟩
    · exact inUnit_iff.mpr ⟨hnan, by omega, by omega⟩

/-- A phase in [0, 1) plus a finite increment of magnitude below 1 rounds to a value in [-1, 2 - 2^-23]. -/
theorem add32_phase_bounds {p inc : F32} (hp : inUnit p = true) (hfin : isFinite32 inc = true)
    (hinc : (units32 inc).natAbs < 2 ^ 149) :
    -2 ^ 149 ≤ units32 (add32 p inc) ∧ units32 (add32 p inc) ≤ 2 ^ 150 - 2 ^ 126 := by
  obtain ⟨-, hlow, hhigh⟩ := inUnit_iff.mp hp
  have hsum := add32_rounds (isFinite32_of_inUnit hp) hfin
  have hp1 := units32_le_pred_one hhigh
  have hi1 := units32_le_pred_one (x := inc) (by omega)
  refine ⟨?_, hsum.le_pred_two one_pos (by omega)⟩
  have hneg := hsum.ge one_pos 0xBF800000#32 (by decide) (by rw [units32_negOne]; omega)
  rwa [units32_negOne] at hneg

/-- Settles O30: the rounded sum is finite and in the range that the wrap brings back into [0, 1). -/
theorem advanceKeepsUnitInterval : Obligations.AdvanceKeepsUnitInterval := by
  intro p inc hp hfin hinc
  obtain ⟨hlow, hhigh⟩ := add32_phase_bounds hp hfin hinc
  have hsum : isFinite32 (add32 p inc) = true := isFinite32_of_small (by omega)
  have hwrap := inUnit_wrapPhase hsum hlow hhigh
  rw [advance, advanceFaults, if_pos hsum, if_pos hsum, if_pos hwrap]
  exact ⟨hwrap, rfl⟩

/-- Settles O31: by the branches of Advance: a sum that is not finite, a wrapped phase in [0, 1), and one outside it. -/
theorem advanceFaultsAreExact : Obligations.AdvanceFaultsAreExact := by
  intro p inc
  rw [advance, advanceFaults]
  cases hsum : isFinite32 (add32 p inc)
  case false => simp [onlyNonfinite, noFaults]
  case true =>
    cases hwrap : inUnit (wrapPhase (add32 p inc)) <;> simp [hwrap, onlyPhaseRange, noFaults]

/-! ## The table index -/

/-- Settles O32: both branches end in a remainder by N. -/
theorem tableIndexInRange : Obligations.TableIndexInRange := by
  intro l p h
  rw [tableIndex]
  split
  · rw [Int.toNat_lt' (by positivity)]
    exact_mod_cast Int.emod_lt_of_pos _ (by positivity)
  · exact Nat.mod_lt _ (by positivity)

/-- At h = 1 the index of a phase in [0, 1) is a floor that is below N without the remainder. -/
theorem tableIndex_one_of_inUnit (l : Nat) {p : F32} (hp : inUnit p = true) :
    (tableIndex l p 1 : Int) = units32 p * 2 ^ l / 2 ^ 149 := by
  obtain ⟨-, hlow, hhigh⟩ := inUnit_iff.mp hp
  have hN : (0 : Int) < 2 ^ l := by positivity
  have hfloor0 : 0 ≤ units32 p * 2 ^ l / 2 ^ 149 := Int.ediv_nonneg (by positivity) (by positivity)
  have hfloor1 : units32 p * 2 ^ l / 2 ^ 149 < 2 ^ l :=
    Int.ediv_lt_of_lt_mul (by positivity) (by rw [mul_comm]; exact mul_lt_mul_of_pos_left hhigh hN)
  rw [tableIndex, phaseProduct, if_pos rfl, if_pos (isFinite32_of_inUnit hp), scale32,
    Int.emod_eq_of_lt hfloor0 hfloor1, Int.toNat_of_nonneg hfloor0]

/-- Settles O33: the two bounds that define a floor. -/
theorem tableIndexIsFloor : Obligations.TableIndexIsFloor := by
  intro l p hp
  rw [tableIndex_one_of_inUnit l hp]
  exact ⟨Int.ediv_mul_le _ (by positivity), Int.lt_ediv_add_one_mul_self _ (by positivity)⟩

end Sys2Proof.Machine
end

section
/-!
PROOFS. Sample ranges (spec/40_phase_and_wavetable.md R128 to R132, spec/42_oscillator_bank.md R173): the saw by its two
rounded operations, and the means in binary64 as bounds that each rounded operation keeps.
-/
namespace Sys2Proof.Machine

/-! ## Saw and table entries -/

/-- Saw on a phase in [0, 1) lies in [-1, 1): the product is in [0, 2 - 2^-23]. -/
theorem saw_bounds {p : F32} (hp : inUnit p = true) :
    isNaN32 (saw p) = false ∧ -2 ^ 149 ≤ units32 (saw p) ∧ units32 (saw p) < 2 ^ 149 := by
  obtain ⟨-, hlow, hhigh⟩ := inUnit_iff.mp hp
  have hpred := units32_le_pred_one hhigh
  have hprod := mul32_rounds (a := two32) (by decide) (isFinite32_of_inUnit hp)
  rw [show units32 two32 = 2 ^ 150 from units32_two] at hprod
  have hprod0 := hprod.nonneg (by positivity) (by omega)
  have hprod2 := hprod.le_pred_two (by positivity) (by omega)
  have hdiff := sub32_rounds (isFinite32_of_small (by omega)) isFinite32_one (a := mul32 two32 p)
  rw [show units32 one32 = 2 ^ 149 from units32_one] at hdiff
  have hneg := hdiff.ge one_pos 0xBF800000#32 (by decide) (by rw [units32_negOne]; omega)
  rw [units32_negOne] at hneg
  exact ⟨hdiff.not_nan, hneg, hdiff.lt_one (by omega)⟩

theorem tableEntryOk_iff {x : F32} : tableEntryOk x = true ↔ (units32 x).natAbs ≤ 2 ^ 149 := by
  rw [tableEntryOk, scale32, Bool.and_eq_true, decide_eq_true_iff]
  exact ⟨And.right, fun h => ⟨isFinite32_of_small (by omega), h⟩⟩

/-- A lookup reads an entry of the table, for every phase and harmonic. -/
theorem tableEntryOk_tableAt {table : List F32} {l : Nat} (hlen : table.length = 2 ^ l)
    (hall : table.all tableEntryOk = true) (p : F32) (h : Nat) :
    tableEntryOk (tableAt table (tableIndex l p h)) = true := by
  have hlt : tableIndex l p h < table.length := hlen ▸ tableIndexInRange l p h
  rw [tableAt, List.getD_eq_getElem _ _ hlt]
  exact List.all_eq_true.mp hall _ (List.getElem_mem hlt)

/-! ## Bounds that a rounding keeps -/

/-- A rounding of a quotient of magnitude at most a value of the format has at most that magnitude. -/
theorem IsRounding.natAbs_le {f : Format} {e : Int} {d m : Nat} {x : Fp} (h : IsRounding f e d x) (hd : 0 < d)
    (he : e.natAbs ≤ magUnits f m * d) : (units f x).natAbs ≤ magUnits f m := by
  rw [natAbs_units, h.1, magUnits_le_iff]
  exact roundMag_le f hd he

/-- 1.0 in binary64 units. Named so that the power is never evaluated. -/
def oneUnits64 : Nat := 2 ^ binary64.scale

theorem oneUnits64_pos : 0 < oneUnits64 := Nat.two_pow_pos _

theorem oneUnits64_eq_mul : oneUnits64 = 2 ^ 149 * 2 ^ 925 := by
  rw [oneUnits64, scale64, ← pow_add]

theorem magUnits_binary64_inf : magUnits binary64 binary64.inf = 2 * 2 ^ binary64.frac * 2 ^ 2045 := by
  rw [show binary64.inf = 2045 * 2 ^ binary64.frac + 2 * 2 ^ binary64.frac by decide,
    magUnits_add binary64 2045 _ le_rfl (.inr (by decide))]

theorem natAbs_mul_two_pow (x : Int) (n : Nat) : (x * 2 ^ n).natAbs = x.natAbs * 2 ^ n := by
  rw [Int.natAbs_mul, Int.natAbs_pow]
  rfl

/-- A small whole number is a finite binary64. -/
theorem exists_magUnits_binary64_natCast {k : Nat} (hk : k ≤ 15) :
    ∃ m < binary64.inf, magUnits binary64 m = k * oneUnits64 := by
  obtain ⟨m, hm⟩ := exists_magUnits_eq_mul_two_pow binary64 k binary64.scale
  have hsig : k < 2 ^ binary64.frac := hk.trans_lt (by decide)
  rw [magUnits_small binary64 hsig] at hm
  refine ⟨m, ?_, hm⟩
  rw [← magUnits_lt_iff binary64, hm, magUnits_binary64_inf]
  exact Nat.mul_lt_mul_of_lt_of_le (by omega) (pow_le_pow_right₀ one_le_two (by decide)) (pow_pos two_pos _)

/-- x is a finite binary64 of magnitude at most k. -/
def Within64 (k : Nat) (x : F64) : Prop :=
  isFiniteF binary64 (unpack64 x) = true ∧ (units binary64 (unpack64 x)).natAbs ≤ k * oneUnits64

theorem unpack64_pack64_of_le_inf {x : Fp} (h : x.2 ≤ binary64.inf) : unpack64 (pack64 x) = x := by
  rw [inf64] at h
  exact unpack64_pack64 (by omega)

/-- A rounding of a value of magnitude at most k lies within k. -/
theorem within64_of_isRounding {k d : Nat} {e : Int} {x : Fp} (hk : k ≤ 15) (hd : 0 < d)
    (h : IsRounding binary64 e d x) (he : e.natAbs ≤ k * oneUnits64 * d) : Within64 k (pack64 x) := by
  obtain ⟨m, hm, hval⟩ := exists_magUnits_binary64_natCast hk
  rw [← hval] at he
  rw [Within64, unpack64_pack64_of_le_inf h.le_inf, ← hval]
  exact ⟨h.finite hd hm he, h.natAbs_le hd he⟩

theorem within64_to64 {r : F32} (h : tableEntryOk r = true) : Within64 1 (to64 r) := by
  have hunits := tableEntryOk_iff.mp h
  obtain ⟨hfin, hval⟩ := wideningIsExact r (isFinite32_of_small (by omega))
  refine ⟨hfin, ?_⟩
  rw [hval, natAbs_mul_two_pow, one_mul, oneUnits64_eq_mul]
  exact Nat.mul_le_mul_right _ hunits

theorem within64_add64 {j k : Nat} {a b : F64} (ha : Within64 j a) (hb : Within64 k b) (hk : j + k ≤ 15) :
    Within64 (j + k) (add64 a b) := by
  obtain ⟨hfa, hva⟩ := ha
  obtain ⟨hfb, hvb⟩ := hb
  refine within64_of_isRounding hk one_pos (addF_rounds binary64 hfa hfb) ?_
  rw [mul_one, add_mul]
  exact (Int.natAbs_add_le _ _).trans (Nat.add_le_add hva hvb)

/-- The sum in order keeps within the number of its terms. -/
theorem within64_foldl {raws : List F32} (hall : raws.all tableEntryOk = true) {k : Nat} {acc : F64}
    (hacc : Within64 k acc) (hlen : k + raws.length ≤ 15) :
    Within64 (k + raws.length) (raws.foldl (fun acc r => add64 acc (to64 r)) acc) := by
  induction raws generalizing k acc with
  | nil => exact hacc
  | cons r rs ih =>
    obtain ⟨hr, hrs⟩ := Bool.and_eq_true_iff.mp (List.all_cons ▸ hall)
    rw [List.length_cons] at hlen ⊢
    rw [List.foldl_cons, show k + (rs.length + 1) = k + 1 + rs.length by omega]
    exact ih hrs (within64_add64 hacc (within64_to64 hr) (by omega)) (by omega)

/-- The divisor of a mean is exact. -/
theorem units_nat64 {k : Nat} (hk : k ≤ 15) :
    isFiniteF binary64 (unpack64 (nat64 k)) = true ∧ units binary64 (unpack64 (nat64 k)) = (k * oneUnits64 : Nat) := by
  obtain ⟨m, hm, hval⟩ := exists_magUnits_binary64_natCast hk
  have hround : roundMag binary64 (k * 2 ^ binary64.scale) 1 = m :=
    roundMag_exact binary64 one_pos hm.le (by rw [hval, mul_one, oneUnits64])
  rw [nat64, hround, unpack64_pack64_of_le_inf hm.le, ← hval]
  exact ⟨decide_eq_true hm, rfl⟩

/-- A sum within k, divided by k, lies within 1. -/
theorem within64_div64_nat64 {k : Nat} {a : F64} (ha : Within64 k a) (hk0 : 1 ≤ k) (hk : k ≤ 15) :
    Within64 1 (div64 a (nat64 k)) := by
  obtain ⟨hfin, hva⟩ := ha
  obtain ⟨hfk, hvk⟩ := units_nat64 hk
  have hpos : 0 < k * oneUnits64 := Nat.mul_pos hk0 oneUnits64_pos
  have hsign : (units binary64 (unpack64 (nat64 k))).sign = 1 := by
    rw [hvk]
    exact Int.sign_eq_one_of_pos (Int.natCast_pos.mpr hpos)
  have hquot := divF_rounds binary64 hfin hfk (by omega)
  rw [hsign, mul_one, hvk, Int.natAbs_natCast] at hquot
  refine within64_of_isRounding (by decide) hpos hquot ?_
  rw [natAbs_mul_two_pow, one_mul, ← oneUnits64, mul_comm oneUnits64]
  exact Nat.mul_le_mul_right _ hva

/-- rnd32 of a finite binary64 is one rounding of its value, 2^925 units of 2^-1074 to one of 2^-149. -/
theorem rnd32_rounds {a : F64} (ha : isFiniteF binary64 (unpack64 a) = true) :
    IsRounding32 (units binary64 (unpack64 a)) (2 ^ 925) (rnd32 a) := by
  refine isRounding32_pack32 ?_
  simp only [narrowF, not_isNaNF_of_finite ha, not_isInfF_of_finite ha, Bool.false_eq_true, if_false]
  refine ⟨by rw [natAbs_units, scale32, scale64], fun h => ?_, fun h => ?_⟩
  · by_contra hs
    rw [units, if_neg hs] at h
    omega
  · by_contra hs
    have := units_nonpos_of_sign (f := binary64) (a := unpack64 a) (by simpa using hs)
    omega

/-- A binary64 within 1 rounds to a sample. -/
theorem tableEntryOk_rnd32 {a : F64} (h : Within64 1 a) : tableEntryOk (rnd32 a) = true := by
  obtain ⟨hfin, hval⟩ := h
  have hone : magUnits binary32 0x3F800000 = 2 ^ 149 := by decide
  rw [tableEntryOk_iff, ← hone]
  have hround : IsRounding binary32 _ _ _ := rnd32_rounds hfin
  refine hround.natAbs_le (pow_pos two_pos _) (hval.trans_eq ?_)
  rw [hone, one_mul, oneUnits64_eq_mul]

/-! ## Samples and the mix -/

theorem tableEntryOk_harmonicSine {table : List F32} {l : Nat} (hlen : table.length = 2 ^ l)
    (hall : table.all tableEntryOk = true) (p : F32) : tableEntryOk (harmonicSine table l p) = true := by
  have hlookup (h : Nat) : Within64 1 (to64 (tableAt table (tableIndex l p h))) :=
    within64_to64 (tableEntryOk_tableAt hlen hall p h)
  have hsum := within64_add64 (within64_add64 (hlookup 1) (hlookup 2) (by decide)) (hlookup 3) (by decide)
  exact tableEntryOk_rnd32 (within64_div64_nat64 hsum (by decide) (by decide))

theorem tableEntryOk_mixSamples {raws : List F32} (h1 : 1 ≤ raws.length) (h15 : raws.length ≤ 15)
    (hall : raws.all tableEntryOk = true) : tableEntryOk (mixSamples raws raws.length) = true := by
  have hunits : units binary64 (unpack64 0#64) = 0 := by decide
  have hzero : Within64 0 0#64 := ⟨by decide, by rw [hunits]; exact Nat.zero_le _⟩
  have hsum := within64_foldl hall hzero (by omega)
  rw [Nat.zero_add] at hsum
  exact tableEntryOk_rnd32 (within64_div64_nat64 hsum h1 h15)

theorem square_eq_or (p : F32) : square p = negOne32 ∨ square p = one32 := by
  rw [square]
  split
  · exact .inl rfl
  · exact .inr rfl

theorem tableEntryOk_saw {p : F32} (hp : inUnit p = true) : tableEntryOk (saw p) = true := by
  obtain ⟨-, hlow, hhigh⟩ := saw_bounds hp
  exact tableEntryOk_iff.mpr (by omega)

theorem tableEntryOk_square (p : F32) : tableEntryOk (square p) = true := by
  obtain h | h := square_eq_or p <;> rw [h] <;> decide

/-- A raw sample by its wave code: a lookup, a harmonic mean, a saw, a square, and the +0.0 of the code 3. -/
theorem tableEntryOk_waveValue {table : List F32} {l : Nat} (hlen : table.length = 2 ^ l)
    (hall : table.all tableEntryOk = true) (w : BitVec 2) (sh : BitVec 1) {p : F32} (hp : inUnit p = true) :
    tableEntryOk (waveValue table l w sh p) = true := by
  rw [waveValue]
  split
  · split
    · exact tableEntryOk_tableAt hlen hall p 1
    · exact tableEntryOk_harmonicSine hlen hall p
  · split
    · exact tableEntryOk_saw hp
    · split
      · exact tableEntryOk_square p
      · decide

/-- Settles O34: Saw by its bounds, Square by its two values, a lookup by its entry, and the means by their binary64
bounds. -/
theorem samplesAndMixInRange : Obligations.SamplesAndMixInRange := by
  refine ⟨fun p hp => ?_, square_eq_or, fun table l p hlen hall => ?_, fun table l w sh p hlen hall _ hp => ?_,
    fun raws h1 h15 hall => tableEntryOk_mixSamples h1 h15 hall⟩
  · obtain ⟨hnan, hlow, hhigh⟩ := saw_bounds hp
    rw [le32_iff, lt32_iff, show units32 negOne32 = -2 ^ 149 from units32_negOne,
      show units32 one32 = 2 ^ 149 from units32_one]
    exact ⟨⟨by decide, hnan, hlow⟩, hnan, by decide, hhigh⟩
  · exact ⟨tableEntryOk_tableAt hlen hall p 1, tableEntryOk_harmonicSine hlen hall p⟩
  · exact tableEntryOk_waveValue hlen hall w sh hp

end Sys2Proof.Machine
end

section
/-!
PROOFS. The LFO (spec/41_lfo.md R152 to R156): the increment as a quotient that stays below 1.0 after rounding, and the
multiplier by its product's magnitude.
-/
namespace Sys2Proof.Machine

/-! ## The increment -/

/-- Distinct values are at least one part in 2^(frac + 1) of the greater one apart: at the smaller one's exponent they
differ by a last place, and the greater significand is at most 2^(frac + 1). -/
theorem magUnits_relative_gap (f : Format) {m n : Nat} (h : m < n) :
    2 * 2 ^ f.frac * magUnits f m + magUnits f n ≤ 2 * 2 ^ f.frac * magUnits f n := by
  obtain ⟨p, rfl⟩ : ∃ p, n = p + 1 := Nat.exists_eq_succ_of_ne_zero (by omega)
  obtain ⟨k, r, hp, hr, hk, hval⟩ := exists_magUnits f p
  have hsucc : magUnits f (p + 1) = (r + 1) * 2 ^ k := by
    rw [hp, Nat.add_assoc]
    exact magUnits_add f k (r + 1) hr (hk.imp_right Nat.le_succ_of_le)
  have hm : magUnits f m ≤ r * 2 ^ k := hval ▸ (magUnits_le_iff f).mpr (Nat.le_of_lt_succ h)
  rw [hsucc]
  calc 2 * 2 ^ f.frac * magUnits f m + (r + 1) * 2 ^ k
      ≤ 2 * 2 ^ f.frac * (r * 2 ^ k) + 2 * 2 ^ f.frac * 2 ^ k :=
        Nat.add_le_add (Nat.mul_le_mul_left _ hm) (Nat.mul_le_mul_right _ hr)
    _ = 2 * 2 ^ f.frac * ((r + 1) * 2 ^ k) := by ring

theorem units32_relative_gap {a b : F32} (ha : 0 ≤ units32 a) (hab : units32 a < units32 b) :
    2 ^ 24 * units32 a + units32 b ≤ 2 ^ 24 * units32 b := by
  have hma : (units32 a).natAbs = magUnits binary32 (unpack32 a).2 := natAbs_units _ _
  have hmb : (units32 b).natAbs = magUnits binary32 (unpack32 b).2 := natAbs_units _ _
  have hlt : (unpack32 a).2 < (unpack32 b).2 := (magUnits_lt_iff binary32).mp (by omega)
  have hgap := magUnits_relative_gap binary32 hlt
  rw [show 2 * 2 ^ binary32.frac = 2 ^ 24 from rfl] at hgap
  omega

/-- A quotient of a value by a greater one is at most 1 - 2^-24, a binary32, and so rounds below 1.0. -/
theorem inUnit_div32 {a b : F32} (hb : isFinite32 b = true) (ha : 0 ≤ units32 a) (hab : units32 a < units32 b) :
    inUnit (div32 a b) = true := by
  have hfin : isFinite32 a = true := by
    rw [isFinite32_iff_units] at hb ⊢
    omega
  have hgap := units32_relative_gap ha hab
  have hquot := div32_rounds hfin hb (by omega)
  rw [Int.sign_eq_one_of_pos (by omega), mul_one] at hquot
  have hpred : units32 0x3F7FFFFF#32 = 2 ^ 149 - 2 ^ 125 := by decide
  have hle := hquot.le (by omega) 0x3F7FFFFF#32 (by decide) (by rw [hpred]; omega)
  exact inUnit_iff.mpr ⟨hquot.not_nan, hquot.nonneg (by omega) (by omega), by omega⟩

/-- Settles O38: the frequency is below the sample rate, so the increment is in [0, 1), and the advance by such an
increment is `advanceKeepsUnitInterval`. -/
theorem lfoPhaseStaysBounded : Obligations.LfoPhaseStaysBounded := by
  intro c freq p hc hfreq hp
  obtain ⟨hrate, -, hmax⟩ := configOk_rate hc
  obtain ⟨-, -, -, hlow, hhigh⟩ := between32_iff.mp hfreq
  rw [lfoFreqMin, units32_zero] at hlow
  have hinc := inUnit_div32 hrate hlow (by omega)
  obtain ⟨-, hinc0, hinc1⟩ := inUnit_iff.mp hinc
  exact ⟨hinc, advanceKeepsUnitInterval p _ hp (isFinite32_of_inUnit hinc) (by omega)⟩

/-! ## The multiplier -/

theorem eq32_iff {a b : F32} : eq32 a b = true ↔ isNaN32 a = false ∧ isNaN32 b = false ∧ units32 a = units32 b := by
  have hord : ordF (unpack32 a) = ordF (unpack32 b) ↔ units32 a = units32 b := ordF_eq_iff binary32 _ _
  rw [eq32, Bool.and_eq_true, Bool.and_eq_true, decide_eq_true_iff, hord, Bool.not_eq_true', Bool.not_eq_true',
    and_assoc]

theorem units32_mul32_of_zero {a b : F32} (ha : isFinite32 a = true) (hb : units32 b = 0) :
    units32 (mul32 a b) = 0 := by
  have hprod := mul32_rounds ha (isFinite32_of_small (x := b) (by omega))
  simpa using hprod.exact (by positivity) 0x00000000#32 (by decide) (by simp [hb])

/-- Adding a zero of either sign keeps the pattern of a value that is not zero. -/
theorem add32_of_zero_right {a b : F32} (ha : isFinite32 a = true) (ha0 : units32 a ≠ 0) (hb : units32 b = 0) :
    add32 a b = a := by
  have hsum := add32_rounds ha (isFinite32_of_small (x := b) (by omega))
  have hval := hsum.exact one_pos a (not_isNaN32_of_finite ha) (by rw [hb]; omega)
  exact eq_of_units_eq hval (hval ▸ ha0)

/-- Settles O36: the product with a zero depth is a zero, and 1.0 plus a zero is 1.0. -/
theorem depthZeroMultiplierIsOne : Obligations.DepthZeroMultiplierIsOne := by
  intro v d hv hd
  obtain ⟨-, -, hd0⟩ := eq32_iff.mp hd
  rw [units32_zero] at hd0
  exact add32_of_zero_right isFinite32_one (by decide) (units32_mul32_of_zero hv hd0)

/-- A factor of magnitude at most 1.0 does not enlarge a product, and rounding keeps that bound. -/
theorem natAbs_mul32_le {v d : F32} (hv : (units32 v).natAbs ≤ 2 ^ 149) (hd : isFinite32 d = true) :
    (units32 (mul32 v d)).natAbs ≤ (units32 d).natAbs := by
  have hprod : IsRounding binary32 _ _ _ := mul32_rounds (isFinite32_of_small (x := v) (by omega)) hd
  have hmag : (units32 d).natAbs = magUnits binary32 (unpack32 d).2 := natAbs_units _ _
  rw [hmag]
  refine hprod.natAbs_le (by positivity) ?_
  rw [← hmag, Int.natAbs_mul, Nat.mul_comm]
  exact Nat.mul_le_mul_left _ hv

/-- Settles O37: the product is within the depth of 0, and the rounding of its sum with 1.0 is monotone. -/
theorem multiplierInModulationRange : Obligations.MultiplierInModulationRange := by
  intro v d hv hd
  obtain ⟨-, -, -, hvlow, hvhigh⟩ := between32_iff.mp hv
  obtain ⟨-, -, -, hdlow, hdhigh⟩ := between32_iff.mp hd
  rw [negOne32, units32_negOne] at hvlow
  rw [one32, units32_one] at hvhigh
  rw [depthMin, units32_zero] at hdlow
  rw [depthMax, units32_two] at hdhigh
  have hdfin : isFinite32 d = true := isFinite32_of_small (by omega)
  have hprod := natAbs_mul32_le (v := v) (by omega) hdfin
  have hm : IsRounding32 _ 1 (lfoMultiplier v d) :=
    add32_rounds isFinite32_one (isFinite32_of_small (x := mul32 v d) (by omega))
  have hsub := sub32_rounds isFinite32_one hdfin
  have hadd := add32_rounds isFinite32_one hdfin
  exact ⟨le32_iff.mpr ⟨hsub.not_nan, hm.not_nan, hsub.mono hm one_pos (by omega)⟩,
    le32_iff.mpr ⟨hm.not_nan, hadd.not_nan, hm.mono hadd one_pos (by omega)⟩⟩

end Sys2Proof.Machine
end

section
/-!
PROOFS. The oscillator bank in a tick (spec/42_oscillator_bank.md R170 to R177, spec/43_engine.md R200): the mix of equal
samples, whose every binary64 operation is exact, and the result of a whole tick.
-/
namespace Sys2Proof.Machine

/-! ## The mix of equal samples -/

/-- The sum of the mix, in slot order from +0.0 (R173). -/
def sum64 (raws : List F32) : F64 := raws.foldl (fun acc r => add64 acc (to64 r)) 0#64

theorem mixSamples_eq_sum64 (raws : List F32) (c : Nat) :
    mixSamples raws c = rnd32 (div64 (sum64 raws) (nat64 c)) := rfl

theorem sum64_replicate_succ (k : Nat) (r : F32) :
    sum64 (List.replicate (k + 1) r) = add64 (sum64 (List.replicate k r)) (to64 r) := by
  rw [sum64, List.replicate_succ', List.foldl_concat, sum64]

theorem magUnits_to64 {r : F32} (hr : isFinite32 r = true) :
    magUnits binary64 (unpack64 (to64 r)).2 = magUnits binary32 (unpack32 r).2 * 2 ^ 925 := by
  rw [← natAbs_units, (wideningIsExact r hr).2, natAbs_mul_two_pow, units32, natAbs_units]

/-- The multiples of a binary32 that a mix sums are values of binary64, whose fraction has room for 28 bits. -/
theorem exists_magUnits_mul_to64 {k : Nat} {r : F32} (hk : k ≤ 15) (hr : isFinite32 r = true) :
    ∃ m < binary64.inf, magUnits binary64 m = k * magUnits binary64 (unpack64 (to64 r)).2 := by
  obtain ⟨e, q, -, hq, -, hval⟩ := exists_magUnits binary32 (unpack32 r).2
  have hsig : k * q < 2 ^ binary64.frac := (Nat.mul_le_mul hk hq.le).trans_lt (by decide)
  obtain ⟨p, hp⟩ := exists_magUnits_eq_mul_two_pow binary64 (k * q) (e + 925)
  have hvalue : magUnits binary64 p = k * (magUnits binary32 (unpack32 r).2 * 2 ^ 925) := by
    rw [hp, magUnits_small binary64 hsig, hval, pow_add, Nat.mul_assoc, Nat.mul_assoc q]
  have hfin : magUnits binary32 (unpack32 r).2 < 2 ^ (1 + 23 + 253) := by
    rw [pow_add, pow_add, pow_one]
    exact infUnits32_eq ▸ (magUnits_lt_iff binary32).mpr ((isFinite32_iff r).mp hr)
  refine ⟨p, ?_, hvalue.trans (by rw [magUnits_to64 hr])⟩
  rw [← magUnits_lt_iff binary64, hvalue, magUnits_binary64_inf]
  calc k * (magUnits binary32 (unpack32 r).2 * 2 ^ 925)
      ≤ 2 ^ 4 * (2 ^ (1 + 23 + 253) * 2 ^ 925) := Nat.mul_le_mul (by omega) (Nat.mul_le_mul_right _ hfin.le)
    _ = 2 ^ (4 + (1 + 23 + 253 + 925)) := by rw [pow_add 2 4, pow_add 2 (1 + 23 + 253)]
    _ < 2 ^ (1 + binary64.frac + 2045) := pow_lt_pow_right₀ one_lt_two (by decide)
    _ = 2 * 2 ^ binary64.frac * 2 ^ 2045 := by rw [pow_add, pow_add, pow_one]

/-- x is a finite binary64 whose value is k times that of r. -/
def IsMultiple64 (k : Nat) (r : F32) (x : F64) : Prop :=
  isFiniteF binary64 (unpack64 x) = true ∧ units binary64 (unpack64 x) = k * units binary64 (unpack64 (to64 r))

/-- A rounding of such a multiple is exact. -/
theorem isMultiple64_of_isRounding {k d : Nat} {r : F32} {x : Fp} (hr : isFinite32 r = true) (hk : k ≤ 15) (hd : 0 < d)
    (h : IsRounding binary64 (k * units binary64 (unpack64 (to64 r)) * d) d x) : IsMultiple64 k r (pack64 x) := by
  obtain ⟨m, hm, hval⟩ := exists_magUnits_mul_to64 hk hr
  have hunits : k * units binary64 (unpack64 (to64 r)) = units binary64 ((unpack64 (to64 r)).1, m) := by
    rw [units, units_eq, hval]
    split <;> push_cast <;> ring
  rw [hunits] at h
  rw [IsMultiple64, unpack64_pack64_of_le_inf h.le_inf, hunits]
  refine ⟨h.finite hd hm ?_, h.exact hd hm.le rfl⟩
  rw [Int.natAbs_mul, natAbs_units, Int.natAbs_natCast]

theorem isMultiple64_zero (r : F32) : IsMultiple64 0 r 0#64 := by
  have hunits : units binary64 (unpack64 0#64) = 0 := by decide
  exact ⟨by decide, by rw [hunits, Nat.cast_zero, zero_mul]⟩

theorem isMultiple64_add64_to64 {k : Nat} {r : F32} {x : F64} (hr : isFinite32 r = true) (hk : k + 1 ≤ 15)
    (hx : IsMultiple64 k r x) : IsMultiple64 (k + 1) r (add64 x (to64 r)) := by
  obtain ⟨hfin, hval⟩ := hx
  obtain ⟨hfr, -⟩ := wideningIsExact r hr
  have hsum := addF_rounds binary64 hfin hfr
  rw [hval, ← add_one_mul] at hsum
  exact isMultiple64_of_isRounding hr hk one_pos (by rwa [Nat.cast_one, mul_one, Nat.cast_succ])

/-- The sum of equal samples is exact. -/
theorem isMultiple64_sum64_replicate {k : Nat} {r : F32} (hr : isFinite32 r = true) (hk : k ≤ 15) :
    IsMultiple64 k r (sum64 (List.replicate k r)) := by
  induction k with
  | zero => exact isMultiple64_zero r
  | succ k ih =>
    rw [sum64_replicate_succ]
    exact isMultiple64_add64_to64 hr hk (ih (Nat.le_of_succ_le hk))

theorem natCast_oneUnits64 : (oneUnits64 : Int) = 2 ^ binary64.scale := Nat.cast_pow 2 binary64.scale

/-- Division by a count is one rounding of the quotient. -/
theorem divF_nat64_rounds {k : Nat} {a : Fp} (ha : isFiniteF binary64 a = true) (hk0 : 1 ≤ k) (hk : k ≤ 15) :
    IsRounding binary64 (units binary64 a * oneUnits64) (k * oneUnits64) (divF binary64 a (unpack64 (nat64 k))) := by
  obtain ⟨hfin, hval⟩ := units_nat64 hk
  have hpos : 0 < k * oneUnits64 := Nat.mul_pos hk0 oneUnits64_pos
  have hquot := divF_rounds binary64 ha hfin (by omega)
  rwa [hval, Int.sign_eq_one_of_pos (Int.natCast_pos.mpr hpos), mul_one, Int.natAbs_natCast,
    ← natCast_oneUnits64] at hquot

/-- Dividing by the count leaves the sample. -/
theorem isMultiple64_div64_nat64 {k : Nat} {r : F32} {x : F64} (hr : isFinite32 r = true) (hk0 : 1 ≤ k) (hk : k ≤ 15)
    (hx : IsMultiple64 k r x) : IsMultiple64 1 r (div64 x (nat64 k)) := by
  obtain ⟨hfin, hval⟩ := hx
  have hquot := divF_nat64_rounds hfin hk0 hk
  have hexact : k * units binary64 (unpack64 (to64 r)) * oneUnits64
      = (1 : Nat) * units binary64 (unpack64 (to64 r)) * (k * oneUnits64 : Nat) := by
    push_cast
    ring
  rw [hval, hexact] at hquot
  exact isMultiple64_of_isRounding hr (by decide) (Nat.mul_pos hk0 oneUnits64_pos) hquot

/-- Narrowing the value of a binary32 gives that value. -/
theorem units32_rnd32 {r : F32} {x : F64} (hr : isFinite32 r = true) (hx : IsMultiple64 1 r x) :
    units32 (rnd32 x) = units32 r := by
  obtain ⟨hfin, hval⟩ := hx
  refine (rnd32_rounds hfin).exact (by positivity) r (not_isNaN32_of_finite hr) ?_
  rw [hval, (wideningIsExact r hr).2, Nat.cast_one, one_mul, Nat.cast_pow, Nat.cast_ofNat]

theorem units32_mixSamples_replicate {r : F32} {c : Nat} (hr : isFinite32 r = true) (h1 : 1 ≤ c) (h15 : c ≤ 15) :
    units32 (mixSamples (List.replicate c r) c) = units32 r :=
  units32_rnd32 hr (isMultiple64_div64_nat64 hr h1 h15 (isMultiple64_sum64_replicate hr h15))

/-- A binary32 of value zero is one of the two zeros. -/
theorem eq_zero_or_negZero_of_units32 {r : F32} (h : units32 r = 0) : r = 0#32 ∨ r = 0x80000000#32 := by
  have hmag : (unpack32 r).2 = 0 := by
    rw [← magUnits_eq_zero binary32, ← natAbs_units]
    exact Int.natAbs_eq_zero.mpr h
  have hpack : r = pack32 ((unpack32 r).1, 0) := by rw [← hmag, pack32_unpack32]
  rw [pack32_zero] at hpack
  split at hpack
  · exact .inr hpack
  · exact .inl hpack

/-- The sum of zeros of one sign is +0.0, the sign of its start. -/
theorem sum64_replicate_of_units32_zero {r : F32} (hr : units32 r = 0) (k : Nat) :
    sum64 (List.replicate k r) = 0#64 := by
  have hadd : add64 0#64 (to64 r) = 0#64 := by
    obtain rfl | rfl := eq_zero_or_negZero_of_units32 hr <;> decide +kernel
  induction k with
  | zero => rfl
  | succ k ih => rw [sum64_replicate_succ, ih, hadd]

theorem rnd32_div64_zero_nat64 {k : Nat} (hk0 : 1 ≤ k) (hk : k ≤ 15) : rnd32 (div64 0#64 (nat64 k)) = 0#32 := by
  interval_cases k <;> decide +kernel

/-- The mix of zeros of one sign is +0.0 (log 21). -/
theorem mixSamples_replicate_of_units32_zero {r : F32} {c : Nat} (hr : units32 r = 0) (h1 : 1 ≤ c) (h15 : c ≤ 15) :
    mixSamples (List.replicate c r) c = 0#32 := by
  rw [mixSamples_eq_sum64, sum64_replicate_of_units32_zero hr, rnd32_div64_zero_nat64 h1 h15]

/-- Settles O35: the mix has the value of the sample, which is its pattern unless it is a zero. -/
theorem equalSamplesMixToThemselves : Obligations.EqualSamplesMixToThemselves := by
  intro r c hr h1 h15
  by_cases h0 : units32 r = 0
  · rw [mixSamples_replicate_of_units32_zero h0 h1 h15]
    obtain rfl | rfl := eq_zero_or_negZero_of_units32 h0 <;> rfl
  · have hval := units32_mixSamples_replicate hr h1 h15
    rw [if_neg (by rintro rfl; exact h0 (by decide))]
    exact eq_of_units_eq hval (hval ▸ h0)

/-! ## The result of a tick -/

@[simp] theorem waveFaults_nonfinite (w : BitVec 2) : (waveFaults w).nonfinite = false := by
  unfold waveFaults
  split <;> rfl

@[simp] theorem waveFaults_phaseRange (w : BitVec 2) : (waveFaults w).phaseRange = false := by
  unfold waveFaults
  split <;> rfl

@[simp] theorem waveFaults_badState (w : BitVec 2) : (waveFaults w).badState = (w == 3#2) := by
  unfold waveFaults
  split
  · rename_i h
    exact (beq_iff_eq.mpr h).symm
  · rename_i h
    exact (beq_eq_false_iff_ne.mpr h).symm

/-- The faults of a tick with a legal voice count, name by name. -/
theorem tickFaults_of_countOk {s : State} (h : countOk s) : tickFaults s = {
    nonfinite := (advanceFaults s.lfoPhase (div32 s.lfoFreq s.cfg.sampleRate)).nonfinite
      || (s.voices.take s.activeVoices.toNat).any (fun y => (advanceFaults y.phase (tickInc s y)).nonfinite)
    phaseRange := (advanceFaults s.lfoPhase (div32 s.lfoFreq s.cfg.sampleRate)).phaseRange
      || (s.voices.take s.activeVoices.toNat).any (fun y => (advanceFaults y.phase (tickInc s y)).phaseRange)
    badState := s.lfoWave == 3#2 || s.oscWave == 3#2 } := by
  rw [tickFaults, if_pos h, advanceVoicesFaults_take]
  simp [MFaults.union]

/-- Changing the first n entries, by their places. -/
theorem mapIdx_if_lt {α : Type} (g : α → α) (xs : List α) (n : Nat) :
    xs.mapIdx (fun k x => if k < n then g x else x) = (xs.take n).map g ++ xs.drop n := by
  induction xs generalizing n with
  | nil => simp
  | cons x xs ih =>
    cases n with
    | zero => simpa [List.mapIdx_cons] using ih 0
    | succ n => simpa [List.mapIdx_cons] using ih n

theorem tickVoices_of_countOk {s : State} (h : countOk s) :
    tickVoices s = s.voices.mapIdx (fun k y => if k < s.activeVoices.toNat then tickVoice s y else y) := by
  rw [tickVoices, if_pos h, mapIdx_if_lt]

/-- Settles O40: the tick field by field, with the voices by place and the faults by name. -/
theorem frameTickResult : Obligations.FrameTickResult := by
  intro s hshape hlow hhigh
  have hcount : countOk s := ⟨hlow, hhigh⟩
  rw [frameTick_of_shapeOk hshape, tickState_eq, tickVoices_of_countOk hcount, tickFaults_of_countOk hcount, tickSample,
    if_pos hcount]
  simp only [MFaults.union, ← Bool.or_assoc]
  rfl

theorem tickFaults_badState_of_not_countOk {s : State} (h : ¬ countOk s) : (tickFaults s).badState = true := by
  rw [tickFaults, if_neg h]
  exact Bool.or_true _

/-- Settles O41: the tick field by field, in the branch of `tickState_eq` that moves no voice. -/
theorem tickWithBadVoiceCount : Obligations.TickWithBadVoiceCount := by
  intro s hshape hbad
  have hcount : ¬ countOk s := by
    rintro ⟨hlow, hhigh⟩
    omega
  refine ⟨tickState s, frameTick_of_shapeOk hshape, ?_, ?_, ?_, tickState_framesLeft s, tickState_lfoPhase s⟩
  · rw [tickState_mfault, MFaults.union, tickFaults_badState_of_not_countOk hcount, Bool.or_true]
  · rw [tickState_voices, tickVoices, if_neg hcount]
  · rw [tickState_out, tickSample, if_neg hcount]
    rfl

end Sys2Proof.Machine
end

section
/-!
PROOFS. The tick in the admitted domain (spec/43_engine.md R203, spec/42_oscillator_bank.md R171): the multiplier and the
increment of an active voice by their magnitudes, and a tick without model faults.
-/
namespace Sys2Proof.Machine

/-! ## Magnitudes -/

/-- The magnitude of a rounded product, by the magnitudes of its factors. -/
theorem natAbs_mul32_le_magUnits {a b : F32} {m : Nat} (ha : isFinite32 a = true) (hb : isFinite32 b = true)
    (h : (units32 a).natAbs * (units32 b).natAbs ≤ magUnits binary32 m * 2 ^ 149) :
    (units32 (mul32 a b)).natAbs ≤ magUnits binary32 m := by
  have hprod : IsRounding binary32 _ _ _ := mul32_rounds ha hb
  exact hprod.natAbs_le (by positivity) (by rwa [Int.natAbs_mul])

/-- The magnitude of a rounded quotient, by the magnitudes of its operands. -/
theorem natAbs_div32_le_magUnits {a b : F32} {m : Nat} (ha : isFinite32 a = true) (hb : isFinite32 b = true)
    (hb0 : 0 < units32 b) (h : (units32 a).natAbs * 2 ^ 149 ≤ magUnits binary32 m * (units32 b).natAbs) :
    (units32 (div32 a b)).natAbs ≤ magUnits binary32 m := by
  have hquot : IsRounding binary32 _ _ _ := div32_rounds ha hb hb0.ne'
  rw [Int.sign_eq_one_of_pos hb0, mul_one] at hquot
  exact hquot.natAbs_le (by omega) (by rwa [Int.natAbs_mul])

/-- The multiplier lies in [-3, 3] for every depth in [0, 2] (R155). -/
theorem natAbs_lfoMultiplier_le {v d : F32} (hv : tableEntryOk v = true) (hd : between32 depthMin depthMax d = true) :
    (units32 (lfoMultiplier v d)).natAbs ≤ 3 * 2 ^ 149 := by
  obtain ⟨-, -, -, hdlow, hdhigh⟩ := between32_iff.mp hd
  rw [depthMin, units32_zero] at hdlow
  rw [depthMax, units32_two] at hdhigh
  have hprod := natAbs_mul32_le (tableEntryOk_iff.mp hv) (isFinite32_of_small (x := d) (by omega))
  have hsum : IsRounding binary32 _ _ _ :=
    add32_rounds isFinite32_one (isFinite32_of_small (x := mul32 v d) (by omega))
  have hone : units32 one32 = 2 ^ 149 := units32_one
  have hthree : magUnits binary32 0x40400000 = 3 * 2 ^ 149 := by decide
  exact hthree ▸ hsum.natAbs_le one_pos (by rw [hthree, hone]; omega)

/-- A frequency f within the bound of R10 (d) at the deepest modulation has an increment of magnitude at most 0.75: the
product rounds to at most 4 f, a binary32, which is at most 2/3 of the sample rate. -/
theorem natAbs_voiceInc_le {freq m rate : F32} (hfreq : isFinite32 freq = true) (hpos : 0 < units32 freq)
    (hm : (units32 m).natAbs ≤ 3 * 2 ^ 149) (hrate : isFinite32 rate = true)
    (hbound : 2 * (3 * units32 freq) ≤ units32 rate) :
    (units32 (voiceInc freq m rate)).natAbs ≤ 3 * 2 ^ 147 := by
  obtain ⟨p, hp⟩ := exists_magUnits_eq_mul_two_pow binary32 (unpack32 freq).2 2
  have hfour : magUnits binary32 p = (units32 freq).natAbs * 2 ^ 2 := by rw [hp, units32, natAbs_units]
  have hprod := natAbs_mul32_le_magUnits (m := p) hfreq (isFinite32_of_small (x := m) (by omega)) <| by
    rw [hfour, Nat.mul_assoc]
    exact Nat.mul_le_mul_left _ (by omega)
  have hprodFin : isFinite32 (mul32 freq m) = true := by
    rw [isFinite32_iff_units] at hrate ⊢
    omega
  have hquarters : magUnits binary32 0x3F400000 = 3 * 2 ^ 147 := by decide
  exact hquarters ▸ natAbs_div32_le_magUnits hprodFin hrate (by omega) (by rw [hquarters]; omega)

/-! ## The tick from a state of the invariant -/

/-- The table of a state of the invariant has N entries of magnitude at most 1. -/
theorem Invariant.table_ok {s : State} (h : Invariant s) :
    s.table.length = 2 ^ s.cfg.tableLog2 ∧ s.table.all tableEntryOk = true := by
  obtain ⟨-, -, -, -, hlen, hall⟩ := configOk_sizes h.config
  rw [h.table]
  exact ⟨hlen, hall⟩

/-- The multiplier of a tick from a state of the invariant. -/
theorem Invariant.natAbs_tickMultiplier_le {s : State} (h : Invariant s) (hphase : inUnit s.lfoPhase = true) :
    (units32 (tickMultiplier s)).natAbs ≤ 3 * 2 ^ 149 := by
  obtain ⟨hlen, hall⟩ := h.table_ok
  exact natAbs_lfoMultiplier_le (tableEntryOk_waveValue hlen hall s.lfoWave 0#1 hphase) h.lfoDepth

/-- The advance of an active voice within the frequency bound raises no model fault. -/
theorem Invariant.advanceFaults_tickInc {s : State} (h : Invariant s) (hphase : inUnit s.lfoPhase = true) {x : Voice}
    (hx : inUnit x.phase = true) (hfin : isFinite32 x.freq = true) (hpos : 0 < units32 x.freq)
    (hbound : 2 * (3 * units32 x.freq) ≤ units32 s.cfg.sampleRate) :
    advanceFaults x.phase (tickInc s x) = noFaults := by
  obtain ⟨hrate, -, -⟩ := configOk_rate h.config
  have hinc : (units32 (tickInc s x)).natAbs ≤ 3 * 2 ^ 147 :=
    natAbs_voiceInc_le hfin hpos (h.natAbs_tickMultiplier_le hphase) hrate hbound
  have hincFin : isFinite32 (tickInc s x) = true := isFinite32_of_small (by omega)
  obtain ⟨-, hfaults⟩ := advanceKeepsUnitInterval x.phase _ hx hincFin (by omega)
  exact hfaults

/-- Settles O43: the LFO's and every active voice's advance raise nothing and the wave codes are legal, so the tick's
faults are none; and a tick without faults keeps the phases in [0, 1). -/
theorem tickRaisesNoFault : Obligations.TickRaisesNoFault := by
  intro s h hphases hvoices
  obtain ⟨hlfoPhase, hvoicePhases⟩ := Bool.and_eq_true_iff.mp hphases
  have hcount : countOk s := ⟨h.voicesLow, h.voicesHigh⟩
  obtain ⟨-, -, hlfo⟩ := lfoPhaseStaysBounded s.cfg s.lfoFreq s.lfoPhase h.config h.lfoFreq hlfoPhase
  have hactive : ∀ x ∈ s.voices.take s.activeVoices.toNat, advanceFaults x.phase (tickInc s x) = noFaults := by
    intro x hx
    obtain ⟨hfin, hpos, hbound⟩ := hvoices x hx
    have hphase := List.all_eq_true.mp hvoicePhases x (List.mem_of_mem_take hx)
    exact h.advanceFaults_tickInc hlfoPhase hphase hfin hpos hbound
  have hnone : tickFaults s = noFaults := by
    have hany (name : MFaults → Bool) (hname : name noFaults = false) :
        (s.voices.take s.activeVoices.toNat).any (fun x => name (advanceFaults x.phase (tickInc s x))) = false :=
      List.any_eq_false.mpr fun x hx => by rw [hactive x hx, hname]; exact Bool.false_ne_true
    rw [tickFaults_of_countOk hcount, hlfo, hany _ rfl, hany _ rfl, beq_eq_false_iff_ne.mpr h.lfoWave,
      beq_eq_false_iff_ne.mpr h.oscWave]
    rfl
  refine ⟨tickState s, frameTick_of_shapeOk h.shape, by rw [tickState_mfault, hnone, union_noFaults], ?_⟩
  exact (phasesInUnit_tickState_or_marksPhase hcount hphases).resolve_right (by simp [MarksPhase, hnone, noFaults])

end Sys2Proof.Machine
end

section
/-!
PROOFS. The commands of the engine port, a word at a busy port, and the machine's progress (spec/43_engine.md R205 to R209,
spec/44_parameter_surface.md R220, spec/70_reset_and_hazards.md R302): the step by its next action.
-/
namespace Sys2Proof.Machine

/-! ## A word on an idle port and on a busy one -/

/-- A step with a word next offers the word on its port. -/
theorem step_eq_offerWord {s : State} {rest : List Action} (p : Port) {w : Word}
    (h : s.script = (match p with | .engine => .engine w | .control => .control w) :: rest) :
    step s = offerWord p w s := by
  cases p <;> exact step_eq_runAction h

/-- A word next on an idle port runs the command it decodes to. -/
theorem step_eq_exec {s : State} {rest : List Action} (p : Port) {w : Word} {i : Instr}
    (h : s.script = (match p with | .engine => .engine w | .control => .control w) :: rest)
    (idle : portBusy p s = false) (hd : decode p w = .ok i) : step s = exec i { s with script := rest } := by
  have hdrop : dropAction s = { s with script := rest } := by rw [dropAction, h, List.tail_cons]
  rw [step_eq_offerWord p h, offerWord, idle, if_neg Bool.false_ne_true, acceptWord, hd, hdrop]

/-- Settles O5, by the port. -/
theorem stepRunsDecodedCommand : Obligations.StepRunsDecodedCommand := by
  intro s rest w i
  exact ⟨fun hscript hidle => step_eq_exec .engine hscript ((engBusy_eq_false s).mpr hidle),
    fun hscript hidle => step_eq_exec .control hscript ((ctrlBusy_eq_false s).mpr hidle)⟩

/-- Settles O11: exec's arm of NOP answers its state. -/
theorem nopChangesNothing : Obligations.NopChangesNothing := fun _ => rfl

/-- Settles O21: `exec_busy` on either port. -/
theorem commandOnBusyPortWaits : Obligations.CommandOnBusyPortWaits := by
  intro s i
  exact ⟨fun hbusy hport => exec_busy hport (p := .control) ((ctrlBusy_eq_true s).mpr hbusy),
    fun hbusy hport => exec_busy hport (p := .engine) ((engBusy_eq_true s).mpr hbusy)⟩

/-- The block's own move leaves the script. -/
theorem ownMove_script {s t : State} (h : ownMove s = .next t) : t.script = s.script := by
  obtain ⟨-, -, ch, rfl⟩ | ⟨-, i, ch, rfl⟩ | ⟨-, -, rfl⟩ := ownMove_next h
  · rw [tickState_script, withOwn_script]
  · rw [controlWrite_script, withOwn_script]
  · rfl

/-- Settles O7: the step is the block's own move, and a busy block does not rest. -/
theorem busyPortHoldsWord : Obligations.BusyPortHoldsWord := by
  intro s t rest p w hscript hbusy hstep
  rw [step_eq_offerWord p hscript, offerWord, if_pos hbusy] at hstep
  refine ⟨ownMove_script hstep, ?_⟩
  obtain ⟨hleft, hshape, ch, rfl⟩ | ⟨hpending, i, ch, rfl⟩ | ⟨hleft, hpending, -⟩ := ownMove_next hstep
  · exact .inl ⟨hleft, tickState s, frameTick_of_shapeOk hshape, by rw [tickState_withOwn, blockPart_withOwn]⟩
  · exact .inr ⟨hpending, i, by rw [controlWrite_withOwn, blockPart_withOwn]⟩
  · cases p
    · exact absurd hpending ((ctrlBusy_eq_true s).mp hbusy)
    · exact absurd hleft ((engBusy_eq_true s).mp hbusy)

/-! ## RENDER -/

/-- Settles O12: `exec_render`, and ENG_BUSY by its bit of STATUS. -/
theorem renderSetsFramesLeft : Obligations.RenderSetsFramesLeft := by
  rintro s t n hidle rfl
  obtain ⟨-, -, -, -, -, -, hbit, -⟩ := statusBits { s with framesLeft := n }
  refine ⟨exec_render hidle, ?_⟩
  rw [Bool.eq_iff_iff, hbit, decide_eq_true_iff, Nat.pos_iff_ne_zero, ne_eq, ne_eq, BitVec.toNat_eq, BitVec.toNat_zero]

/-- What a RENDER in progress does to the block from s to t: the frames are appended to OUT, each with equal channels, and
besides FRAMES_LEFT, MFAULT and the phases nothing changes (R200, R204). -/
structure Rendered (frames : List Frame) (s t : State) : Prop where
  out : t.out = s.out ++ frames
  mono : ∀ f ∈ frames, f.left = f.right
  keeps : t = { s with
    lfoPhase := t.lfoPhase, voices := t.voices, framesLeft := t.framesLeft, out := t.out, mfault := t.mfault }
  voices : t.voices.map (fun x => (x.freq, x.detune)) = s.voices.map (fun x => (x.freq, x.detune))

theorem Rendered.refl (s : State) : Rendered [] s s :=
  ⟨(List.append_nil _).symm, nofun, rfl, rfl⟩

/-- A tick first emits one frame more. -/
theorem Rendered.of_tickState {frames : List Frame} {s t : State} (h : Rendered frames (tickState s) t) :
    Rendered ({ left := tickSample s, right := tickSample s } :: frames) s t where
  out := by rw [h.out, tickState_out, List.append_assoc, List.singleton_append]
  mono := List.forall_mem_cons.mpr ⟨rfl, h.mono⟩
  keeps := h.keeps.trans (by rw [tickState_eq])
  voices := by rw [h.voices, tickState_voices, tickVoices_map _ fun _ _ => rfl]

theorem shapeOk_tickState (s : State) : shapeOk (tickState s) = shapeOk s := by
  rw [shapeOk, tickState_voices, tickVoices_length, tickState_cfg, tickState_table, shapeOk]

/-- With nothing pending and no script, the step of a busy engine is a tick. -/
theorem step_eq_tickState {s : State} (hscript : s.script = []) (hpending : s.pending = []) (hshape : shapeOk s = true)
    (hleft : s.framesLeft ≠ 0#24) : step s = .next (tickState s) := by
  rw [step, scriptStep, hscript]
  simp only [ownMove, (engBusy_eq_true s).mpr hleft, (ctrlBusy_eq_false s).mpr hpending, if_true, Bool.false_eq_true,
    if_false]
  exact frameTick_of_shapeOk hshape

/-- A run begins with a step. -/
theorem run_succ_of_step (M : Host.Core) {s t : M.State} (h : M.step s = .next t) (k : Nat) :
    M.run (k + 1) s = M.run k t := by
  rw [Host.Core.run, h]

/-- k frames left take k steps, by induction on k: each step is a tick that leaves one frame fewer. -/
theorem run_of_framesLeft (k : Nat) {s : State} (hscript : s.script = []) (hpending : s.pending = [])
    (hshape : shapeOk s = true) (hleft : s.framesLeft.toNat = k) :
    ∃ t frames, core.run k s = .next t ∧ t.framesLeft = 0#24 ∧ frames.length = k ∧ Rendered frames s t := by
  induction k generalizing s with
  | zero => exact ⟨s, [], rfl, BitVec.eq_of_toNat_eq hleft, rfl, .refl s⟩
  | succ k ih =>
    have hbusy : s.framesLeft ≠ 0#24 := by
      intro h
      simp [h] at hleft
    have hfewer : (tickState s).framesLeft.toNat = k := by rw [tickState_framesLeft]; bv_omega
    obtain ⟨t, frames, hrun, hdone, hlen, hrendered⟩ := ih (s := tickState s) (by rwa [tickState_script])
      (by rwa [tickState_pending]) (by rwa [shapeOk_tickState]) hfewer
    have hstep : core.step s = .next (tickState s) := step_eq_tickState hscript hpending hshape hbusy
    exact ⟨t, _, (run_succ_of_step core hstep k).trans hrun, hdone, congrArg (· + 1) hlen, hrendered.of_tickState⟩

/-- Settles O44: the acceptance sets FRAMES_LEFT to n, and n frames left take n steps. -/
theorem renderEmitsExactlyItsFrames : Obligations.RenderEmitsExactlyItsFrames := by
  intro s n hshape hidle hpending hscript
  obtain ⟨t, frames, hrun, hdone, hlen, hrendered⟩ :=
    run_of_framesLeft n.toNat (s := { s with framesLeft := n }) hscript hpending hshape rfl
  have hkeeps := hrendered.keeps
  rw [hdone, ← hidle] at hkeeps
  exact ⟨_, t, exec_render hidle, hrun, hdone, ⟨frames, hlen, hrendered.mono, hrendered.out⟩, hkeeps,
    hrendered.voices⟩

/-! ## Progress from the invariant -/

/-- The block's own move answers in a state whose lists have their sizes. -/
theorem ownMove_answers {s : State} (h : shapeOk s = true) : ∃ t, ownMove s = .next t := by
  unfold ownMove
  split
  · split
    · split
      · exact ⟨_, frameTick_of_shapeOk h⟩
      · exact ⟨_, rfl⟩
    · exact ⟨_, frameTick_of_shapeOk h⟩
  · split <;> exact ⟨_, rfl⟩

theorem offerWord_answers (p : Port) (w : Word) {s : State} (h : shapeOk s = true) : ∃ t, offerWord p w s = .next t := by
  unfold offerWord
  split
  · exact ownMove_answers h
  · exact acceptWord_answers p w _

/-- Every action answers in a state whose lists have their sizes and whose configuration is well formed. -/
theorem runAction_answers (a : Action) {s : State} (hshape : shapeOk s = true) (hconfig : configOk s.cfg = true) :
    ∃ t, runAction a s = .next t := by
  cases a with
  | engine w => exact offerWord_answers .engine w hshape
  | control w => exact offerWord_answers .control w hshape
  | tick =>
    rw [runAction]
    split
    · exact ⟨_, frameTick_of_shapeOk (s := dropAction s) hshape⟩
    · exact ⟨_, rfl⟩
  | write i => exact ⟨_, rfl⟩
  | read a => exact ⟨_, rfl⟩
  | reset draw => exact ⟨_, resetStep_of_configOk (s := dropAction s) draw hconfig⟩
  | waitIdle =>
    rw [runAction]
    split
    · exact ownMove_answers hshape
    · exact ⟨_, rfl⟩

theorem Invariant.step_answers {s : State} (h : Invariant s) : ∃ t, step s = .next t := by
  unfold step scriptStep
  split
  · exact ownMove_answers h.shape
  · exact runAction_answers _ h.shape h.config

theorem Invariant.tableNear {s : State} (h : Invariant s) : tableNear s.cfg.tableLog2 s.table = true := by
  rw [h.table]
  exact configOk_table h.config

/-- A state of the invariant without model faults is in INV (R49; logs 22, 28). -/
theorem Invariant.inv_of_noFaults {s : State} (h : Invariant s) (hnone : s.mfault = noFaults) : INV s := by
  have hfreqs := h.freqs.resolve_right (by simp [hnone, noFaults])
  obtain ⟨hlfoPhase, hphases⟩ := Bool.and_eq_true_iff.mp (h.phases.resolve_right (by simp [hnone, noFaults]))
  have hvoices : s.voices.all (voiceAdmitted s.cfg) = true := List.all_eq_true.mpr fun v hv => by
    rw [voiceAdmitted, List.all_eq_true.mp hfreqs v hv, List.all_eq_true.mp hphases v hv,
      List.all_eq_true.mp h.detune v hv]
    rfl
  obtain ⟨-, htable⟩ := h.table_ok
  simp only [INV, admitted, h.shape, htable, h.tableNear, h.baseFreq, bne_iff_ne.mpr h.oscWave,
    bne_iff_ne.mpr h.lfoWave, h.voicesLow, h.voicesHigh, hvoices, h.lfoFreq, h.lfoDepth, hlfoPhase, decide_true,
    Bool.and_self]

/-- Settles O47: every action answers, and R121(a) is the check that the configuration's table passed. -/
theorem invariantStatesAlwaysStep : Obligations.InvariantStatesAlwaysStep := by
  intro s h
  obtain ⟨hlen, -⟩ := h.table_ok
  exact ⟨h.step_answers, fun hnone => ⟨h.inv_of_noFaults hnone, (tableNear_iff hlen).mp h.tableNear⟩⟩

end Sys2Proof.Machine
end

section
/-!
PROOFS. Clamped steps and rounded shifts (spec/44_parameter_surface.md R221 to R227, R238, R239 (d)): the clamp by the three
places of its argument, and the error of one rounding of a sum.
-/
namespace Sys2Proof.Machine

/-! ## The clamp -/

theorem clamp32_of_below {x lo : F32} (hi : F32) (h : lt32 x lo = true) : clamp32 x lo hi = lo := if_pos h

theorem clamp32_of_above {x lo hi : F32} (hb : le32 lo hi = true) (h : lt32 hi x = true) : clamp32 x lo hi = hi := by
  obtain ⟨hlo, -, hle⟩ := le32_iff.mp hb
  obtain ⟨-, hx, hlt⟩ := lt32_iff.mp h
  rw [clamp32, lt32_eq hx hlo, decide_eq_false (by omega), if_neg Bool.false_ne_true, if_pos h]

theorem clamp32_of_between {x lo hi : F32} (h : between32 lo hi x = true) : clamp32 x lo hi = x := by
  obtain ⟨hlo, hhi, hx, hlow, hhigh⟩ := between32_iff.mp h
  rw [clamp32, lt32_eq hx hlo, lt32_eq hhi hx, decide_eq_false (by omega), decide_eq_false (by omega),
    if_neg Bool.false_ne_true, if_neg Bool.false_ne_true]

/-- A clamp answers one of its three arguments. -/
theorem clamp32_eq_or (x lo hi : F32) : clamp32 x lo hi = lo ∨ clamp32 x lo hi = hi ∨ clamp32 x lo hi = x := by
  unfold clamp32
  split
  · exact .inl rfl
  · split
    · exact .inr (.inl rfl)
    · exact .inr (.inr rfl)

/-- Settles O27, by the place of x: below, above, inside. -/
theorem clampHoldsItsBounds : Obligations.ClampHoldsItsBounds := by
  intro x lo hi hx hb
  obtain ⟨hlow, hhigh⟩ := Bool.and_eq_true_iff.mp (between32_clamp32 hx hb)
  exact ⟨hlow, hhigh, clamp32_of_below hi, clamp32_of_above hb,
    fun h1 h2 => clamp32_of_between (Bool.and_eq_true_iff.mpr ⟨h1, h2⟩)⟩

/-- Settles O28: each value is a clamped sum or difference of finite values, between ordered bounds. -/
theorem steppedValuesStayInBounds : Obligations.SteppedValuesStayInBounds := by
  intro s hc hlfoFreq hlfoDepth hbaseFreq
  obtain ⟨hlfoBounds, hbaseBounds, hdepthBounds⟩ := configOk_bounds hc
  obtain ⟨hbaseStep, hlfoStep, hdepthStep⟩ := configOk_steps hc
  exact ⟨between32_clamp32_add32 hlfoFreq hlfoStep hlfoBounds, between32_clamp32_sub32 hlfoFreq hlfoStep hlfoBounds,
    between32_clamp32_add32 hlfoDepth hdepthStep hdepthBounds, between32_clamp32_sub32 hlfoDepth hdepthStep hdepthBounds,
    between32_clamp32_add32 hbaseFreq hbaseStep hbaseBounds, between32_clamp32_sub32 hbaseFreq hbaseStep hbaseBounds⟩

/-! ## Negative zero -/

theorem configOk_lfoFreqStep_pos {c : Config} (h : configOk c = true) : 0 < units32 c.lfoFreqStep := by
  simp only [configOk, rangesOk, pos32, Bool.and_eq_true, decide_eq_true_eq] at h
  tauto

/-- The reset value 10.0 of LFO_FREQ lies within its bounds (R10 (f)). -/
theorem configOk_lfoFreqMax_pos {c : Config} (h : configOk c = true) : 0 < units32 c.lfoFreqMax := by
  simp only [configOk, resetValuesOk, within32, Bool.and_eq_true, decide_eq_true_eq] at h
  obtain ⟨-, -, -, hle⟩ := h
  have hten : 0 < units32 resetLfoFreq := by decide
  exact lt_of_lt_of_le hten hle

/-- A difference rounds to a zero only where it is 0: every other one is a unit or more. -/
theorem units32_sub_eq_zero {a b : F32} (ha : isFinite32 a = true) (hb : isFinite32 b = true)
    (h : units32 (sub32 a b) = 0) : units32 a - units32 b = 0 := by
  have hdiff := sub32_rounds ha hb
  have hone : units32 0x00000001#32 = 1 := by decide
  have hnegOne : units32 0x80000001#32 = -1 := by decide
  by_contra hne
  rcases lt_or_gt_of_ne hne with hneg | hpos
  · have hle := hdiff.le one_pos 0x80000001#32 (by decide) (by rw [hnegOne]; omega)
    omega
  · have hge := hdiff.ge one_pos 0x00000001#32 (by decide) (by rw [hone]; omega)
    omega

/-- Subtracting a value that is not zero never gives -0.0: an exact zero difference of such values is +0.0. -/
theorem sub32_ne_negZero {a b : F32} (ha : isFinite32 a = true) (hb : isFinite32 b = true) (hb0 : units32 b ≠ 0) :
    sub32 a b ≠ 0x80000000#32 := by
  intro h
  have hzero := units32_sub_eq_zero ha hb (by rw [h]; decide)
  have hne : b ≠ 0#32 := by
    rintro rfl
    exact hb0 units32_zero
  rw [sub32_of_difference_zero ha hb hzero, if_neg fun hand => hne hand.2] at h
  exact absurd h (by decide)

/-- Settles O29: neither bound is -0.0, and the difference with a positive step never is. -/
theorem lfoFreqDecNeverNegativeZero : Obligations.LfoFreqDecNeverNegativeZero := by
  intro s hc hfreq
  obtain ⟨-, hstep, -⟩ := configOk_steps hc
  have hmax := configOk_lfoFreqMax_pos hc
  obtain h | h | h : lfoFreqDown s = lfoFreqMin ∨ lfoFreqDown s = s.cfg.lfoFreqMax ∨
      lfoFreqDown s = sub32 s.lfoFreq s.cfg.lfoFreqStep := clamp32_eq_or ..
  all_goals rw [h]
  · decide
  · intro hneg
    rw [hneg] at hmax
    exact absurd hmax (by decide)
  · exact sub32_ne_negZero hfreq hstep (configOk_lfoFreqStep_pos hc).ne'

/-! ## The error of one rounding -/

/-- The exponent a quotient below 2^(frac + 1 + k) is rounded at. -/
theorem roundExp_le (f : Format) {n d k : Nat} (h : n < 2 ^ (f.frac + 1 + k) * d) : roundExp f n d ≤ k := by
  have hlog : Nat.log2 (n / d) < f.frac + 1 + k := by
    by_cases h0 : n / d = 0
    · rw [h0, Nat.log2_zero]
      omega
    · exact (Nat.log2_lt h0).mpr (Nat.div_lt_of_lt_mul (Nat.mul_comm d _ ▸ h))
  unfold roundExp
  omega

/-- A quotient below 2^(frac + 1 + k) rounds by at most half of 2^k. -/
theorem roundMag_error_le (f : Format) {n d k : Nat} (hd : 0 < d) (hfin : roundMag f n d < f.inf)
    (h : n < 2 ^ (f.frac + 1 + k) * d) : 2 * ((magUnits f (roundMag f n d) * d : Int) - n).natAbs ≤ d * 2 ^ k := by
  have hhalf := roundRaw_within_half_step f (n := n) hd
  have hstep : d * 2 ^ roundExp f n d ≤ d * 2 ^ k :=
    Nat.mul_le_mul_left d (Nat.pow_le_pow_right two_pos (roundExp_le f h))
  rw [roundMag_eq_roundRaw hfin]
  simp only [← Nat.cast_mul]
  omega

/-- The error of a rounding is its magnitude's, since it keeps the sign. -/
theorem IsRounding.natAbs_error {f : Format} {e : Int} {d : Nat} {x : Fp} (h : IsRounding f e d x) :
    (units f x * d - e).natAbs = ((magUnits f (roundMag f e.natAbs d) * d : Int) - e.natAbs).natAbs := by
  obtain ⟨s, m⟩ := x
  obtain ⟨hm, hneg, hpos⟩ := h
  simp only at hm hneg hpos
  subst hm
  rw [units_eq, ← Nat.cast_mul]
  cases s with
  | false =>
    have h0 : 0 ≤ e := not_lt.mp fun h => Bool.false_ne_true (hneg h)
    rw [if_neg Bool.false_ne_true, ← Nat.cast_mul]
    omega
  | true =>
    have h0 : e ≤ 0 := not_lt.mp fun h => Bool.false_ne_true (hpos h).symm
    rw [if_pos rfl, neg_mul, ← Nat.cast_mul]
    omega

/-- Settles O39: 1024 is 2^(23 + 1 + 135) units, so the last place is at most 2^135 units and the error half of it. -/
theorem shiftRoundsAtMostHalfUlp : Obligations.ShiftRoundsAtMostHalfUlp := by
  intro f d hf hd hlt
  have hsum : IsRounding binary32 _ 1 _ := add32_rounds hf hd
  have hlimit : magUnits binary32 0x44800000 = 1024 * 2 ^ 149 := by decide
  have hfin := hsum.finite (m := 0x44800000) one_pos (by decide) (by rw [hlimit]; omega)
  rw [isFiniteF, hsum.1, decide_eq_true_iff] at hfin
  have herror := roundMag_error_le binary32 (k := 135) one_pos hfin (hlt.trans_eq (by decide))
  rw [← hsum.natAbs_error, Nat.cast_one, mul_one] at herror
  rw [units32]
  omega

end Sys2Proof.Machine
end

section
/-!
PROOFS. The commands of the control port, from their acceptance to their last write (spec/44_parameter_surface.md R220 to
R236): every command by its write set, and the write sets performed.
-/
namespace Sys2Proof.Machine

/-! ## Acceptance -/

/-- An accepted command that raises no model fault changes PENDING only. -/
theorem exec_control_of_noFaults {i : Instr} {s : State} (hport : i.onPort .control = true) (hidle : s.pending = [])
    (hquiet : commandFaults i s = noFaults) : exec i s = .next { s with pending := commandWrites i s } := by
  rw [exec_control hport hidle, hquiet, union_noFaults]

/-- Settles O13: the pairs are the commands' write sets. -/
theorem lfoFreqStepIsPending : Obligations.LfoFreqStepIsPending := fun _ hidle =>
  ⟨exec_control_of_noFaults rfl hidle rfl, exec_control_of_noFaults rfl hidle rfl⟩

/-- Settles O14: the pairs are the commands' write sets. -/
theorem lfoDepthStepIsPending : Obligations.LfoDepthStepIsPending := fun _ hidle =>
  ⟨exec_control_of_noFaults rfl hidle rfl, exec_control_of_noFaults rfl hidle rfl⟩

/-- Settles O16: the pairs are the commands' write sets. -/
theorem setCommandsArePending : Obligations.SetCommandsArePending := fun _ _ _ hidle =>
  ⟨exec_control_of_noFaults rfl hidle rfl, exec_control_of_noFaults rfl hidle rfl, exec_control_of_noFaults rfl hidle rfl⟩

/-- Settles O17: the clear is the command's write set. -/
theorem clrErrIsPending : Obligations.ClrErrIsPending := fun _ hidle => exec_control_of_noFaults rfl hidle rfl

theorem commandFaults_oscWaveNext {s : State} (h : s.oscWave ≠ 3#2) : commandFaults .oscWaveNext s = noFaults := if_neg h

theorem commandFaults_lfoWaveNext {s : State} (h : s.lfoWave ≠ 3#2) : commandFaults .lfoWaveNext s = noFaults := if_neg h

/-- The next operation on the codes of R17, case by case (R231). -/
theorem nextWaveCode_of_ne_three {w : BitVec 2} (h : w ≠ 3#2) :
    nextWaveCode w = if w = 0#2 then 1#2 else if w = 1#2 then 2#2 else 0#2 := by
  revert w
  decide

theorem union_onlyBadState (f : MFaults) : f.union onlyBadState = { f with badState := true } := by
  simp [MFaults.union, onlyBadState, noFaults]

/-- Settles O15: on a code of R17 the command raises nothing, on the code 3 it raises BAD_STATE (log 25). -/
theorem waveNextIsPending : Obligations.WaveNextIsPending := by
  intro s hidle
  refine ⟨fun hwave => ?_, fun hwave => ?_, fun hwave => ?_, fun hwave => ?_⟩
  · rw [exec_control_of_noFaults rfl hidle (commandFaults_oscWaveNext hwave), commandWrites,
      nextWaveCode_of_ne_three hwave]
  · rw [exec_control_of_noFaults rfl hidle (commandFaults_lfoWaveNext hwave), commandWrites,
      nextWaveCode_of_ne_three hwave]
  · rw [exec_control rfl hidle, commandWrites, commandFaults, hwave, ← union_onlyBadState]
    rfl
  · rw [exec_control rfl hidle, commandWrites, commandFaults, hwave, ← union_onlyBadState]
    rfl

/-! ## From acceptance to the last write -/

/-- A command accepted on an idle control port, then as many ControlWrites as it has pairs, in any order: the block is as
it was, with each pair performed once (R72, R220). -/
theorem exec_then_writes {i : Instr} {s : State} {ws : List Write} {order : List Nat} (hidle : s.pending = [])
    (hquiet : commandFaults i s = noFaults) (hport : i.onPort .control = true) (hwrites : commandWrites i s = ws)
    (hlen : order.length = ws.length) :
    ∃ t, exec i s = .next t ∧ t = { s with pending := t.pending } ∧ t.pending = ws ∧
      order.foldl (fun u k => controlWrite k u) t = ws.foldl (fun u w => performWrite w u) s := by
  subst hwrites
  have hwf : pendingWf (commandWrites i s) := pendingWf_commandWrites i (hidle ▸ List.Pairwise.nil)
  have hclear : { s with pending := [] } = s := by rw [← hidle]
  refine ⟨_, exec_control_of_noFaults hport hidle hquiet, rfl, rfl, ?_⟩
  rw [pendingWritesCommute _ order hwf hlen, ← foldl_performWrite_withPending, hclear]

/-- A command with one pair, performed by the next ControlWrite, whichever place that asks for. -/
theorem exec_then_write (i : Instr) {s : State} (w : Write) (k : Nat) (hidle : s.pending = [])
    (hquiet : commandFaults i s = noFaults) (hport : i.onPort .control = true) (hwrites : commandWrites i s = [w]) :
    ∃ t, exec i s = .next t ∧ controlWrite k t = performWrite w s := by
  obtain ⟨t, hexec, -, -, hfinal⟩ := exec_then_writes (order := [k]) hidle hquiet hport hwrites rfl
  exact ⟨t, hexec, hfinal⟩

/-- Settles O20: each command has one pair and raises no model fault. -/
theorem oneFieldCommandsEndState : Obligations.OneFieldCommandsEndState := by
  intro s k w v hidle hosc hlfo after
  exact ⟨exec_then_write .lfoFreqInc (.lfoFreq (lfoFreqUp s)) k hidle rfl rfl rfl,
    exec_then_write .lfoFreqDec (.lfoFreq (lfoFreqDown s)) k hidle rfl rfl rfl,
    exec_then_write .lfoDepthInc (.lfoDepth (lfoDepthUp s)) k hidle rfl rfl rfl,
    exec_then_write .lfoDepthDec (.lfoDepth (lfoDepthDown s)) k hidle rfl rfl rfl,
    exec_then_write .oscWaveNext (.oscWave (nextWaveCode s.oscWave)) k hidle (commandFaults_oscWaveNext hosc) rfl rfl,
    exec_then_write .lfoWaveNext (.lfoWave (nextWaveCode s.lfoWave)) k hidle (commandFaults_lfoWaveNext hlfo) rfl rfl,
    exec_then_write (.setOscWave w) (.oscWave w) k hidle rfl rfl rfl,
    exec_then_write (.setLfoWave w) (.lfoWave w) k hidle rfl rfl rfl,
    exec_then_write (.setSineShape v) (.sineShape v) k hidle rfl rfl rfl,
    exec_then_write .clrErr .errGroup k hidle rfl rfl rfl⟩

/-! ## Commands with a pair for each voice slot -/

/-- Performing the pairs of the first c slots of a state, each taken from the slot it writes. -/
theorem foldl_voiceFreqWrites_take (g : Voice → F32) (c : Nat) (s : State) :
    (voiceFreqWrites g (s.voices.take c)).foldl (fun u w => performWrite w u) s = { s with
      voices := s.voices.mapIdx (fun k v => if k < c then { v with freq := g v } else v)
      mfault := { s.mfault with badState := s.mfault.badState || (s.voices.take c).any (fun v => !pos32 (g v)) } } := by
  rw [foldl_voiceFreqWrites]
  congr 1
  refine List.ext_getElem (by simp) fun k h _ => ?_
  have hk : k < s.voices.length := by simpa using h
  by_cases hc : k < c
  · simp [hc, hk]
  · simp [hc]

/-- The pairs of a base-frequency command performed (R226). -/
theorem foldl_shiftWrites (s : State) (new : F32) :
    (shiftWrites s new).foldl (fun u w => performWrite w u) s = { s with
      baseFreq := new
      voices := s.voices.map (fun v => { v with freq := add32 v.freq (sub32 new s.baseFreq) })
      mfault := { s.mfault with
        badState := s.mfault.badState || s.voices.any (fun v => !pos32 (add32 v.freq (sub32 new s.baseFreq))) } } := by
  have h := foldl_voiceFreqWrites_take (fun v => add32 v.freq (sub32 new s.baseFreq)) s.voices.length
    { s with baseFreq := new }
  rw [mapIdx_if_lt (fun v : Voice => { v with freq := add32 v.freq (sub32 new s.baseFreq) }), List.take_length,
    List.drop_length, List.append_nil] at h
  exact h

/-- The pairs of a voice-count command performed (R228, R230). -/
theorem foldl_resizeWrites (s : State) (c : Nat) :
    (resizeWrites s c).foldl (fun u w => performWrite w u) s = { s with
      activeVoices := BitVec.ofNat 4 c
      voices := s.voices.mapIdx (fun k v => if k < c then { v with freq := mul32 s.baseFreq v.detune } else v)
      mfault := { s.mfault with
        badState := s.mfault.badState || (s.voices.take c).any (fun v => !pos32 (mul32 s.baseFreq v.detune)) } } :=
  foldl_voiceFreqWrites_take (fun v => mul32 s.baseFreq v.detune) c { s with activeVoices := BitVec.ofNat 4 c }

theorem length_shiftWrites (s : State) (new : F32) : (shiftWrites s new).length = s.voices.length + 1 := by
  rw [shiftWrites, voiceFreqWrites, List.length_cons, List.length_mapIdx]

theorem length_resizeWrites {s : State} {c : Nat} (h : c ≤ s.voices.length) : (resizeWrites s c).length = c + 1 := by
  rw [resizeWrites, reDeriveWrites, voiceFreqWrites, List.length_cons, List.length_mapIdx, List.length_take,
    min_eq_left h]

/-- Settles O18: both commands have the write set `shiftWrites` at their clamped value. -/
theorem baseFreqCommandsEndState : Obligations.BaseFreqCommandsEndState := by
  intro s order i new hidle horder hi
  obtain ⟨hport, hquiet, hwrites⟩ : i.onPort .control = true ∧ commandFaults i s = noFaults ∧
      commandWrites i s = shiftWrites s new := by
    rcases hi with ⟨rfl, rfl⟩ | ⟨rfl, rfl⟩ <;> exact ⟨rfl, rfl, rfl⟩
  have hlen := length_shiftWrites s new
  obtain ⟨t, hexec, hframe, hpending, hfinal⟩ :=
    exec_then_writes hidle hquiet hport hwrites (horder.trans hlen.symm)
  exact ⟨t, hexec, hframe, by rw [hpending, hlen], hfinal.trans (foldl_shiftWrites s new)⟩

/-- Settles O19: both commands have the write set `resizeWrites` at their new count. -/
theorem voiceCommandsEndState : Obligations.VoiceCommandsEndState := by
  intro s order i c hidle hvoices hmax horder hi
  obtain ⟨hport, hquiet, hwrites⟩ : i.onPort .control = true ∧ commandFaults i s = noFaults ∧
      commandWrites i s = resizeWrites s c := by
    rcases hi with ⟨rfl, rfl⟩ | ⟨rfl, rfl⟩ <;> exact ⟨rfl, rfl, rfl⟩
  have hlen := length_resizeWrites (s := s) (hmax.trans_eq hvoices.symm)
  obtain ⟨t, hexec, hframe, hpending, hfinal⟩ :=
    exec_then_writes hidle hquiet hport hwrites (horder.trans hlen.symm)
  exact ⟨t, hexec, hframe, by rw [hpending, hlen], hfinal.trans (foldl_resizeWrites s c)⟩

end Sys2Proof.Machine
end

section
/-!
PROOFS. The cause of a rejection (spec/60_exceptions.md R263): the checks of spec/30_encoding.md R102 as conditions on the
numbers of the word's two fields, in their order, and the decoder against them.
-/
namespace Sys2Proof

/-! ## The checks by number -/

/-- The opcode is one of the map (R93, R98). -/
abbrev DefinedOpcode (opc : Nat) : Prop := opc ≤ 0x0E ∨ opc = 0x80

/-- The opcode belongs to the other port (R93, R100). -/
abbrev OnWrongPort (p : Port) (opc : Nat) : Prop :=
  (opc = 0x80 ∧ p = .control) ∨ (1 ≤ opc ∧ opc ≤ 0x0E ∧ p = .engine)

/-- A must-be-0 bit of the opcode's operand form is set (R94, R99). -/
abbrev ReservedSet (opc arg : Nat) : Prop :=
  (opc ≤ 0x0A ∧ arg ≠ 0) ∨ ((opc = 0x0B ∨ opc = 0x0C) ∧ 4 ≤ arg) ∨ (opc = 0x0D ∧ 2 ≤ arg) ∨ (opc = 0x0E ∧ arg ≠ 0)

/-- The operand is the wave code 3 (R96). -/
abbrev SpellsNoWave (opc arg : Nat) : Prop := (opc = 0x0B ∨ opc = 0x0C) ∧ arg = 3

/-- The checks on ARG in the order of R102. -/
def argFailure (opc arg : Nat) : Option Cause :=
  if ReservedSet opc arg then some .reservedArg else if SpellsNoWave opc arg then some .badWave else none

/-- The first check that fails, in the order of R102. -/
def firstFailure (p : Port) (opc arg : Nat) : Option Cause :=
  if ¬ DefinedOpcode opc then some .illegalOpcode else if OnWrongPort p opc then some .wrongPort else argFailure opc arg

/-- The cause of a rejection, if it is one. -/
def rejection : Except Cause Instr → Option Cause
  | .ok _ => none
  | .error c => some c

theorem rejection_eq_some_iff {r : Except Cause Instr} {c : Cause} : rejection r = some c ↔ r = .error c := by
  cases r <;> simp [rejection]

theorem rejection_eq_none_iff {r : Except Cause Instr} : rejection r = none ↔ ∃ i, r = .ok i := by
  cases r <;> simp [rejection]

/-! ## The opcode map by number -/

/-- The opcodes of each operand form (R93). -/
def Form.hasOpcode (opc : Nat) : Form → Prop
  | .z _ => opc ≤ 0x0A ∨ opc = 0x0E
  | .w _ => opc = 0x0B ∨ opc = 0x0C
  | .s _ => opc = 0x0D
  | .n _ => opc = 0x80

theorem not_definedOpcode_of_opcodeMap {opc : BitVec 8} (h : opcodeMap opc = none) : ¬ DefinedOpcode opc.toNat := by
  unfold opcodeMap at h
  split at h <;> cases h
  -- the map's last row: the opcode is none of the sixteen
  simp only [imp_false] at *
  bv_omega

theorem opcodeMap_numbers {opc : BitVec 8} {c : PortClass} {f : Form} (h : opcodeMap opc = some (c, f)) :
    DefinedOpcode opc.toNat ∧ f.hasOpcode opc.toNat ∧ ∀ p, c.admits p = true ↔ ¬ OnWrongPort p opc.toNat := by
  unfold opcodeMap at h
  split at h <;> cases h <;> refine ⟨by decide, by simp [Form.hasOpcode], fun p => ?_⟩ <;> cases p <;> decide

/-! ## The operand forms by number -/

theorem reserved_ne_zero_iff {arg : BitVec 24} {k m : Nat} (h : k + m = 24) :
    arg.extractLsb' k m ≠ 0#m ↔ 2 ^ k ≤ arg.toNat := by
  have hlt : arg.toNat / 2 ^ k < 2 ^ m := Nat.div_lt_of_lt_mul (by rw [← pow_add, h]; exact arg.isLt)
  rw [ne_eq, ← BitVec.toNat_inj, BitVec.extractLsb'_toNat, Nat.shiftRight_eq_div_pow, Nat.mod_eq_of_lt hlt,
    BitVec.toNat_ofNat, Nat.zero_mod, Nat.div_eq_zero_iff_lt (Nat.two_pow_pos k), not_lt]

/-- Below the reserved bits ARG is its wave code. -/
theorem waveCode_eq_three_iff {arg : BitVec 24} (h : arg.toNat < 4) : arg.extractLsb' 0 2 = 3#2 ↔ arg.toNat = 3 := by
  rw [← BitVec.toNat_inj, BitVec.extractLsb'_toNat, Nat.shiftRight_zero, Nat.mod_eq_of_lt h]
  rfl

/-- The checks on ARG are those of the opcode's operand form. -/
theorem rejection_decodeForm {opc : Nat} {f : Form} (h : f.hasOpcode opc) (arg : BitVec 24) :
    rejection (decodeForm f arg) = argFailure opc arg.toNat := by
  cases f with
  | z i =>
    simp only [Form.hasOpcode] at h
    simp only [decodeForm, ← BitVec.toNat_inj, BitVec.toNat_ofNat, Nat.zero_mod]
    split
    · rw [argFailure, if_neg (by omega), if_neg (by omega), rejection]
    · rw [argFailure, if_pos (by omega), rejection]
  | w mk =>
    simp only [Form.hasOpcode] at h
    simp only [decodeForm, reserved_ne_zero_iff (k := 2) (m := 22) rfl]
    split
    · rw [argFailure, if_pos (by omega), rejection]
    · next hlow =>
      simp only [waveCode_eq_three_iff (not_le.mp hlow)]
      split
      · rw [argFailure, if_neg (by omega), if_pos (by omega), rejection]
      · rw [argFailure, if_neg (by omega), if_neg (by omega), rejection]
  | s mk =>
    simp only [Form.hasOpcode] at h
    simp only [decodeForm, reserved_ne_zero_iff (k := 1) (m := 23) rfl]
    split
    · rw [argFailure, if_pos (by omega), rejection]
    · rw [argFailure, if_neg (by omega), if_neg (by omega), rejection]
  | n mk =>
    simp only [Form.hasOpcode] at h
    rw [decodeForm, argFailure, if_neg (by omega), if_neg (by omega), rejection]

/-- A word is rejected for its first failing check (R263). -/
theorem rejection_decode (p : Port) (w : Word) :
    rejection (decode p w) = firstFailure p (opcField w).toNat (argField w).toNat := by
  rw [decode, firstFailure]
  split
  · next hrow => rw [if_pos (not_definedOpcode_of_opcodeMap hrow), rejection]
  · next c f hrow =>
    obtain ⟨hdefined, hform, hports⟩ := opcodeMap_numbers hrow
    rw [if_neg (not_not.mpr hdefined)]
    split
    · next hadmits => rw [if_neg ((hports p).mp hadmits), rejection_decodeForm hform]
    · next hrefuses => rw [if_pos (by_contra fun h => hrefuses ((hports p).mpr h)), rejection]

/-- Each outcome of a chain of checks: those before it pass, its own fails. -/
theorem outcome_iff_of_checks {defined wrong reserved noWave : Prop} [Decidable defined] [Decidable wrong]
    [Decidable reserved] [Decidable noWave] {r : Option Cause}
    (h : r = if ¬ defined then some .illegalOpcode else if wrong then some .wrongPort
      else if reserved then some .reservedArg else if noWave then some .badWave else none) :
    (r = some .illegalOpcode ↔ ¬ defined) ∧ (r = some .wrongPort ↔ defined ∧ wrong) ∧
    (r = some .reservedArg ↔ defined ∧ ¬ wrong ∧ reserved) ∧
    (r = some .badWave ↔ defined ∧ ¬ wrong ∧ ¬ reserved ∧ noWave) ∧
    (r = none ↔ defined ∧ ¬ wrong ∧ ¬ reserved ∧ ¬ noWave) := by
  subst h
  split_ifs <;> simp [*]

/-- A word with the wave code 3 passes the three checks before that of its code exactly on the control port. -/
theorem only_noWave_fails_iff (p : Port) (opc arg : Nat) :
    (DefinedOpcode opc ∧ ¬ OnWrongPort p opc ∧ ¬ ReservedSet opc arg ∧ SpellsNoWave opc arg) ↔
      (opc = 0x0B ∨ opc = 0x0C) ∧ p = .control ∧ arg = 3 := by
  constructor
  · rintro ⟨-, hport, -, hopc, harg⟩
    cases p with
    | control => exact ⟨hopc, rfl, harg⟩
    | engine => exact absurd (.inr ⟨by omega, by omega, rfl⟩) hport
  · rintro ⟨hopc, rfl, rfl⟩
    have hport : ¬ OnWrongPort .control opc := by
      rintro (⟨hrender, -⟩ | ⟨-, -, hengine⟩)
      · omega
      · cases hengine
    exact ⟨by omega, hport, by omega, hopc, rfl⟩

/-- Settles O4: the word's cause is its first failing check, and the numbers decide which one that is. -/
theorem rejectionCauseIsFirstFailingCheck : Obligations.RejectionCauseIsFirstFailingCheck := by
  intro p w opc arg hword hlt
  have hopc : (opcField w).toNat = opc := by rw [opcField_toNat]; omega
  have harg : (argField w).toNat = arg := by rw [argField_toNat]; omega
  have hcause : rejection (decode p w) = firstFailure p opc arg := by rw [rejection_decode, hopc, harg]
  simp only [← rejection_eq_some_iff, ← rejection_eq_none_iff, ← only_noWave_fails_iff]
  exact outcome_iff_of_checks hcause

end Sys2Proof
end

section
/-!
PROOFS. The idle block, model faults, and the recording of a command error with its return (spec/60_exceptions.md R260 to
R277): the step by its next action and by its kinds.
-/
namespace Sys2Proof.Machine

/-! ## The idle block -/

/-- Settles O10: with no script the step is the block's own move, and neither agent is enabled. -/
theorem idleBlockKeepsItsState : Obligations.IdleBlockKeepsItsState := by
  intro s hscript hleft hpending
  rw [step, scriptStep, hscript]
  simp only [ownMove, (engBusy_eq_false s).mpr hleft, (ctrlBusy_eq_false s).mpr hpending, Bool.false_eq_true, if_false]

/-! ## Model faults -/

theorem subset_controlWrite_mfault (i : Nat) (s : State) : s.mfault.subset (controlWrite i s).mfault = true := by
  obtain he | ⟨w, -, ps, -, he⟩ := controlWrite_cases i s <;> rw [he]
  · exact subset_refl _
  · rw [performWrite_mfault]
    exact subset_union ..

theorem subset_exec_mfault {i : Instr} {s t : State} (h : exec i s = .next t) : s.mfault.subset t.mfault = true := by
  obtain rfl | ⟨n, -, -, rfl⟩ | ⟨-, -, rfl⟩ := exec_cases h
  · exact subset_refl _
  · exact subset_refl _
  · exact subset_union ..

theorem subset_acceptWord_mfault {p : Port} {w : Word} {s t : State} (h : acceptWord p w s = .next t) :
    s.mfault.subset t.mfault = true := by
  obtain ⟨i, -, hexec⟩ | ⟨c, -, rfl⟩ := acceptWord_cases h
  · exact subset_exec_mfault hexec
  · exact subset_refl _

/-- Settles O48, by the kinds of steps: a tick, a write and an accepted command join names to MFAULT, every other step
keeps it. -/
theorem modelFaultsOnlyGrow : Obligations.ModelFaultsOnlyGrow := by
  intro s t h
  cases step_cases h with
  | tick sc ch busy shape live eq =>
    rw [eq, tickState_mfault]
    exact subset_union ..
  | write i sc ch busy eq => exact eq ▸ subset_controlWrite_mfault i (withOwn sc ch s)
  | accept p w sc head idle eq => exact subset_acceptWord_mfault (s := withOwn sc s.choices s) eq
  | read a sc eq => exact eq ▸ subset_refl s.mfault
  | reset draw rest head ok eq => exact eq ▸ subset_refl s.mfault
  | rest sc eq => exact eq ▸ subset_refl s.mfault

/-! ## A rejected word and its return -/

/-- A word next on an idle port that does not decode is recorded. -/
theorem step_eq_raiseCmdError {s : State} {rest : List Action} (p : Port) {w : Word} {c : Cause}
    (h : s.script = (match p with | .engine => .engine w | .control => .control w) :: rest)
    (idle : portBusy p s = false) (hd : decode p w = .error c) :
    step s = .next (raiseCmdError p c w { s with script := rest }) := by
  have hdrop : dropAction s = { s with script := rest } := by rw [dropAction, h, List.tail_cons]
  rw [step_eq_offerWord p h, offerWord, idle, if_neg Bool.false_ne_true, acceptWord, hd, hdrop]

theorem recordError_of_first {e : ErrRecord} (h : e.err = false) (p : Port) (c : Cause) (w : Word) :
    recordError e p c w = { err := true, ovf := e.ovf, port := p, cause := c.code, badCmd := w } :=
  if_neg (ne_true_of_eq_false h)

theorem recordError_of_later {e : ErrRecord} (h : e.err = true) (p : Port) (c : Cause) (w : Word) :
    recordError e p c w = { e with ovf := true } := if_pos h

/-- Settles O6: the step raises the command error, and ERR decides what is recorded. -/
theorem rejectedWordIsRecorded : Obligations.RejectedWordIsRecorded := by
  intro s rest p w c hscript hidle hreject
  rw [step_eq_raiseCmdError p hscript hidle hreject, raiseCmdError]
  refine ⟨fun hfirst => ?_, fun hlater => ?_⟩
  · rw [recordError_of_first hfirst]
    cases c <;> rfl
  · rw [recordError_of_later hlater]

/-- CLR_ERR next on an idle control port leaves the clear pending (R236). -/
theorem step_clrErr {s : State} {rest : List Action} (hscript : s.script = .control 0x0E000000#32 :: rest)
    (hidle : s.pending = []) : step s = .next { s with script := rest, pending := [.errGroup] } := by
  have hdecode : decode .control 0x0E000000#32 = .ok .clrErr := by decide
  rw [step_eq_exec .control hscript ((ctrlBusy_eq_false s).mpr hidle) hdecode]
  exact clrErrIsPending _ hidle

/-- A write that comes next with the clear alone pending empties the error fields and PENDING. -/
theorem step_write_errGroup {s : State} {k : Nat} {rest : List Action} (hscript : s.script = .write k :: rest)
    (hpending : s.pending = [.errGroup]) :
    step s = .next { s with script := rest, pending := [], error := noError } := by
  have hwrite := controlWrite_single (s := dropAction s) k hpending
  rw [step_eq_runAction hscript, runAction, hwrite, dropAction, hscript]
  rfl

/-- A CLR_ERR and its write next, on an idle control port, empty the error fields and change nothing else (R236, R265). -/
theorem run_clrErr_write {s : State} {k : Nat} {rest : List Action}
    (hscript : s.script = .control 0x0E000000#32 :: .write k :: rest) (hidle : s.pending = []) :
    core.run 2 s = .next { s with script := rest, error := noError } := by
  calc core.run 2 s
    _ = core.run 1 { s with script := .write k :: rest, pending := [.errGroup] : State } :=
      run_succ_of_step core (step_clrErr hscript hidle) 1
    _ = .next { s with script := rest, pending := [], error := noError } :=
      run_succ_of_step core (step_write_errGroup rfl rfl) 0
    _ = _ := by rw [← hidle]

/-- Settles O60: the rejection writes the error fields only, and the CLR_ERR and its write empty them. -/
theorem clrErrReturnsFromError : Obligations.ClrErrReturnsFromError := by
  intro s rest w c k hidle hreject hscript
  have hraise := step_eq_raiseCmdError .control hscript ((ctrlBusy_eq_false s).mpr hidle) hreject
  exact (run_succ_of_step core hraise 2).trans
    (run_clrErr_write (s := raiseCmdError .control c w { s with script := _ }) rfl hidle)

end Sys2Proof.Machine
end

section
/-!
PROOFS. The state after a reset (spec/70_reset_and_hazards.md R291, R292, R295; spec/10_state.md R49, R56).
-/
namespace Sys2Proof.Machine

/-! ## The slots from a draw -/

theorem admitDraw_of_inDetuneRange {c : Config} {x : F32} (h : inDetuneRange c x = true) : admitDraw c x = x := if_pos h

/-- A draw with one value a slot gives the slots in its order. -/
theorem resetVoices_eq_map {c : Config} {draw : List F32} (h : draw.length = c.maxVoices) :
    resetVoices c draw = draw.map (resetVoice c) := by
  refine List.ext_getElem (by rw [resetVoices_length, List.length_map, h]) fun k _ hk => ?_
  rw [List.length_map] at hk
  simp only [resetVoices, List.getElem_map, List.getElem_range, List.getD_eq_getElem _ _ hk]

/-- An admissible draw is taken as it is: each value is its slot's ratio (R291). -/
theorem resetVoices_of_inDetuneRange {c : Config} {draw : List F32} (hlen : draw.length = c.maxVoices)
    (hdraw : ∀ d ∈ draw, inDetuneRange c d = true) :
    resetVoices c draw = draw.map fun d => { freq := mul32 resetBaseFreq d, phase := zero32, detune := d } := by
  rw [resetVoices_eq_map hlen]
  refine List.map_congr_left fun d hd => ?_
  rw [resetVoice, admitDraw_of_inDetuneRange (hdraw d hd)]

/-! ## The reset step -/

/-- A reset next in the script of a well-formed instance is taken. -/
theorem step_reset {s : State} {draw : List F32} {rest : List Action} (hscript : s.script = .reset draw :: rest)
    (hcfg : configOk s.cfg = true) : step s = .next (applyReset draw { s with script := rest }) := by
  have hdrop : dropAction s = { s with script := rest } := by rw [dropAction, hscript, List.tail_cons]
  rw [step_eq_runAction hscript, runAction, hdrop]
  exact resetStep_of_configOk draw hcfg

/-- Settles O52: the step is `applyReset`, whose slots from an admissible draw have the values of the draw. -/
theorem resetStepValues : Obligations.ResetStepValues := by
  intro s draw rest hscript hcfg hlen hdraw
  rw [step_reset hscript hcfg, applyReset, resetVoices_of_inDetuneRange hlen hdraw]
  rfl

/-! ## INV after a reset -/

/-- INV does not read MFAULT (R49). -/
theorem inv_withFaults (f : MFaults) (s : State) : INV { s with mfault := f } ↔ INV s := Iff.rfl

/-- A reset leads to INV from every state, marked or not: the reset of the same state without marks differs in MFAULT
alone. -/
theorem inv_applyReset {s : State} (hcfg : configOk s.cfg = true) (draw : List F32) : INV (applyReset draw s) :=
  (inv_withFaults noFaults _).mp
    ((invariant_applyReset (s := { s with mfault := noFaults }) hcfg draw).inv_of_noFaults rfl)

/-- A configuration with fewer slots than the reset value of ACTIVE_VOICES is ill formed (R10 (f)). -/
theorem configOk_eq_false_of_maxVoices_lt {c : Config} (h : c.maxVoices < 3) : configOk c = false := by
  rw [Bool.eq_false_iff]
  intro hcfg
  obtain ⟨-, -, hvoices, -⟩ := configOk_sizes hcfg
  omega

/-- Settles O54: INV and the slots by the values of the reset, the table by the check that the configuration passed. -/
theorem resetStateIsAdmitted : Obligations.ResetStateIsAdmitted := by
  refine ⟨?_, fun c => configOk_eq_false_of_maxVoices_lt⟩
  rintro s t draw hcfg rfl
  obtain ⟨-, -, hvoices, -, hlen, -⟩ := configOk_sizes hcfg
  have hslots : ∀ v ∈ resetVoices s.cfg draw,
      v.phase = 0x00000000#32 ∧ isFinite32 v.freq = true ∧ 0 < units32 v.freq := by
    intro v hv
    obtain ⟨d, hd, rfl⟩ := exists_of_mem_resetVoices hcfg hv
    have hpos := pos32_mul32_resetBaseFreq hcfg hd
    rw [pos32, Bool.and_eq_true, decide_eq_true_eq] at hpos
    exact ⟨rfl, hpos⟩
  exact ⟨inv_applyReset hcfg draw, (tableNear_iff hlen).mp (configOk_table hcfg), rfl, rfl, hvoices, hslots⟩

/-- Settles O45: the power-on state is a reset of a well-formed instance. -/
theorem resetSatisfiesInvariant : Obligations.ResetSatisfiesInvariant := by
  obtain ⟨hcfg, -⟩ := currentConfig_decided
  rw [Obligations.ResetSatisfiesInvariant, reset_is_applyReset]
  exact invariant_applyReset (s := State.reset) hcfg powerOnDraw

end Sys2Proof.Machine
end
